-- ==== Sys2Proof/Word.lean ====
section
/-! DEFINITION. The widths LEDTX uses (R9) and the one compound value of its datapath, an RGB triple (R2). -/

namespace Sys2Proof

/-- u8 (R9). -/
abbrev Byte := BitVec 8
/-- u16 (R9). -/
abbrev Half := BitVec 16
/-- u32 (R9): a register, a command word, an index of TXBUF. -/
abbrev Word := BitVec 32

/-- A port index. R6: NPORTS is 1..15, so every port index of every configuration is below 15; R35 keeps the
sixteenth value of the 4-bit lock owner for "free". -/
abbrev PortId := Fin 15

/-- The result of CONVERT: one RGB triple, three u8 (R2, R83). -/
structure Rgb where
  r : Byte
  g : Byte
  b : Byte
deriving DecidableEq, Repr, Inhabited

/-- The table PAT[0..3] (R6, R85): the output byte of each 2-bit slice value. -/
structure Patterns where
  p0 : Byte
  p1 : Byte
  p2 : Byte
  p3 : Byte
deriving DecidableEq, Repr, Inhabited

end Sys2Proof
end

