-- ==== Sys2Proof/Syntax.lean ====
section
/-! DEFINITION. The commands of LEDTX (R67, R68): one constructor per row of spec/opcode_table.json. -/

namespace Sys2Proof

/-- A host command, in the spec's own notation `SETLEN p, n` and `SEND p, n` (R73): the port whose CMD register the word is
written to, and the ARG field of the word (R69). -/
inductive Instr where
  /-- SETLEN p, n (R94): the source's set_length(n). -/
  | setlen (p : PortId) (n : Half)
  /-- SEND p, n (R99): the source's send(pixels, n, delay). -/
  | send (p : PortId) (n : Half)
deriving DecidableEq, Repr

/-- The port the command is written to. -/
def Instr.port : Instr → PortId
  | .setlen p _ => p
  | .send p _ => p

/-- The ARG field, an unsigned count (R69). -/
def Instr.count : Instr → Half
  | .setlen _ n => n
  | .send _ n => n

end Sys2Proof
end

