-- ==== Sys2Proof/Decode.lean ====
section
/-! DEFINITION. The command word (R67 to R71): decoding, total on every 32-bit word, and after it encoding. -/

namespace Sys2Proof

/-- Why a word is ILLEGAL (R71, R75). ILLEGAL is the decoder's verdict, not an instruction; R93 performs it. -/
inductive Illegal where
  /-- RSV is nonzero (R70). -/
  | reservedBits
  /-- OP is 0x0 or 0x3 to 0xF (R68). -/
  | reservedOp
deriving DecidableEq, Repr

/-- The decoder's verdict on a word. -/
inductive Decoded where
  | command (i : Instr)
  | illegal (why : Illegal)
deriving DecidableEq, Repr

/-- ARG, bits 31:16 (R67). -/
def argField (w : Word) : Half := w.extractLsb' 16 16

/-- RSV, bits 15:4 (R67). -/
def rsvField (w : Word) : BitVec 12 := w.extractLsb' 4 12

/-- OP, bits 3:0 (R67). -/
def opField (w : Word) : BitVec 4 := w.extractLsb' 0 4

/-- R71, for a word written to CMD_p. -/
def decode (p : PortId) (w : Word) : Decoded :=
  if rsvField w ≠ 0#12 then .illegal .reservedBits
  else if opField w = 0x1#4 then .command (.setlen p (argField w))
  else if opField w = 0x2#4 then .command (.send p (argField w))
  else .illegal .reservedOp

/-- The word of the opcode table's rows, written to CMD_0: bit 0 of `w` is bit 0 of the command word (R10, R67), bits at
and above `nbits` are 0, and no command is longer than 32 bits (R74). -/
def decodeTableWord (nbits w : Nat) : Option Instr :=
  if nbits ≤ 32 then
    match decode 0 (BitVec.ofNat 32 (w % 2 ^ nbits)) with
    | .command i => some i
    | .illegal _ => none
  else none

/-- OP of a command (R68). -/
def opCode : Instr → BitVec 4
  | .setlen _ _ => 0x1#4
  | .send _ _ => 0x2#4

/-- The word of a command (R67, R73): `(n << 16) | OP`, RSV = 0. -/
def encode (i : Instr) : Word := i.count.setWidth 32 <<< 16 ||| (opCode i).setWidth 32

end Sys2Proof
end

