-- ==== Sys2Proof/Machine/Action.lean ====
section
/-! DEFINITION. What may happen next (R15, R16, R119): every step of every agent of the model, as plain data, so that the
open choice between the agents stands in State as a list. The agents' steps carry the spec's own names. -/

namespace Sys2Proof.Machine

/-- The kind of a host register access (R72). -/
inductive AccessKind where
  | read
  | write
deriving DecidableEq, Repr, Inhabited

/-- A host access of the register space (R54, R72): kind, byte offset from BLK_BASE, width in bits, and the value a write
carries (a read's value field says nothing). R54 gives a meaning to 32-bit accesses only; the width is here so that the others
can be refused. -/
structure HostAccess where
  kind  : AccessKind
  off   : Nat
  width : Nat
  value : Word
deriving DecidableEq, Repr, Inhabited

/-- A host context (R16: "one per host context"). The spec bounds their number nowhere, so they are numbered without a bound. -/
abbrev HostId := Nat

/-- One step of one agent (R16), or the platform's reset event (R137). The named steps are those of `42_commands.md` and
`43_dma_and_events.md`. -/
inductive Action where
  /-- The host of context `h`: one register access (R54). -/
  | host (h : HostId) (a : HostAccess)
  /-- The host of context `h`: one byte store to host memory (R17, R61). -/
  | memStore (h : HostId) (addr : Word) (v : Byte)
  /-- SEQ_p: R95. -/
  | lockAcq (p : PortId)
  /-- SEQ_p: R96. -/
  | lockTimeout (p : PortId)
  /-- SEQ_p: R97. -/
  | slSet (p : PortId)
  /-- SEQ_p: R98. -/
  | slWrite (p : PortId)
  /-- SEQ_p: R100. -/
  | check (p : PortId)
  /-- SEQ_p: R101. -/
  | poll (p : PortId)
  /-- SEQ_p: R102. -/
  | pollGiveup (p : PortId)
  /-- SEQ_p: R103. `sel` says which of the bytes that R61 lets this read return it returns (0: the newest). -/
  | fill (p : PortId) (sel : Nat)
  /-- SEQ_p: R104. -/
  | tail (p : PortId)
  /-- SEQ_p: R105. -/
  | kick (p : PortId)
  /-- SEQ_p: R106. -/
  | evtTake (p : PortId)
  /-- SEQ_p: R107. -/
  | evtTimeout (p : PortId)
  /-- DMA engine: R112. -/
  | dmaEmit
  /-- DMA engine: R113. -/
  | dmaEnd
  /-- DMA engine: R114. -/
  | dmaIdle
  /-- Completion handler: R115. -/
  | chTake
  /-- The platform: R137. -/
  | reset
deriving DecidableEq, Repr, Inhabited

end Sys2Proof.Machine
end

