-- ==== Sys2Proof/Machine/Convert.lean ====
section
/-! DEFINITION. HSV2RGB_D (R78 to R83), the one converter the spec writes out. It is an instance of the converter
parameter HSV2RGB (R77), not the hardware's converter: Config holds the parameter. All arithmetic is on naturals (R11, R88). -/

namespace Sys2Proof.Machine

/-- R78: the hue rescaled to 0..191. -/
def hueScaled (hue : Byte) : Nat := (hue.toNat * 192) / 2 ^ 8

/-- R79: the sector, 0, 1 or 2. -/
def hueSector (hue : Byte) : Nat := hueScaled hue / 64

/-- R79: the offset in the sector, 0..63. -/
def hueOffset (hue : Byte) : Nat := hueScaled hue % 64

/-- R80: the base (desaturation) level. -/
def baseLevel (sat val : Byte) : Nat := (val.toNat * (255 - sat.toNat)) / 255

/-- R80: the amplitude above the base level. -/
def amplitude (sat val : Byte) : Nat := val.toNat - baseLevel sat val

/-- R81: the rising contribution. -/
def riseLevel (hue sat val : Byte) : Nat :=
  baseLevel sat val + (amplitude sat val * hueOffset hue) / 64

/-- R81: the falling contribution. -/
def fallLevel (hue sat val : Byte) : Nat :=
  baseLevel sat val + (amplitude sat val * (64 - hueOffset hue)) / 64

/-- R82: the channels of each sector. -/
def channels (sec rise fall base : Nat) : Nat × Nat × Nat :=
  if sec = 0 then (fall, rise, base)
  else if sec = 1 then (base, fall, rise)
  else (rise, base, fall)

/-- Three naturals as three u8. -/
def rgbOfNats (x : Nat × Nat × Nat) : Rgb :=
  ⟨BitVec.ofNat 8 x.1, BitVec.ofNat 8 x.2.1, BitVec.ofNat 8 x.2.2⟩

/-- R83: HSV2RGB_D. -/
def hsv2rgbD (hue sat val : Byte) : Rgb :=
  rgbOfNats (channels (hueSector hue) (riseLevel hue sat val) (fallLevel hue sat val) (baseLevel sat val))

end Sys2Proof.Machine
end

