-- ==== Sys2Proof/Config.lean ====
section
/-! DEFINITION. The implementation parameters of R6, the reference instance of R8, and the free values of the model.

Every definition of the model takes the configuration as an argument; the machine of the fixed names runs with
`Config.chip`, a constant with no body, so whatever is proved of it holds for every legal configuration. The legal ranges of
R6 hold of every value of the type: two fields count from one, and the two parameters that have a property to meet (PAT, R85;
HSV2RGB, R77) are read through accessors that meet it and that can take every value that meets it. -/

namespace Sys2Proof

/-- R85: four pairwise distinct bytes. -/
def Patterns.distinct (t : Patterns) : Bool :=
  t.p0 != t.p1 && t.p0 != t.p2 && t.p0 != t.p3 && t.p1 != t.p2 && t.p1 != t.p3 && t.p2 != t.p3

/-- R8: the reference PAT, used here only where a configuration would name four bytes that are not distinct. -/
def Patterns.reference : Patterns := ⟨0x88#8, 0x8E#8, 0xE8#8, 0xEE#8⟩

/-- The parameters of R6. TX_TIMEOUT, LOCK_TIMEOUT and SPIN_LIMIT are not modelled (R132); ADDR_WIDTH is 32 (R49). -/
structure Config where
  /-- NPORTS - 1, so that NPORTS is 1..15. -/
  extraPorts : Fin 15
  /-- MAX_LEDS - 1, so that MAX_LEDS is 1..65535. -/
  extraLeds  : Fin 65535
  /-- RESET_BYTES, 0..65535. -/
  gapBytes   : Half
  /-- PAT as given; `Config.pat` is PAT as legal. -/
  patGiven   : Patterns
  /-- HSV2RGB as given; `Config.hsv2rgb` is HSV2RGB as legal. -/
  hsvGiven   : Byte → Byte → Byte → Rgb
  /-- BLK_BASE, the host address of register offset 0. -/
  blkBase    : Word
deriving Inhabited

namespace Config

/-- NPORTS (R6): 1..15. -/
def nports (c : Config) : Nat := c.extraPorts.val + 1

/-- MAX_LEDS (R6): 1..65535. -/
def maxLeds (c : Config) : Nat := c.extraLeds.val + 1

/-- RESET_BYTES (R6): 0..65535. -/
def resetBytes (c : Config) : Nat := c.gapBytes.toNat

/-- TXBUF_SIZE = 12 * MAX_LEDS + RESET_BYTES (R7). -/
def txbufSize (c : Config) : Nat := 12 * c.maxLeds + c.resetBytes

/-- FRAME_LEN(L) = 12 * L + RESET_BYTES (R7). -/
def frameLen (c : Config) (len : Half) : Nat := 12 * len.toNat + c.resetBytes

/-- PAT (R6, R85): any four pairwise distinct bytes. -/
def pat (c : Config) : Patterns := if c.patGiven.distinct then c.patGiven else Patterns.reference

/-- HSV2RGB (R6, R77): any function with P4 (saturation 0, value 255 is white for every hue) and P5 (hue 0, saturation 255,
value 255 is red-dominant). P1 and P2 hold of every function of three bytes to three bytes; P3 is a description of method. -/
def hsv2rgb (c : Config) (hue sat val : Byte) : Rgb :=
  if sat = 0#8 ∧ val = 255#8 then ⟨255#8, 255#8, 255#8⟩
  else if hue = 0#8 ∧ sat = 255#8 ∧ val = 255#8 ∧
      ¬((c.hsvGiven hue sat val).g < (c.hsvGiven hue sat val).r ∧ (c.hsvGiven hue sat val).b < (c.hsvGiven hue sat val).r)
    then ⟨255#8, 0#8, 0#8⟩
  else c.hsvGiven hue sat val

/-- R8: the reference instance, used by tests and by no rule. -/
def reference : Config :=
  { extraPorts := 1, extraLeds := 3, gapBytes := 2#16, patGiven := Patterns.reference,
    hsvGiven := Machine.hsv2rgbD, blkBase := 0#32 }

/-- The configuration of the hardware. No body: R6 gives no value of any parameter, so nothing can be proved of a
particular one (log entry 1). -/
opaque chip : Config

/-- FREE VALUE (log entry 4): the byte that index `i` of TXBUF holds after the reset that is draw number `k` (R48: "unspecified: any
byte values"). -/
opaque freeTxByte : Nat → Nat → Byte

/-- FREE VALUE (log entry 3): the step that fires next where State's schedule names none, as draw number `k` (R119: "any one enabled
step of any agent"). -/
opaque freeAction : Nat → Machine.Action

end Config

end Sys2Proof
end

