-- ==== Sys2Proof/Machine/State.lean ====
section
/-! DEFINITION. The state of LEDTX (R22), the observation (R18, R38), the platform's memory (R49) and the model's own
bookkeeping of the open choices, all plain data; and the state after reset (R48, R138). -/

namespace Sys2Proof.Machine

/-- The PHASE of a port sequencer (R27). -/
inductive Phase where
  | idle | lockWait | check | poll | fill | tail | kick | evtWait | slSet | slWrite | fatal
deriving DecidableEq, Repr, Inhabited

/-- The RESULT of a command (R28). -/
inductive Result where
  | ok | errTimeout | errInvalid | errBusy | errIllegal
deriving DecidableEq, Repr, Inhabited

/-- OP_p: the command in progress (R29); none is Option's. -/
inductive Op where
  | setlen | send
deriving DecidableEq, Repr, Inhabited

/-- DMA_STATE (R36). -/
inductive DmaState where
  | idle | run | drain
deriving DecidableEq, Repr, Inhabited

/-- Host memory, or what a store to it left behind: (address, byte) pairs. -/
abbrev Memory := List Host.Cell

/-- The canonical form of host memory: addresses strictly rising, each below 2^32 (R49). An unlisted address has no
value (its read is not admitted, R51), so no entry can equal what an unlisted address reads as. -/
def Memory.wf : Memory → Bool
  | [] => true
  | [(a, _)] => decide (a < 2 ^ 32)
  | (a, _) :: (b, w) :: m => decide (a < b) && Memory.wf ((b, w) :: m)

/-- Everything that exists once per port (R22, R134). -/
structure Port where
  /-- PIX_BASE_p (R24). -/
  pixBase : Word
  /-- DELAY_p (R25). -/
  delay   : Word
  /-- STATUS_p.ACTIVE (R26). -/
  active  : Bool
  /-- STATUS_p.DONE (R26). -/
  done    : Bool
  /-- STATUS_p.RESULT (R26, R28). -/
  result  : Result
  /-- STATUS_p.OVR (R26). -/
  ovr     : Bool
  /-- STATUS_p.FATAL (R26). -/
  fatal   : Bool
  /-- STATUS_p.PHASE (R26, R27). -/
  phase   : Phase
  /-- OP_p (R29). -/
  op      : Option Op
  /-- NREQ_p (R29). -/
  nreq    : Half
  /-- BASE_p (R29). -/
  base    : Word
  /-- N_p (R29). -/
  n       : Half
  /-- I_p (R29). -/
  i       : Word
  /-- PX_H_p (R29). -/
  pxH     : Byte
  /-- PX_S_p (R29). -/
  pxS     : Byte
  /-- J_p (R29). -/
  j       : Word
  /-- The model's own (log entry 8): older bytes of host memory that R61 still lets a read of the SEND in progress return, newest
  first. -/
  stale   : List Host.Cell
deriving DecidableEq, Repr

/-- R48: a port after reset. -/
def Port.reset : Port :=
  { pixBase := 0#32, delay := 0#32, active := false, done := false, result := .ok, ovr := false, fatal := false,
    phase := .idle, op := none, nreq := 0#16, base := 0#32, n := 0#16, i := 0#32, pxH := 0#8, pxS := 0#8, j := 0#32,
    stale := [] }

/-- One frame of the wire log (R38), marked truncated when a reset closed it (R137). -/
structure Frame where
  bytes     : List Byte
  truncated : Bool
deriving DecidableEq, Repr

/-- WIRE (R38): the frames, oldest first, and OPEN. -/
structure Wire where
  frames : List Frame
  isOpen : Bool
deriving DecidableEq, Repr

/-- One register read, as the host that made it saw it (R18: "the second observable"). -/
structure ReadRecord where
  host  : HostId
  off   : Nat
  value : Word
deriving DecidableEq, Repr

/-- A refusal mark (R125): the host context and its access that had no meaning (R123: kind, offset, value). -/
structure Refused where
  host   : HostId
  access : HostAccess
deriving DecidableEq, Repr

/-- The state. -/
structure State where
  /-- The ports, NPORTS of them (R134). -/
  ports     : List Port
  /-- LEN_CFG (R30). -/
  lenCfg    : Half
  /-- INIT (R31). -/
  init      : Bool
  /-- BUSY (R32). -/
  busy      : Bool
  /-- EVT (R33). -/
  evt       : Bool
  /-- IRQ_PEND (R34). -/
  irqPend   : Bool
  /-- LOCK_OWNER (R35): none is 0xF, free. -/
  lockOwner : Option PortId
  /-- DMA_STATE (R36). -/
  dmaState  : DmaState
  /-- DMA_POS (R36). -/
  dmaPos    : Word
  /-- DMA_LEN (R36). -/
  dmaLen    : Word
  /-- TXBUF (R37), TXBUF_SIZE bytes. -/
  txbuf     : List Byte
  /-- WIRE (R38), an observation no step reads. -/
  wire      : Wire
  /-- The register reads the host has made (R18), oldest first, an observation no step reads. -/
  reads     : List ReadRecord
  /-- Host memory (R49): the bytes whose read the platform admits (R51). LEDTX only reads it. -/
  mem       : Memory
  /-- The refusal marks (R125), oldest first, none at first: the host accesses that had no meaning. -/
  refusals  : List Refused
  /-- The model's own (log entry 3): the steps that fire next, the first one next. -/
  sched     : List Action
  /-- The model's own (log entries 3 and 4): how many free values have been drawn. -/
  draws     : Nat
deriving DecidableEq, Repr

/-- Why a step can stop with a fault. -/
inductive Fault where
  /-- Raised by SL_WRITE, FILL, TAIL and DMA_EMIT when an index is at or above TXBUF_SIZE. R53 says that no step uses such an index,
  and an obligation says it of every state that meets the invariant. Safe: the model stops. -/
  | txIndexOutOfRange
deriving DecidableEq, Repr

/-- Why a step can be refused. A host access without a meaning is no refusal of this kind: R125 lets the block go on, so the model
records the mark in State.refusals and goes on. -/
inductive Refusal where
  /-- Raised by an arm of exec that has no meaning yet. No arm does. Safe. -/
  | notModelled (mnemonic : String)
deriving DecidableEq, Repr

/-- The outcome of a step of this machine. -/
abbrev Out := Host.Outcome State Fault Refusal

/-- TXBUF after the reset that is draw `k`: TXBUF_SIZE bytes, each a free value (R48, R138). -/
def txbufAtReset (c : Config) (k : Nat) : List Byte := (List.range c.txbufSize).map (Config.freeTxByte k)

/-- R48 for the configuration `c`, with an empty wire log (R137: a power-on reset is "the same event with WIRE empty"), no host
access made, and nothing known of host memory. -/
def State.resetWith (c : Config) : State :=
  { ports := List.replicate c.nports Port.reset, lenCfg := 0#16, init := false, busy := false, evt := false,
    irqPend := false, lockOwner := none, dmaState := .idle, dmaPos := 0#32, dmaLen := 0#32,
    txbuf := txbufAtReset c 0, wire := ⟨[], false⟩, reads := [], mem := [], refusals := [], sched := [], draws := 1 }

/-- The machine right after reset. -/
def State.reset : State := State.resetWith Config.chip

end Sys2Proof.Machine
end

