-- ==== Sys2Proof/Machine/Ops.lean ====
section
/-! DEFINITION. The shared operations: host memory (R49 to R52), TXBUF (R53), the wire log (R38), the ports, and the three ways
a step records an outcome: `finish` (R91), `fatal` (R96) and the refusal mark (R125). LEDTX takes no trap and has no exception vector
(`60_exceptions.md`), so these three stand where another machine has its exception entry. -/

namespace Sys2Proof.Machine

/-! ### Host memory -/

/-- What an unlisted address reads as: no value, the read is not admitted (R51). -/
def Memory.unlisted : Option Byte := none

/-- The byte at an address. -/
def Memory.read : Memory → Nat → Option Byte
  | [], _ => Memory.unlisted
  | (b, v) :: m, a => if a = b then some v else Memory.read m a

/-- A byte store, keeping the list in canonical form. -/
def Memory.write : Memory → Nat → Byte → Memory
  | [], a, v => [(a, v)]
  | (b, w) :: m, a, v =>
    if a < b then (a, v) :: (b, w) :: m
    else if a = b then (a, v) :: m
    else (b, w) :: Memory.write m a v

/-- The bytes that a list of left-over stores holds for one address, in the list's order. -/
def cellsAt (cells : List Host.Cell) (a : Nat) : List Byte :=
  cells.filterMap fun cell => if cell.1 = a then some cell.2 else none

/-! ### The ports -/

/-- Port `p` exists: `p < NPORTS` (R42). -/
def State.hasPort (s : State) (p : PortId) : Bool := s.ports[p.val]?.isSome

/-- Port `p` (a port in its reset state where there is none). -/
def State.port (s : State) (p : PortId) : Port := s.ports[p.val]?.getD Port.reset

/-- Replace port `p`. -/
def State.setPort (s : State) (p : PortId) (q : Port) : State := { s with ports := s.ports.set p.val q }

/-- The address of the pixel byte a SEND on port `p` reads next: BASE_p + I_p on naturals, with no wrap-around (R52). -/
def Port.pixelAddr (q : Port) : Nat := q.base.toNat + q.i.toNat

/-- MemRead (R51): the bytes that the read of one address by port `p`'s SEND may return, none when the read is not admitted.
The newest byte comes first; after it come the bytes that were there when a store made since the SEND's acceptance replaced them
(R61, R145: "may or may not be seen"). -/
def State.memReads (s : State) (q : Port) (a : Nat) : List Byte :=
  match s.mem.read a with
  | none => []
  | some v => v :: cellsAt q.stale a

/-- What port `q` remembers of a host store to `a` that replaces the byte `old`: that byte, while a SEND is in progress (R61). -/
def Port.rememberStale (a : Nat) (old : Byte) (q : Port) : Port :=
  if q.op = some .send then { q with stale := (a, old) :: q.stale } else q

/-- A host store of one byte to host memory (R17). Which bytes exist is fixed by the platform's launch memory (R51), so a store to a
byte that is not there changes nothing LEDTX can read, and a SEND stuck on such a byte stays stuck (R103). -/
def State.memStore (s : State) (addr : Word) (v : Byte) : State :=
  match s.mem.read addr.toNat with
  | none => s
  | some old =>
    { s with mem := s.mem.write addr.toNat v, ports := s.ports.map (Port.rememberStale addr.toNat old) }

/-- The platform's launch memory (R51): the bytes that are there, put in from outside before a run. No step does this. -/
def State.launch (s : State) (cells : List (Word × Byte)) : State :=
  { s with mem := cells.foldl (fun m cell => Memory.write m cell.1.toNat cell.2) s.mem }

/-! ### TXBUF -/

/-- TxRead (R53). -/
def txRead (buf : List Byte) (i : Nat) : Option Byte := buf[i]?

/-- TxWrite (R53): none when the index is not one of TXBUF. -/
def txWrite (buf : List Byte) (i : Nat) (v : Byte) : Option (List Byte) :=
  if i < buf.length then some (buf.set i v) else none

/-- TxWrite of consecutive bytes, in increasing order of the index. -/
def txWriteAll (buf : List Byte) (i : Nat) : List Byte → Option (List Byte)
  | [] => some buf
  | v :: vs =>
    match txWrite buf i v with
    | none => none
    | some buf' => txWriteAll buf' (i + 1) vs

/-- A step that writes TXBUF: the rest of its effect, `s`, with the new buffer, or the fault of an index out of range. -/
def State.withTx (s : State) (buf : Option (List Byte)) : Out :=
  match buf with
  | none => .fault .txIndexOutOfRange
  | some b => .next { s with txbuf := b }

/-! ### The wire log (R38) -/

/-- Change the last frame of a list of frames. -/
def onLastFrame (f : Frame → Frame) : List Frame → List Frame
  | [] => []
  | [x] => [f x]
  | x :: y :: xs => x :: onLastFrame f (y :: xs)

/-- `open_frame()`. -/
def Wire.openFrame (w : Wire) : Wire := ⟨w.frames ++ [⟨[], false⟩], true⟩

/-- `emit(b)`. -/
def Wire.emit (w : Wire) (b : Byte) : Wire :=
  { w with frames := onLastFrame (fun f => { f with bytes := f.bytes ++ [b] }) w.frames }

/-- `close_frame()`. -/
def Wire.closeFrame (w : Wire) : Wire := { w with isOpen := false }

/-- R137: what a reset does to WIRE. -/
def Wire.resetClose (w : Wire) : Wire :=
  if w.isOpen then ⟨onLastFrame (fun f => { f with truncated := true }) w.frames, false⟩ else w

/-- R21, R56: the bits of a byte as the serial line carries them, most significant first. -/
def lineBitsOfByte (b : Byte) : List Bool := (List.range 8).map fun k => b.getLsbD (7 - k)

/-- R21, R56: the bits of a frame on the serial line. -/
def Frame.lineBits (f : Frame) : List Bool := f.bytes.flatMap lineBitsOfByte

/-! ### Outcomes of a command and of a host access -/

/-- `finish(p, r)` (R91). -/
def Port.finish (r : Result) (q : Port) : Port :=
  { q with result := r, done := true, active := false, phase := .idle, op := none }

/-- `fatal(p)` (R96). -/
def Port.goFatal (q : Port) : Port := { q with fatal := true, active := false, done := false, phase := .fatal }

/-- R92: a dropped command sets OVR and does nothing else. -/
def Port.drop (q : Port) : Port := { q with ovr := true }

/-- R90: a port takes a command when it is neither ACTIVE nor FATAL. -/
def Port.accepts (q : Port) : Bool := !q.active && !q.fatal

/-- R90: what acceptance does to STATUS_p before the word is decoded. -/
def Port.beginCommand (q : Port) : Port := { q with ovr := false, done := false }

/-- R90: acceptance of a command, after the word is decoded. A SEND latches its pixel address; from here on it may be that a host store
is not seen by it (R61), so what earlier stores left behind is forgotten. -/
def Port.acceptOp (op : Op) (n : Half) (q : Port) : Port :=
  match op with
  | .setlen => { q with op := some .setlen, nreq := n, active := true, phase := .lockWait }
  | .send =>
    { q with op := some .send, nreq := n, base := q.pixBase, stale := [], active := true, phase := .lockWait }

/-- `refuse(reason)` (R14, R125) of an access of the host context `h`: the mark is added and every earlier one kept; nothing else
changes. -/
def State.refuse (s : State) (h : HostId) (a : HostAccess) : State :=
  { s with refusals := s.refusals ++ [⟨h, a⟩] }

/-- R125: "the host agent takes no further step" once an access of its has been refused. R16 counts one Host agent per host context, and
the model reads R125 of the context whose access was refused: that context stops, the others go on (DESIGN CHOICE, log entry 21). -/
def State.hostRuns (s : State) (h : HostId) : Bool := s.refusals.all fun r => decide (r.host ≠ h)

/-- R35, R95: give the lock to `p`. -/
def State.takeLock (s : State) (p : PortId) : State := { s with lockOwner := some p }

/-- R35: free the lock. -/
def State.freeLock (s : State) : State := { s with lockOwner := none }

/-- R106: consume the completion event. -/
def State.clearEvt (s : State) : State := { s with evt := false }

end Sys2Proof.Machine
end

