-- ==== Sys2Proof/Machine/Flags.lean ====
section
/-! DEFINITION. The codes of the encoded fields (R27, R28, R35, R36) and the two flag words, STATUS_p (R26) and HWSTAT (R43). Both
words are views of State, which holds each field once. -/

namespace Sys2Proof.Machine

/-- R27. -/
def Phase.code : Phase → BitVec 4
  | .idle => 0#4
  | .lockWait => 1#4
  | .check => 2#4
  | .poll => 3#4
  | .fill => 4#4
  | .tail => 5#4
  | .kick => 6#4
  | .evtWait => 7#4
  | .slSet => 8#4
  | .slWrite => 9#4
  | .fatal => 15#4

/-- R28. -/
def Result.code : Result → BitVec 3
  | .ok => 0#3
  | .errTimeout => 1#3
  | .errInvalid => 2#3
  | .errBusy => 3#3
  | .errIllegal => 4#3

/-- R36. -/
def DmaState.code : DmaState → BitVec 2
  | .idle => 0#2
  | .run => 1#2
  | .drain => 2#2

/-- R35: the port, or 0xF when the lock is free. -/
def lockCode : Option PortId → BitVec 4
  | none => 0xF#4
  | some p => BitVec.ofNat 4 p.val

/-- STATUS_p (R26), from bit 31 down: 20 zeros, PHASE, a zero, FATAL, OVR, RESULT, DONE, ACTIVE. -/
def Port.statusWord (q : Port) : Word :=
  (0#20 ++ q.phase.code ++ 0#1 ++ BitVec.ofBool q.fatal ++ BitVec.ofBool q.ovr ++ q.result.code ++ BitVec.ofBool q.done ++
    BitVec.ofBool q.active : BitVec (20 + 4 + 1 + 1 + 1 + 3 + 1 + 1))

/-- HWSTAT (R43), from bit 31 down: 20 zeros, LOCK_OWNER, two zeros, DMA_STATE, INIT, IRQ_PEND, EVT, BUSY. -/
def State.hwstatWord (s : State) : Word :=
  (0#20 ++ lockCode s.lockOwner ++ 0#2 ++ s.dmaState.code ++ BitVec.ofBool s.init ++ BitVec.ofBool s.irqPend ++
    BitVec.ofBool s.evt ++ BitVec.ofBool s.busy : BitVec (20 + 4 + 2 + 2 + 1 + 1 + 1 + 1))

/-- The phases in which a port holds the buffer lock (R39 d). -/
def Phase.holdsLock : Phase → Bool
  | .check | .poll | .fill | .tail | .kick | .slSet | .slWrite => true
  | .idle | .lockWait | .evtWait | .fatal => false

/-- The phases of a port with a command in progress (R39 e). -/
def Phase.isActive : Phase → Bool
  | .idle | .fatal => false
  | .lockWait | .check | .poll | .fill | .tail | .kick | .evtWait | .slSet | .slWrite => true

end Sys2Proof.Machine
end

