-- ==== Sys2Proof/Machine/Operands.lean ====
section
/-! DEFINITION. The register space (R42, R45, R54, R60) and the counts a command works with (R97, R100). -/

namespace Sys2Proof.Machine

/-- The registers of R42. -/
inductive Reg where
  | cmd (p : PortId)
  | pixBase (p : PortId)
  | delay (p : PortId)
  | status (p : PortId)
  | lenCfg
  | hwstat
  | dmaPos
  | dmaLen
  | param0
  | param1
  | param2
deriving DecidableEq, Repr

/-- R42: the offset of a register from BLK_BASE. -/
def Reg.offset : Reg → Nat
  | .cmd p => 0x20 * p.val
  | .pixBase p => 0x20 * p.val + 0x04
  | .delay p => 0x20 * p.val + 0x08
  | .status p => 0x20 * p.val + 0x0C
  | .lenCfg => 0x200
  | .hwstat => 0x204
  | .dmaPos => 0x208
  | .dmaLen => 0x20C
  | .param0 => 0x210
  | .param1 => 0x214
  | .param2 => 0x218

/-- R42: the register of port `p` at an offset inside the port's block. -/
def portReg (p : PortId) (sub : Nat) : Option Reg :=
  if sub = 0x00 then some (.cmd p)
  else if sub = 0x04 then some (.pixBase p)
  else if sub = 0x08 then some (.delay p)
  else if sub = 0x0C then some (.status p)
  else none

/-- R42: the shared register at an offset. -/
def sharedReg (off : Nat) : Option Reg :=
  if off = 0x200 then some .lenCfg
  else if off = 0x204 then some .hwstat
  else if off = 0x208 then some .dmaPos
  else if off = 0x20C then some .dmaLen
  else if off = 0x210 then some .param0
  else if off = 0x214 then some .param1
  else if off = 0x218 then some .param2
  else none

/-- R42: the register at an offset, for the largest NPORTS; `Reg.present` asks whether the port is there. -/
def Reg.ofOffset (off : Nat) : Option Reg :=
  if h : off / 0x20 < 15 then portReg ⟨off / 0x20, h⟩ (off % 0x20) else sharedReg off

/-- The port a register belongs to. -/
def Reg.port? : Reg → Option PortId
  | .cmd p | .pixBase p | .delay p | .status p => some p
  | .lenCfg | .hwstat | .dmaPos | .dmaLen | .param0 | .param1 | .param2 => none

/-- R42: the blocks of ports `p >= NPORTS` are unmapped. -/
def Reg.present (s : State) (r : Reg) : Bool :=
  match r.port? with
  | some p => s.hasPort p
  | none => true

/-- R60: the host address of a register. No step reads it: a host access is given by its offset (R72). -/
def Reg.address (c : Config) (r : Reg) : Nat := c.blkBase.toNat + r.offset

/-- R54: the register a host access reaches, when it is a 32-bit access at a 4-aligned mapped offset. -/
def HostAccess.target (s : State) (a : HostAccess) : Option Reg :=
  if a.width = 32 ∧ a.off % 4 = 0 then
    match Reg.ofOffset a.off with
    | some r => if r.present s then some r else none
    | none => none
  else none

/-- PARAM0 (R44). -/
def param0Word (c : Config) : Word := c.gapBytes ++ BitVec.ofNat 16 c.maxLeds

/-- PARAM1 (R44). -/
def param1Word (c : Config) : Word := c.pat.p3 ++ c.pat.p2 ++ c.pat.p1 ++ c.pat.p0

/-- PARAM2 (R44). -/
def param2Word (c : Config) : Word := 0#28 ++ BitVec.ofNat 4 c.nports

/-- R42, R45: the value of a register a host may read; CMD_p is write-only. -/
def readReg (c : Config) (s : State) : Reg → Option Word
  | .cmd _ => none
  | .pixBase p => some (s.port p).pixBase
  | .delay p => some (s.port p).delay
  | .status p => some (s.port p).statusWord
  | .lenCfg => some (s.lenCfg.setWidth 32)
  | .hwstat => some s.hwstatWord
  | .dmaPos => some s.dmaPos
  | .dmaLen => some s.dmaLen
  | .param0 => some (param0Word c)
  | .param1 => some (param1Word c)
  | .param2 => some (param2Word c)

/-- R97: `min(NREQ_p, MAX_LEDS)`. -/
def setlenCount (c : Config) (nreq : Half) : Half := BitVec.ofNat 16 (min nreq.toNat c.maxLeds)

/-- R100: `min(NREQ_p, LEN_CFG)`. -/
def sendCount (nreq lenCfg : Half) : Half := if nreq.toNat ≤ lenCfg.toNat then nreq else lenCfg

end Sys2Proof.Machine
end

