-- ==== Sys2Proof/Machine/Commands.lean ====
section
/-! DEFINITION. The two commands and the illegal command word: what a write of CMD_p does (R90, R92, R93). What an accepted command
then does, step by step, is the port sequencer's (Machine/Sequencer.lean). -/

namespace Sys2Proof.Machine

/-- A write of the word `w` to CMD_p (R90, R92): refused where there is no such port (R42, R125; a command names no host context, so the
mark is context 0's, log entry 19); dropped while the port is ACTIVE or
FATAL; otherwise the port's status is prepared and `accept` says what the decoded word does to the port. -/
def writeCommand (p : PortId) (w : Word) (accept : Port → Port) (s : State) : State :=
  if s.hasPort p then
    if (s.port p).accepts then s.setPort p (accept (s.port p).beginCommand)
    else s.setPort p (s.port p).drop
  else s.refuse 0 ⟨.write, (Reg.cmd p).offset, 32, w⟩

/-- SETLEN p, n (R90, R94): accepted, the port goes to LOCK_WAIT with the requested length. -/
def execSetlen (p : PortId) (n : Half) (s : State) : Out :=
  .next (writeCommand p (encode (.setlen p n)) (Port.acceptOp .setlen n) s)

/-- SEND p, n (R90, R99): accepted, the port goes to LOCK_WAIT with the requested count and the latched pixel address. -/
def execSend (p : PortId) (n : Half) (s : State) : Out :=
  .next (writeCommand p (encode (.send p n)) (Port.acceptOp .send n) s)

/-- A reserved command word (R93): it ends at once with ERR_ILLEGAL. -/
def illegalCommand (p : PortId) (w : Word) (s : State) : Out :=
  .next (writeCommand p w (Port.finish .errIllegal) s)

end Sys2Proof.Machine
end

