-- ==== Sys2Proof/Machine/Dispatch.lean ====
section
/-! DEFINITION. The commands and their meanings. -/

namespace Sys2Proof.Machine

def exec (i : Instr) (s : State) : Host.Outcome State Fault Refusal :=
  match i with
  | .setlen p n => Sys2Proof.Machine.execSetlen p n s
  | .send p n => Sys2Proof.Machine.execSend p n s

end Sys2Proof.Machine
end

