-- ==== Sys2Proof/Machine/Bus.lean ====
section
/-! DEFINITION. The host's register accesses (R45, R54, R72, R125), and the host notation of R73. -/

namespace Sys2Proof.Machine

/-- A write of CMD_p (R90, R92): a word written to a port that takes no command is not decoded; any other is decoded, and the command it
stands for is executed. -/
def writeCmdReg (p : PortId) (w : Word) (s : State) : Out :=
  if (s.port p).accepts then
    match decode p w with
    | .command i => exec i s
    | .illegal _ => illegalCommand p w s
  else .next (s.setPort p (s.port p).drop)

/-- RegRead (R45, R54, R111) by the host context `h`: the host sees the value; nothing of the block changes. -/
def regRead (c : Config) (h : HostId) (a : HostAccess) (s : State) : State :=
  match a.target s with
  | none => s.refuse h a
  | some r =>
    match readReg c s r with
    | none => s.refuse h a
    | some v => { s with reads := s.reads ++ [⟨h, a.off, v⟩] }

/-- RegWrite (R45, R54) by the host context `h`: CMD_p, PIX_BASE_p (R24, R110) and DELAY_p (R25, R110) take a write, the others refuse it. -/
def regWrite (h : HostId) (a : HostAccess) (s : State) : Out :=
  match a.target s with
  | some (.cmd p) => writeCmdReg p a.value s
  | some (.pixBase p) => .next (s.setPort p { s.port p with pixBase := a.value })
  | some (.delay p) => .next (s.setPort p { s.port p with delay := a.value })
  | some (.status _) | some .lenCfg | some .hwstat | some .dmaPos | some .dmaLen | some .param0 | some .param1 | some .param2
  | none => .next (s.refuse h a)

/-- One access of the host context `h` (R54). -/
def hostAccess (c : Config) (h : HostId) (a : HostAccess) (s : State) : Out :=
  match a.kind with
  | .read => .next (regRead c h a s)
  | .write => regWrite h a s

/-! ### The notation of R73, by the host context `h` -/

/-- `RD off`. -/
def rdAt (h : HostId) (off : Nat) : Action := .host h ⟨.read, off, 32, 0#32⟩

/-- `WR off, v`. -/
def wrAt (h : HostId) (off : Nat) (v : Word) : Action := .host h ⟨.write, off, 32, v⟩

/-- `RD REG`. -/
def rd (h : HostId) (r : Reg) : Action := rdAt h r.offset

/-- `WR REG, v`. -/
def wr (h : HostId) (r : Reg) (v : Word) : Action := wrAt h r.offset v

/-- `SETLEN p, n` and `SEND p, n`. -/
def issue (h : HostId) (i : Instr) : Action := wr h (.cmd i.port) (encode i)

/-- `WAITDONE p` ends on a read of STATUS_p with bit 1 (DONE) or bit 6 (FATAL) set. -/
def waitDoneEnds (status : Word) : Bool := status.getLsbD 1 || status.getLsbD 6

/-- `SENDF p, base, n` up to its WAITDONE. -/
def sendF (h : HostId) (p : PortId) (base : Word) (n : Half) : List Action := [wr h (.pixBase p) base, issue h (.send p n)]

/-- `SENDFD p, base, n, d` up to its WAITDONE. -/
def sendFD (h : HostId) (p : PortId) (base : Word) (n : Half) (d : Word) : List Action :=
  [wr h (.pixBase p) base, wr h (.delay p) d, issue h (.send p n)]

end Sys2Proof.Machine
end

