-- ==== Sys2Proof/Machine/Dma.lean ====
section
/-! DEFINITION. The steps of the DMA engine (R112 to R114), of the completion handler (R115), and the reset event (R137). -/

namespace Sys2Proof.Machine

/-- DMA_EMIT (R112). -/
def dmaEmit (s : State) : Out :=
  match txRead s.txbuf s.dmaPos.toNat with
  | none => .fault .txIndexOutOfRange
  | some b => .next { s with wire := s.wire.emit b, dmaPos := s.dmaPos + 1#32 }

/-- DMA_END (R113). -/
def dmaEnd (s : State) : State := { s with wire := s.wire.closeFrame, irqPend := true, dmaState := .drain }

/-- DMA_IDLE (R114). -/
def dmaIdle (s : State) : State := { s with busy := false, dmaState := .idle }

/-- CH_TAKE (R115). It takes no lock, saves nothing and goes nowhere (R128), and its one step is its return (R129). -/
def chTake (s : State) : State := { s with irqPend := false, evt := true }

/-- The reset event (R137): every element of R22 takes its value of R48, TXBUF is drawn anew, an open frame is closed and marked
truncated, no frame is removed, and host memory stays. The refusal marks are cleared (R20), and what the host has read stays read. -/
def resetEvent (c : Config) (s : State) : State :=
  { State.resetWith c with
    txbuf := txbufAtReset c s.draws, draws := s.draws + 1, wire := s.wire.resetClose
    reads := s.reads, mem := s.mem, sched := s.sched }

end Sys2Proof.Machine
end

