-- ==== Sys2Proof/Machine/Datapath.lean ====
section
/-! DEFINITION. The datapath (R83 to R87) and the test-only decoder (R89). Every operation is a pure function: it reads and writes no
state and no flag. -/

namespace Sys2Proof.Machine

/-- CONVERT (R83, R84): the converter parameter, with nothing applied before or after it. -/
def convert (c : Config) (hue sat val : Byte) : Rgb := c.hsv2rgb hue sat val

/-- PAT[s] (R85). -/
def patternOf (t : Patterns) (slice : BitVec 2) : Byte :=
  if slice = 0#2 then t.p0 else if slice = 1#2 then t.p1 else if slice = 2#2 then t.p2 else t.p3

/-- ENC_BYTE (R86): the four slices, most significant first. -/
def encByte (t : Patterns) (x : Byte) : List Byte :=
  [patternOf t (x.extractLsb' 6 2), patternOf t (x.extractLsb' 4 2), patternOf t (x.extractLsb' 2 2),
   patternOf t (x.extractLsb' 0 2)]

/-- ENC_PIXEL (R87): green, then red, then blue. -/
def encPixel (t : Patterns) (x : Rgb) : List Byte := encByte t x.g ++ encByte t x.r ++ encByte t x.b

/-- `sl(c)` (R89): the slice value whose pattern is `c`. -/
def sliceOf (t : Patterns) (c : Byte) : Option Nat :=
  if c = t.p0 then some 0
  else if c = t.p1 then some 1
  else if c = t.p2 then some 2
  else if c = t.p3 then some 3
  else none

/-- DEC_BYTE (R89): test-only, not part of the hardware; none where R89 calls it undefined. -/
def decByte (t : Patterns) : List Byte → Option Byte
  | [c0, c1, c2, c3] =>
    match sliceOf t c0, sliceOf t c1, sliceOf t c2, sliceOf t c3 with
    | some a, some b, some c, some d => some (BitVec.ofNat 8 (a * 64 + b * 16 + c * 4 + d))
    | _, _, _, _ => none
  | _ => none

end Sys2Proof.Machine
end

