-- ==== Sys2Proof/Machine/Sequencer.lean ====
section
/-! DEFINITION. The steps of the port sequencers (R95 to R107). Each is the body of the spec's step of that name; its guard stands in
Machine/Schedule.lean. -/

namespace Sys2Proof.Machine

/-- LOCK_ACQ (R95). -/
def lockAcq (p : PortId) (s : State) : State :=
  (s.takeLock p).setPort p
    { s.port p with phase := if (s.port p).op = some .send then .check else .slSet }

/-- LOCK_TIMEOUT (R96). -/
def lockTimeout (p : PortId) (s : State) : State := s.setPort p (s.port p).goFatal

/-- SL_SET (R97). -/
def slSet (c : Config) (p : PortId) (s : State) : State :=
  let len := setlenCount c (s.port p).nreq
  let q := { s.port p with j := 0#32 }
  let s' := { s with lenCfg := len, init := true }
  if c.frameLen len = 0 then s'.freeLock.setPort p (q.finish .ok)
  else s'.setPort p { q with phase := .slWrite }

/-- SL_WRITE (R98). -/
def slWrite (c : Config) (p : PortId) (s : State) : Out :=
  let q := { s.port p with j := (s.port p).j + 1#32 }
  let s' := if q.j.toNat = c.frameLen s.lenCfg then s.freeLock.setPort p (q.finish .ok) else s.setPort p q
  s'.withTx (txWrite s.txbuf (s.port p).j.toNat 0#8)

/-- CHECK (R100). -/
def check (p : PortId) (s : State) : State :=
  if s.init then
    s.setPort p { s.port p with n := sendCount (s.port p).nreq s.lenCfg, i := 0#32, phase := .poll }
  else s.freeLock.setPort p ((s.port p).finish .errInvalid)

/-- POLL (R101). -/
def poll (p : PortId) (s : State) : State :=
  s.setPort p { s.port p with phase := if (s.port p).n = 0#16 then .tail else .fill }

/-- POLL_GIVEUP (R102). -/
def pollGiveup (p : PortId) (s : State) : State := s.freeLock.setPort p ((s.port p).finish .errBusy)

/-- FILL (R103): what the step does to the port when it has read the byte `v`. -/
def Port.afterFill (q : Port) (v : Byte) : Port :=
  { q with
    pxH := if q.i.toNat % 3 = 0 then v else q.pxH
    pxS := if q.i.toNat % 3 = 1 then v else q.pxS
    i := q.i + 1#32
    phase := if (q.i + 1#32).toNat = 3 * q.n.toNat then .tail else q.phase }

/-- FILL (R103): what the step does to TXBUF when it has read the byte `v`. -/
def fillTx (c : Config) (q : Port) (v : Byte) (buf : List Byte) : Option (List Byte) :=
  if q.i.toNat % 3 = 2 then
    txWriteAll buf (12 * (q.i.toNat / 3)) (encPixel c.pat (convert c q.pxH q.pxS v))
  else some buf

/-- FILL (R103), for the byte that `sel` chooses among those the read may return. -/
def fill (c : Config) (p : PortId) (sel : Nat) (s : State) : Out :=
  match (s.memReads (s.port p) (s.port p).pixelAddr)[sel]? with
  | none => .next s
  | some v => (s.setPort p ((s.port p).afterFill v)).withTx (fillTx c (s.port p) v s.txbuf)

/-- TAIL (R104). -/
def tail (c : Config) (p : PortId) (s : State) : Out :=
  (s.setPort p { s.port p with phase := .kick }).withTx
    (txWriteAll s.txbuf (12 * (s.port p).n.toNat)
      (List.replicate (c.frameLen s.lenCfg - 12 * (s.port p).n.toNat) 0#8))

/-- KICK (R105). -/
def kick (c : Config) (p : PortId) (s : State) : State :=
  { s with
    dmaPos := 0#32, dmaLen := BitVec.ofNat 32 (c.frameLen s.lenCfg), dmaState := .run, busy := true
    wire := s.wire.openFrame, lockOwner := none
    ports := s.ports.set p.val { s.port p with phase := .evtWait } }

/-- EVT_TAKE (R106). -/
def evtTake (p : PortId) (s : State) : State := s.clearEvt.setPort p ((s.port p).finish .ok)

/-- EVT_TIMEOUT (R107). -/
def evtTimeout (p : PortId) (s : State) : State := s.setPort p ((s.port p).finish .errTimeout)

end Sys2Proof.Machine
end

