-- ==== Sys2Proof/Machine/Schedule.lean ====
section
/-! DEFINITION. Which step is enabled (R15), what it does, and which fires next (R119). -/

namespace Sys2Proof.Machine

/-- Port `p` exists and is in phase `ph`. -/
def inPhase (s : State) (p : PortId) (ph : Phase) : Bool := s.hasPort p && decide ((s.port p).phase = ph)

/-- The guards of the steps. A host context takes no step, access or store, once an access of its own has been refused (R125). Whether that
also stops the other host contexts, of which R16 counts one Host agent each, the spec leaves open: here they go on (DESIGN CHOICE, log
entry 21). Reset may come at any point (R137). -/
def enabled (s : State) : Action → Bool
  | .host h _ => s.hostRuns h
  | .memStore h _ _ => s.hostRuns h
  | .lockAcq p => inPhase s p .lockWait && s.lockOwner.isNone
  | .lockTimeout p => inPhase s p .lockWait && s.lockOwner.isSome
  | .slSet p => inPhase s p .slSet
  | .slWrite p => inPhase s p .slWrite
  | .check p => inPhase s p .check
  | .poll p => inPhase s p .poll && !s.busy
  | .pollGiveup p => inPhase s p .poll && s.busy
  | .fill p sel => inPhase s p .fill && decide (sel < (s.memReads (s.port p) (s.port p).pixelAddr).length)
  | .tail p => inPhase s p .tail
  | .kick p => inPhase s p .kick
  | .evtTake p => inPhase s p .evtWait && s.evt
  | .evtTimeout p => inPhase s p .evtWait && !s.evt
  | .dmaEmit => decide (s.dmaState = .run) && decide (s.dmaPos.toNat < s.dmaLen.toNat)
  | .dmaEnd => decide (s.dmaState = .run) && decide (s.dmaPos = s.dmaLen)
  | .dmaIdle => decide (s.dmaState = .drain)
  | .chTake => s.irqPend
  | .reset => true

/-- What a step does when it fires. -/
def effect (c : Config) (s : State) : Action → Out
  | .host h a => hostAccess c h a s
  | .memStore _ a v => .next (s.memStore a v)
  | .lockAcq p => .next (lockAcq p s)
  | .lockTimeout p => .next (lockTimeout p s)
  | .slSet p => .next (slSet c p s)
  | .slWrite p => slWrite c p s
  | .check p => .next (check p s)
  | .poll p => .next (poll p s)
  | .pollGiveup p => .next (pollGiveup p s)
  | .fill p sel => fill c p sel s
  | .tail p => tail c p s
  | .kick p => .next (kick c p s)
  | .evtTake p => .next (evtTake p s)
  | .evtTimeout p => .next (evtTimeout p s)
  | .dmaEmit => dmaEmit s
  | .dmaEnd => .next (dmaEnd s)
  | .dmaIdle => .next (dmaIdle s)
  | .chTake => .next (chTake s)
  | .reset => .next (resetEvent c s)

/-- A step that is not enabled does not fire: its agent holds and nothing changes (log entry 3). -/
def fire (c : Config) (a : Action) (s : State) : Out := if enabled s a then effect c s a else .next s

/-- The step chosen next (R119): the schedule's first, or a free choice where the schedule is empty. -/
def nextAction (s : State) : Action :=
  match s.sched with
  | a :: _ => a
  | [] => Config.freeAction s.draws

/-- The state with that choice used up. -/
def consume (s : State) : State :=
  match s.sched with
  | _ :: rest => { s with sched := rest }
  | [] => { s with draws := s.draws + 1 }

/-- One step of the machine with the configuration `c`. -/
def stepWith (c : Config) (s : State) : Out := fire c (nextAction s) (consume s)

/-- The state in which `a` is the step chosen next, before everything the schedule already holds. -/
def chosen (a : Action) (s : State) : State := { s with sched := a :: s.sched }

/-- Host context 0's write of a command word to CMD_0, as the next step, with the marks of that context taken away so that it runs. -/
def placeCommand (w : Word) (s : State) : State :=
  chosen (wr 0 (.cmd 0) w) { s with refusals := s.refusals.filter fun r => decide (r.host ≠ 0) }

end Sys2Proof.Machine
end

