-- ==== Sys2Proof/Machine/Step.lean ====
section
/-! DEFINITION. The step function, and how a word of the opcode table is placed so that the next step runs it. -/

namespace Sys2Proof.Machine

/-- One step: the chosen agent's step fires, or holds. -/
def step (s : State) : Host.Outcome State Fault Refusal := stepWith Config.chip s

/-- LEDTX fetches no program (R40, R64): a command arrives as a CMD write (R67). The host's write of this word to CMD_0 is placed as
the very next step. -/
def State.withFetchWord (s : State) (nbits w : Nat) : State := placeCommand (BitVec.ofNat 32 (w % 2 ^ nbits)) s

end Sys2Proof.Machine
end

