-- ==== Sys2Proof/Safety.lean ====
section
/-! DEFINITION. What a run of LEDTX is and what counts as a safe one: the invariants of R39 and those that keep them, the marks of R20,
the end of a run (R19), and weak fairness (R120). -/

namespace Sys2Proof.Machine

/-! ### The invariants of R39 -/

/-- R39 (a). -/
abbrev busyMatchesDma (s : State) : Prop := s.busy = true ↔ s.dmaState ≠ .idle

/-- R39 (b). -/
abbrev dmaInRange (c : Config) (s : State) : Prop :=
  s.dmaPos.toNat ≤ s.dmaLen.toNat ∧ s.dmaLen.toNat ≤ c.txbufSize

/-- R39 (c). -/
abbrev lengthBounded (c : Config) (s : State) : Prop := s.lenCfg.toNat ≤ c.maxLeds

/-- R39 (d), its first half: the owner is the port in a lock-holding phase. (A port that is not there counts as IDLE.) -/
abbrev lockMatchesPhase (s : State) : Prop :=
  ∀ p : PortId, s.lockOwner = some p ↔ (s.port p).phase.holdsLock = true

/-- R39 (d), its second half: at most one port is in a lock-holding phase. -/
abbrev lockExclusive (s : State) : Prop :=
  ∀ p q : PortId, (s.port p).phase.holdsLock = true → (s.port q).phase.holdsLock = true → p = q

/-- R39 (e). -/
abbrev activeMatchesPhase (s : State) : Prop :=
  ∀ p : PortId, (s.port p).active = true ↔ ((s.port p).phase ≠ .idle ∧ (s.port p).phase ≠ .fatal)

/-- R39 (f). -/
abbrev fatalMatchesPhase (s : State) : Prop :=
  ∀ p : PortId, (s.port p).fatal = true ↔ (s.port p).phase = .fatal

/-- R39, all six. -/
abbrev RuleInv (c : Config) (s : State) : Prop :=
  busyMatchesDma s ∧ dmaInRange c s ∧ lengthBounded c s ∧ lockMatchesPhase s ∧ lockExclusive s ∧ activeMatchesPhase s ∧
    fatalMatchesPhase s

/-! ### What else every step keeps -/

/-- The shape of the state: NPORTS ports (R134), TXBUF_SIZE bytes (R37), host memory in canonical form. -/
abbrev shapeOk (c : Config) (s : State) : Prop :=
  s.ports.length = c.nports ∧ s.txbuf.length = c.txbufSize ∧ Memory.wf s.mem = true

/-- A port that writes or is about to send TXBUF does so with the DMA engine idle (R104, R105). -/
abbrev fillsWhileIdle (s : State) : Prop :=
  ∀ p : PortId, ((s.port p).phase = .fill ∨ (s.port p).phase = .tail ∨ (s.port p).phase = .kick) → s.busy = false

/-- Past CHECK a SEND has a configured buffer and a clamped count (R100). -/
abbrev sendChecked (s : State) : Prop :=
  ∀ p : PortId,
    ((s.port p).phase = .poll ∨ (s.port p).phase = .fill ∨ (s.port p).phase = .tail ∨ (s.port p).phase = .kick) →
      s.init = true ∧ (s.port p).n.toNat ≤ s.lenCfg.toNat

/-- FILL has a byte left to read (R103), and POLL leaves it the first (R100). -/
abbrev fillHasByte (s : State) : Prop :=
  ∀ p : PortId, ((s.port p).phase = .poll → (s.port p).i = 0#32) ∧
    ((s.port p).phase = .fill → (s.port p).i.toNat < 3 * (s.port p).n.toNat)

/-- SL_WRITE has a byte left to write (R98). -/
abbrev slWriteHasByte (c : Config) (s : State) : Prop :=
  ∀ p : PortId, (s.port p).phase = .slWrite → (s.port p).j.toNat < c.frameLen s.lenCfg

/-- The commands in progress that fit a phase: none in IDLE, some command in LOCK_WAIT and FATAL, SETLEN or SEND in its own phases
(R91, R94, R99). -/
def Phase.fits (ph : Phase) (op : Option Op) : Bool :=
  match ph with
  | .idle => op.isNone
  | .lockWait | .fatal => op.isSome
  | .slSet | .slWrite => decide (op = some .setlen)
  | .check | .poll | .fill | .tail | .kick | .evtWait => decide (op = some .send)

/-- OP_p is that of the command whose phases the port goes through. -/
abbrev opMatchesPhase (s : State) : Prop := ∀ p : PortId, (s.port p).phase.fits (s.port p).op = true

/-- A command in progress, or a port in FATAL, shows DONE = 0 (R90, R96). -/
abbrev doneOnlyIdle (s : State) : Prop := ∀ p : PortId, (s.port p).done = true → (s.port p).phase = .idle

/-- A frame is open exactly while DMA_STATE is RUN, and then it has received DMA_POS bytes (R112, R113, R121). -/
abbrev wireMatchesDma (s : State) : Prop :=
  (s.wire.isOpen = true ↔ s.dmaState = .run) ∧
    (s.dmaState = .run →
      s.wire.frames.getLast?.map (fun f => (f.bytes.length, f.truncated)) = some (s.dmaPos.toNat, false))

/-- The invariant of the machine. -/
abbrev Inv (c : Config) (s : State) : Prop :=
  shapeOk c s ∧ RuleInv c s ∧ fillsWhileIdle s ∧ sendChecked s ∧ fillHasByte s ∧ slWriteHasByte c s ∧ opMatchesPhase s ∧
    doneOnlyIdle s ∧ wireMatchesDma s

/-! ### Runs -/

/-- R20: no port is FATAL and no refusal is recorded, the premise of a claim about a run. -/
def unmarked (s : State) : Prop := s.refusals = [] ∧ ∀ p : PortId, (s.port p).phase ≠ .fatal

/-- A step of the host, an access or a store (R16, R17). -/
def Action.ofHost : Action → Bool
  | .host _ _ | .memStore _ _ _ => true
  | .lockAcq _ | .lockTimeout _ | .slSet _ | .slWrite _ | .check _ | .poll _ | .pollGiveup _ | .fill _ _ | .tail _ | .kick _
  | .evtTake _ | .evtTimeout _ | .dmaEmit | .dmaEnd | .dmaIdle | .chTake | .reset => false

/-- A step of an agent of the block (R16), the steps R120 is about. -/
def Action.ofBlock : Action → Bool
  | .host _ _ | .memStore _ _ _ | .reset => false
  | .lockAcq _ | .lockTimeout _ | .slSet _ | .slWrite _ | .check _ | .poll _ | .pollGiveup _ | .fill _ _ | .tail _ | .kick _
  | .evtTake _ | .evtTimeout _ | .dmaEmit | .dmaEnd | .dmaIdle | .chTake => true

/-- What R19 asks of the block: every sequencer is in IDLE or FATAL, the DMA engine is idle, and no completion is pending. -/
def quiet (s : State) : Prop :=
  (∀ p : PortId, (s.port p).phase = .idle ∨ (s.port p).phase = .fatal) ∧ s.dmaState = .idle ∧ s.irqPend = false

/-- A run: in every state one agent's step is chosen (R119), and the next state is what that step leaves. `step` is one such choice, the
one State's schedule makes. -/
def IsRun (c : Config) (acts : Nat → Action) (r : Nat → State) : Prop :=
  ∀ k, fire c (acts k) (r k) = .next (r (k + 1))

/-- R19: the run has ended at its state `k`: the block is quiet, and from there on the host makes no further access (nor store): every
one chosen is of a context that has stopped (R125). What the host goes on to do is open in every state (R119), so the end is the run's and
not the state's (log entry 22). -/
def atEndOfRun (acts : Nat → Action) (r : Nat → State) (k : Nat) : Prop :=
  quiet (r k) ∧ ∀ m, k ≤ m → (acts m).ofHost = true → enabled (r m) (acts m) = false

/-- The kind of a step (R120): FILL is one kind, whichever byte the read returns. -/
def Action.kind : Action → Action
  | .fill p _ => .fill p 0
  | a => a

/-- R120: every step kind of every block agent that stays enabled from some point on fires. -/
def WeaklyFair (acts : Nat → Action) (r : Nat → State) : Prop :=
  ∀ a : Action, a.ofBlock = true →
    ∀ k, (∀ m, k ≤ m → enabled (r m) a.kind = true) →
      ∃ m, k ≤ m ∧ (acts m).kind = a.kind ∧ enabled (r m) (acts m) = true

end Sys2Proof.Machine
end

