-- ==== Sys2Proof/WellFormed.lean ====
section
/-! DEFINITION. Well-formed commands. -/

namespace Sys2Proof

/-- The one check: the port is one of the NPORTS ports (R90: `p < NPORTS`). Every count 0..65535 is legal (R69, R73), which
the type of the ARG field already says. -/
def Instr.wellFormed (c : Config) (i : Instr) : Bool := decide (i.port.val < c.nports)

end Sys2Proof
end

