-- ==== Sys2Proof/Certificates/Slice0/Obligations.lean ====
section
/-! DEFINITION. The statements for the provers. `step (chosen a s)` is the step in which the agent of `a` is chosen in the state `s`;
`Config.chip` is the hardware's configuration, about which nothing is known but the legal ranges of R6. -/

open Sys2Proof Sys2Proof.Machine

/-! ### The command word -/

/-- Words written out from R67 and R68 (the vectors of `95_test_vectors.md` 2.4) decode to the commands they stand for. -/
def Obligations.SampleCommandWordsDecode : Prop :=
  decode 0 0x00020001#32 = .command (.setlen 0 2#16) ∧ decode 1 0xFFFF0001#32 = .command (.setlen 1 0xFFFF#16) ∧
  decode 0 0x00010002#32 = .command (.send 0 1#16) ∧ decode 14 0x00000002#32 = .command (.send 14 0#16) ∧
  decode 0 0x00000000#32 = .illegal .reservedOp ∧ decode 0 0x0001000F#32 = .illegal .reservedOp ∧
  decode 0 0x00000012#32 = .illegal .reservedBits ∧ decode 0 0x00018001#32 = .illegal .reservedBits

/-- R70 and R71, said with the masks of the opcode table and the arithmetic value of the ARG field, for every word. -/
def Obligations.DecodeFollowsOpcodeTable : Prop :=
  ∀ (p : PortId) (w : Word),
    (w &&& 0x0000FFF0#32 ≠ 0#32 → decode p w = .illegal .reservedBits) ∧
    (w &&& 0x0000FFFF#32 = 0x00000001#32 → decode p w = .command (.setlen p (BitVec.ofNat 16 (w.toNat / 65536)))) ∧
    (w &&& 0x0000FFFF#32 = 0x00000002#32 → decode p w = .command (.send p (BitVec.ofNat 16 (w.toNat / 65536)))) ∧
    (w &&& 0x0000FFF0#32 = 0#32 → w &&& 0x0000000F#32 ≠ 1#32 → w &&& 0x0000000F#32 ≠ 2#32 →
      decode p w = .illegal .reservedOp)

/-- Decoding an encoded command gives it back, whatever its port and count; and a word that decodes to a command is that command's
encoding, so that no two words stand for one command. -/
def Obligations.DecodeEncodeAgree : Prop :=
  (∀ i : Instr, decode i.port (encode i) = .command i) ∧
  (∀ (p : PortId) (w : Word) (i : Instr), decode p w = .command i → encode i = w ∧ i.port = p)

/-- The register map (R42), its numbers: the four registers of each of the fifteen possible ports and the seven shared ones; each register
has one offset and each mapped offset one register, all of them 4-aligned. -/
def Obligations.RegisterMapIsOneToOne : Prop :=
  (∀ p : PortId,
    (Reg.cmd p).offset = 0x20 * p.val ∧ (Reg.pixBase p).offset = 0x20 * p.val + 0x04 ∧
    (Reg.delay p).offset = 0x20 * p.val + 0x08 ∧ (Reg.status p).offset = 0x20 * p.val + 0x0C) ∧
  (Reg.lenCfg.offset = 0x200 ∧ Reg.hwstat.offset = 0x204 ∧ Reg.dmaPos.offset = 0x208 ∧ Reg.dmaLen.offset = 0x20C ∧
    Reg.param0.offset = 0x210 ∧ Reg.param1.offset = 0x214 ∧ Reg.param2.offset = 0x218) ∧
  (∀ r : Reg, Reg.ofOffset r.offset = some r) ∧
  (∀ (off : Nat) (r : Reg), Reg.ofOffset off = some r → r.offset = off ∧ off % 4 = 0)

/-! ### Commands -/

/-- SETLEN completes its acceptance (R90, R94) on every port that takes a command: this is its next state. -/
def Obligations.SetlenIsAccepted : Prop :=
  ∀ (s : State) (p : PortId) (n : Half),
    s.hasPort p = true → (s.port p).active = false → (s.port p).fatal = false →
    Machine.exec (.setlen p n) s = .next (s.setPort p
      { s.port p with ovr := false, done := false, op := some .setlen, nreq := n, active := true, phase := .lockWait })

/-- SEND completes its acceptance (R90, R99) on every port that takes a command: this is its next state. The emptied `stale` is the
model's own bookkeeping (log entry 8). -/
def Obligations.SendIsAccepted : Prop :=
  ∀ (s : State) (p : PortId) (n : Half),
    s.hasPort p = true → (s.port p).active = false → (s.port p).fatal = false →
    Machine.exec (.send p n) s = .next (s.setPort p
      { s.port p with ovr := false, done := false, op := some .send, nreq := n, base := (s.port p).pixBase, stale := [],
                      active := true, phase := .lockWait })

/-- R90, R92 and R93, for every word a host context writes to CMD_p: what acceptance does, how a reserved word ends, and that a port in
progress or in FATAL drops the word whatever it is. The emptied `stale` of an accepted SEND is the model's own bookkeeping, no rule of the
spec (log entry 8). -/
def Obligations.CommandWriteAcceptsOrDrops : Prop :=
  ∀ (s : State) (h : HostId) (p : PortId) (w : Word), s.hostRuns h = true → s.hasPort p = true →
    ((s.port p).active = false → (s.port p).fatal = false →
      Machine.step (chosen (wr h (.cmd p) w) s) = .next (s.setPort p
        (match decode p w with
        | .command (.setlen _ n) =>
          { s.port p with ovr := false, done := false, op := some .setlen, nreq := n, active := true, phase := .lockWait }
        | .command (.send _ n) =>
          { s.port p with ovr := false, done := false, op := some .send, nreq := n, base := (s.port p).pixBase, stale := [],
                          active := true, phase := .lockWait }
        | .illegal _ =>
          { s.port p with ovr := false, done := true, result := .errIllegal, active := false, phase := .idle, op := none }))) ∧
    ((s.port p).active = true ∨ (s.port p).fatal = true →
      Machine.step (chosen (wr h (.cmd p) w) s) = .next (s.setPort p { s.port p with ovr := true }))

/-- R93: every reserved word (OP 0x0 or 0x3 to 0xF, or RSV nonzero) ends at once with ERR_ILLEGAL and changes the port's status
alone; STATUS_p then reads 0x12. -/
def Obligations.IllegalWordEndsAtOnce : Prop :=
  ∀ (s : State) (h : HostId) (p : PortId) (w : Word), s.hostRuns h = true → s.hasPort p = true →
    (s.port p).active = false → (s.port p).fatal = false →
    (w &&& 0x0000FFF0#32 ≠ 0#32 ∨ (w &&& 0x0000000F#32 ≠ 1#32 ∧ w &&& 0x0000000F#32 ≠ 2#32)) →
    ∃ q : Port,
      q = { s.port p with ovr := false, done := true, result := .errIllegal, active := false, phase := .idle, op := none } ∧
      Machine.step (chosen (wr h (.cmd p) w) s) = .next (s.setPort p q) ∧ q.statusWord = 0x00000012#32

/-- The frame of SETLEN and SEND: a command never stops the machine; on a port that exists it changes no other port, no shared
register or flag, no byte of TXBUF or host memory and nothing of the wire; of its own port it changes only STATUS_p, OP_p, NREQ_p and,
for an accepted SEND, BASE_p (and the model's own `stale`). -/
def Obligations.CommandFrame : Prop :=
  ∀ (i : Instr) (s : State), ∃ t : State, Machine.exec i s = .next t ∧
    (s.hasPort i.port = true →
      t = { s with ports := t.ports } ∧ t.ports.length = s.ports.length ∧
      (∀ q : PortId, q ≠ i.port → t.port q = s.port q) ∧
      (∀ k : Nat, txRead t.txbuf k = txRead s.txbuf k) ∧ (∀ k : Nat, t.mem.read k = s.mem.read k) ∧
      (t.port i.port).pixBase = (s.port i.port).pixBase ∧ (t.port i.port).delay = (s.port i.port).delay ∧
      (t.port i.port).result = (s.port i.port).result ∧ (t.port i.port).fatal = (s.port i.port).fatal ∧
      (t.port i.port).n = (s.port i.port).n ∧ (t.port i.port).i = (s.port i.port).i ∧
      (t.port i.port).pxH = (s.port i.port).pxH ∧ (t.port i.port).pxS = (s.port i.port).pxS ∧
      (t.port i.port).j = (s.port i.port).j ∧
      ((∃ n, i = .setlen i.port n) → (t.port i.port).base = (s.port i.port).base ∧ (t.port i.port).stale = (s.port i.port).stale))

/-- A step runs the decoded command: when the host's next access writes a word to CMD_p that decodes to a command, the step is that
command's meaning. Nothing is added around it: LEDTX has no program counter (R40). -/
def Obligations.StepRunsDecodedCommand : Prop :=
  ∀ (s : State) (h : HostId) (p : PortId) (w : Word) (i : Instr), s.hostRuns h = true → s.hasPort p = true →
    decode p w = .command i →
    Machine.step (chosen (wr h (.cmd p) w) s) = Machine.exec i s

/-! ### The buffer lock -/

/-- R95: LOCK_ACQ takes the free lock and goes to CHECK or SL_SET; while the lock is held the sequencer holds. -/
def Obligations.LockIsAcquiredWhenFree : Prop :=
  ∀ (s : State) (p : PortId), s.hasPort p = true → (s.port p).phase = .lockWait →
    (s.lockOwner = none →
      Machine.step (chosen (.lockAcq p) s) = .next (State.setPort { s with lockOwner := some p } p
        { s.port p with phase := if (s.port p).op = some .send then .check else .slSet })) ∧
    (s.lockOwner ≠ none → Machine.step (chosen (.lockAcq p) s) = .next s)

/-- R96, the step: a lock wait that times out, possible only while another holds the lock, sets FATAL, clears ACTIVE and DONE, and changes
nothing else. -/
def Obligations.LockTimeoutIsFatal : Prop :=
  ∀ (s : State) (p : PortId), s.hasPort p = true → (s.port p).phase = .lockWait →
    (s.lockOwner ≠ none →
      Machine.step (chosen (.lockTimeout p) s) =
        .next (s.setPort p { s.port p with fatal := true, active := false, done := false, phase := .fatal })) ∧
    (s.lockOwner = none → Machine.step (chosen (.lockTimeout p) s) = .next s)

/-- R20, R96, R147: a port in FATAL stays there, and keeps its flag, through every step but reset; and the refusal marks, in their
order, stay through every step but reset. -/
def Obligations.MarksLastUntilReset : Prop :=
  ∀ s t : State, Machine.step s = .next t → nextAction s ≠ .reset →
    (∀ p : PortId, (s.port p).phase = .fatal → (s.port p).fatal = true →
      (t.port p).phase = .fatal ∧ (t.port p).fatal = true) ∧
    s.refusals <+: t.refusals

/-! ### SETLEN's steps -/

/-- R97: SL_SET sets the clamped length and INIT, starts at index 0, and ends the command at once, with the lock released, when the frame
is empty. -/
def Obligations.SetLengthStep : Prop :=
  ∀ (s : State) (p : PortId), s.hasPort p = true → (s.port p).phase = .slSet →
    ∃ len : Half, len.toNat = min (s.port p).nreq.toNat Config.chip.maxLeds ∧
      Machine.step (chosen (.slSet p) s) =
        if 12 * len.toNat + Config.chip.resetBytes = 0 then
          .next (State.setPort { s with lenCfg := len, init := true, lockOwner := none } p
            { s.port p with j := 0#32, result := .ok, done := true, active := false, phase := .idle, op := none })
        else
          .next (State.setPort { s with lenCfg := len, init := true } p { s.port p with j := 0#32, phase := .slWrite })

/-- R98: SL_WRITE writes one zero byte at J_p and counts it; the last one releases the lock and ends the command with OK. (The premises
on J_p hold in every state that meets the invariant.) -/
def Obligations.IdlePatternStep : Prop :=
  ∀ (s : State) (p : PortId), s.hasPort p = true → (s.port p).phase = .slWrite →
    (s.port p).j.toNat < 12 * s.lenCfg.toNat + Config.chip.resetBytes → (s.port p).j.toNat < s.txbuf.length →
    Machine.step (chosen (.slWrite p) s) =
      if (s.port p).j.toNat + 1 = 12 * s.lenCfg.toNat + Config.chip.resetBytes then
        .next (State.setPort { s with txbuf := s.txbuf.set (s.port p).j.toNat 0#8, lockOwner := none } p
          { s.port p with j := (s.port p).j + 1#32, result := .ok, done := true, active := false, phase := .idle, op := none })
      else
        .next (State.setPort { s with txbuf := s.txbuf.set (s.port p).j.toNat 0#8 } p { s.port p with j := (s.port p).j + 1#32 })

/-! ### SEND's steps -/

/-- R100: CHECK ends a SEND before any SETLEN with ERR_INVALID and releases the lock; otherwise it clamps the count to LEN_CFG and goes to
POLL. -/
def Obligations.BufferCheckStep : Prop :=
  ∀ (s : State) (p : PortId), s.hasPort p = true → (s.port p).phase = .check →
    (s.init = false → Machine.step (chosen (.check p) s) = .next (State.setPort { s with lockOwner := none } p
      { s.port p with result := .errInvalid, done := true, active := false, phase := .idle, op := none })) ∧
    (s.init = true → ∃ n : Half, n.toNat = min (s.port p).nreq.toNat s.lenCfg.toNat ∧
      Machine.step (chosen (.check p) s) = .next (s.setPort p { s.port p with n := n, i := 0#32, phase := .poll }))

/-- R101: POLL leaves for FILL, or for TAIL when there is no pixel, once BUSY is 0; while BUSY is 1 it holds, and the lock with it. -/
def Obligations.BusyPollStep : Prop :=
  ∀ (s : State) (p : PortId), s.hasPort p = true → (s.port p).phase = .poll →
    (s.busy = false → Machine.step (chosen (.poll p) s) =
      .next (s.setPort p { s.port p with phase := if (s.port p).n.toNat = 0 then .tail else .fill })) ∧
    (s.busy = true → Machine.step (chosen (.poll p) s) = .next s)

/-- R102: the poll gives up, only while BUSY is 1, with ERR_BUSY and the lock released; TXBUF and everything else stay. -/
def Obligations.PollGiveupStep : Prop :=
  ∀ (s : State) (p : PortId), s.hasPort p = true → (s.port p).phase = .poll →
    (s.busy = true → Machine.step (chosen (.pollGiveup p) s) = .next (State.setPort { s with lockOwner := none } p
      { s.port p with result := .errBusy, done := true, active := false, phase := .idle, op := none })) ∧
    (s.busy = false → Machine.step (chosen (.pollGiveup p) s) = .next s)

/-- R103: FILL reads one byte that memory admits. A hue or saturation byte is kept in its latch; a value byte completes the pixel, whose 12
encoded bytes go to TXBUF at 12 times the pixel's index, and no other byte of TXBUF changes. (The premise on I_p holds in every state
that meets the invariant.) -/
def Obligations.FillStep : Prop :=
  ∀ (s : State) (p : PortId) (sel : Nat) (v : Byte) (q : Port) (k : Nat), q = s.port p → k = q.i.toNat →
    s.hasPort p = true → q.phase = .fill → k < 3 * q.n.toNat →
    (s.memReads q (q.base.toNat + k))[sel]? = some v →
    (k % 3 ≠ 2 → Machine.step (chosen (.fill p sel) s) = .next (s.setPort p
      { q with pxH := if k % 3 = 0 then v else q.pxH, pxS := if k % 3 = 1 then v else q.pxS, i := q.i + 1#32,
               phase := if k + 1 = 3 * q.n.toNat then .tail else .fill })) ∧
    (k % 3 = 2 → 12 * (k / 3) + 12 ≤ s.txbuf.length →
      ∃ buf : List Byte,
        Machine.step (chosen (.fill p sel) s) = .next (State.setPort { s with txbuf := buf } p
          { q with i := q.i + 1#32, phase := if k + 1 = 3 * q.n.toNat then .tail else .fill }) ∧
        buf.length = s.txbuf.length ∧
        (∀ j : Nat, j < 12 → buf[12 * (k / 3) + j]? =
          (encPixel Config.chip.pat (convert Config.chip q.pxH q.pxS v))[j]?) ∧
        (∀ m : Nat, m < 12 * (k / 3) ∨ 12 * (k / 3) + 12 ≤ m → buf[m]? = s.txbuf[m]?))

/-- R51, R103: a SEND whose next pixel byte cannot be read is stuck, holding the lock: through every step but reset it stays in FILL at the
same byte, which still cannot be read, and the lock stays its own. -/
def Obligations.UnreadablePixelLeavesPortStuck : Prop :=
  ∀ (s t : State) (p : PortId), Inv Config.chip s → (s.port p).phase = .fill →
    s.mem.read ((s.port p).base.toNat + (s.port p).i.toNat) = none →
    Machine.step s = .next t → nextAction s ≠ .reset →
    (t.port p).phase = .fill ∧ (t.port p).base = (s.port p).base ∧ (t.port p).i = (s.port p).i ∧
      t.mem.read ((t.port p).base.toNat + (t.port p).i.toNat) = none ∧ t.lockOwner = some p

/-- R104: TAIL writes zero to the indices from 12 * N_p up to FRAME_LEN(LEN_CFG) - 1 and to no other, and goes to KICK. -/
def Obligations.TailStep : Prop :=
  ∀ (s : State) (p : PortId), s.hasPort p = true → (s.port p).phase = .tail →
    12 * s.lenCfg.toNat + Config.chip.resetBytes ≤ s.txbuf.length →
    ∃ buf : List Byte,
      Machine.step (chosen (.tail p) s) = .next (State.setPort { s with txbuf := buf } p { s.port p with phase := .kick }) ∧
      buf.length = s.txbuf.length ∧
      (∀ k : Nat, 12 * (s.port p).n.toNat ≤ k → k < 12 * s.lenCfg.toNat + Config.chip.resetBytes → buf[k]? = some 0#8) ∧
      (∀ k : Nat, k < 12 * (s.port p).n.toNat ∨ 12 * s.lenCfg.toNat + Config.chip.resetBytes ≤ k → buf[k]? = s.txbuf[k]?)

/-- R105: KICK starts the transfer of FRAME_LEN(LEN_CFG) bytes, sets BUSY, opens a frame, releases the lock and goes to EVT_WAIT, in one
step; where the invariant holds, BUSY was 0 and the DMA engine idle. -/
def Obligations.KickStep : Prop :=
  ∀ (s : State) (p : PortId), s.hasPort p = true → (s.port p).phase = .kick →
    ∃ len : Word, len.toNat = 12 * s.lenCfg.toNat + Config.chip.resetBytes ∧
      Machine.step (chosen (.kick p) s) = .next (State.setPort { s with
        dmaPos := 0#32, dmaLen := len, dmaState := .run, busy := true, lockOwner := none
        wire := ⟨s.wire.frames ++ [⟨[], false⟩], true⟩ } p { s.port p with phase := .evtWait }) ∧
      (Inv Config.chip s → s.busy = false ∧ s.dmaState = .idle)

/-- R106: EVT_TAKE consumes the event and ends the SEND with OK; no other waiting port can take that event; while EVT is 0 it
holds. -/
def Obligations.EventTakeStep : Prop :=
  ∀ (s : State) (p : PortId), s.hasPort p = true → (s.port p).phase = .evtWait →
    (s.evt = true → ∃ t : State, Machine.step (chosen (.evtTake p) s) = .next t ∧
      t = State.setPort { s with evt := false } p
        { s.port p with result := .ok, done := true, active := false, phase := .idle, op := none } ∧
      ∀ q : PortId, Machine.step (chosen (.evtTake q) t) = .next t) ∧
    (s.evt = false → Machine.step (chosen (.evtTake p) s) = .next s)

/-- R107, R127: EVT_TIMEOUT ends the SEND with ERR_TIMEOUT and leaves the transfer running; with EVT = 1 a SEND cannot time out. -/
def Obligations.EventTimeoutStep : Prop :=
  ∀ (s : State) (p : PortId), s.hasPort p = true → (s.port p).phase = .evtWait →
    (s.evt = false → Machine.step (chosen (.evtTimeout p) s) = .next (s.setPort p
      { s.port p with result := .errTimeout, done := true, active := false, phase := .idle, op := none })) ∧
    (s.evt = true → Machine.step (chosen (.evtTimeout p) s) = .next s)

/-! ### The DMA engine, the completion handler and reset -/

/-- R112: DMA_EMIT appends the byte TXBUF holds at DMA_POS to the frame and counts it. -/
def Obligations.DmaEmitStep : Prop :=
  ∀ (s : State) (b : Byte) (fs : List Frame) (f : Frame), s.dmaState = .run → s.dmaPos.toNat < s.dmaLen.toNat →
    txRead s.txbuf s.dmaPos.toNat = some b → s.wire.frames = fs ++ [f] →
    Machine.step (chosen .dmaEmit s) = .next { s with
      dmaPos := s.dmaPos + 1#32, wire := ⟨fs ++ [⟨f.bytes ++ [b], f.truncated⟩], s.wire.isOpen⟩ }

/-- R113 to R116: DMA_END closes the frame and raises the interrupt with BUSY still 1; DMA_IDLE clears BUSY; CH_TAKE turns the pending
interrupt into the event and touches nothing else; both flags are binary. -/
def Obligations.TransferEndSteps : Prop :=
  ∀ s : State,
    (s.dmaState = .run → s.dmaPos = s.dmaLen →
      Machine.step (chosen .dmaEnd s) = .next { s with
        wire := ⟨s.wire.frames, false⟩, irqPend := true, dmaState := .drain }) ∧
    (s.dmaState = .drain → Machine.step (chosen .dmaIdle s) = .next { s with busy := false, dmaState := .idle }) ∧
    (s.irqPend = true → Machine.step (chosen .chTake s) = .next { s with irqPend := false, evt := true }) ∧
    (s.irqPend = false → Machine.step (chosen .chTake s) = .next s)

/-- R48, R137: reset, in any state: every register, latch and flag at its reset value, every port IDLE, an open frame closed and marked
truncated, no frame removed, host memory untouched. (That the refusal marks are cleared is the model's reading of R20, log entry 9.) -/
def Obligations.ResetStep : Prop :=
  ∀ s : State, ∃ t : State, Machine.step (chosen .reset s) = .next t ∧
    t.ports.length = Config.chip.nports ∧
    (∀ p : PortId, (t.port p).pixBase = 0#32 ∧ (t.port p).delay = 0#32 ∧ (t.port p).statusWord = 0#32 ∧
      (t.port p).op = none ∧ (t.port p).nreq = 0#16 ∧ (t.port p).base = 0#32 ∧ (t.port p).n = 0#16 ∧ (t.port p).i = 0#32 ∧
      (t.port p).pxH = 0#8 ∧ (t.port p).pxS = 0#8 ∧ (t.port p).j = 0#32) ∧
    t.lenCfg = 0#16 ∧ t.init = false ∧ t.busy = false ∧ t.evt = false ∧ t.irqPend = false ∧ t.lockOwner = none ∧
    t.dmaState = .idle ∧ t.dmaPos = 0#32 ∧ t.dmaLen = 0#32 ∧ t.hwstatWord = 0x00000F00#32 ∧
    t.txbuf.length = 12 * Config.chip.maxLeds + Config.chip.resetBytes ∧
    (s.wire.isOpen = false → t.wire = s.wire) ∧
    (∀ (fs : List Frame) (f : Frame), s.wire = ⟨fs ++ [f], true⟩ → t.wire = ⟨fs ++ [⟨f.bytes, true⟩], false⟩) ∧
    t.mem = s.mem ∧ t.reads = s.reads ∧ t.sched = s.sched ∧ t.refusals = []

/-! ### Host accesses -/

/-- R45, R54, R125: a host access that is not a 32-bit access at a 4-aligned offset of a register that is there and allows the access is
refused: its mark is added, nothing else changes, the host of that context takes no further step, and the block's agents are as enabled as
before. (That the other host contexts are as enabled as before is the model's choice, log entry 21.) -/
def Obligations.MeaninglessAccessIsRefused : Prop :=
  ∀ (s : State) (h : HostId) (a : HostAccess), s.hostRuns h = true →
    (a.width ≠ 32 ∨ a.off % 4 ≠ 0 ∨
      (∀ r : Reg, r.offset = a.off → r.present s = false) ∨
      (a.kind = .read ∧ ∃ p : PortId, a.off = (Reg.cmd p).offset) ∨
      (a.kind = .write ∧ ((∃ p : PortId, a.off = (Reg.status p).offset) ∨ 0x200 ≤ a.off))) →
    ∃ t : State, Machine.step (chosen (.host h a) s) = .next t ∧ t = { s with refusals := s.refusals ++ [⟨h, a⟩] } ∧
      (∀ b : HostAccess, Machine.step (chosen (.host h b) t) = .next t) ∧
      (∀ (x : Word) (v : Byte), Machine.step (chosen (.memStore h x v) t) = .next t) ∧
      (∀ b : Action, b.ofBlock = true → enabled t b = enabled s b) ∧
      (∀ (g : HostId) (b : HostAccess) (x : Word) (v : Byte), g ≠ h →
        enabled t (.host g b) = enabled s (.host g b) ∧ enabled t (.memStore g x v) = enabled s (.memStore g x v))

/-- R24, R25, R26, R42, R111: what a host's read of each register returns, at the register's offset, to that host (the observation `reads`),
and that the read changes no state. LEN_CFG is extended with zeros. (HWSTAT and the PARAM registers have statements of their own.) -/
def Obligations.RegisterReadReturnsValue : Prop :=
  ∀ (s : State) (h : HostId), s.hostRuns h = true →
    (∀ (p : PortId) (off : Nat), off = 0x20 * p.val → s.hasPort p = true →
      Machine.step (chosen (rdAt h (off + 0x04)) s) =
        .next { s with reads := s.reads ++ [⟨h, off + 0x04, (s.port p).pixBase⟩] } ∧
      Machine.step (chosen (rdAt h (off + 0x08)) s) =
        .next { s with reads := s.reads ++ [⟨h, off + 0x08, (s.port p).delay⟩] } ∧
      Machine.step (chosen (rdAt h (off + 0x0C)) s) =
        .next { s with reads := s.reads ++ [⟨h, off + 0x0C, (s.port p).statusWord⟩] }) ∧
    Machine.step (chosen (rdAt h 0x200) s) = .next { s with reads := s.reads ++ [⟨h, 0x200, s.lenCfg.setWidth 32⟩] } ∧
    Machine.step (chosen (rdAt h 0x208) s) = .next { s with reads := s.reads ++ [⟨h, 0x208, s.dmaPos⟩] } ∧
    Machine.step (chosen (rdAt h 0x20C) s) = .next { s with reads := s.reads ++ [⟨h, 0x20C, s.dmaLen⟩] }

/-- R111: a host read changes no state of the block, whatever it addresses; and DONE = 1 and RESULT hold through every step but a reset and
an accepted command on the same port. -/
def Obligations.ReadsChangeNothingAndResultsLast : Prop :=
  (∀ (s t : State) (h : HostId) (a : HostAccess), a.kind = .read → Machine.step (chosen (.host h a) s) = .next t →
    t = { s with reads := t.reads, refusals := t.refusals }) ∧
  (∀ (s t : State) (p : PortId), Inv Config.chip s → Machine.step s = .next t → (s.port p).done = true →
    nextAction s ≠ .reset → (∀ (h : HostId) (w : Word), nextAction s ≠ wr h (.cmd p) w) →
    (t.port p).done = true ∧ (t.port p).result = (s.port p).result)

/-- R110: a host write of PIX_BASE_p or DELAY_p takes effect in every phase and changes that register alone; the BASE_p of a SEND already
accepted stays. -/
def Obligations.OperandRegisterWrites : Prop :=
  ∀ (s : State) (h : HostId) (p : PortId) (v : Word), s.hostRuns h = true → s.hasPort p = true →
    Machine.step (chosen (wr h (.pixBase p) v) s) = .next (s.setPort p { s.port p with pixBase := v }) ∧
    Machine.step (chosen (wr h (.delay p) v) s) = .next (s.setPort p { s.port p with delay := v })

/-- R26, R27, R28: the fields of STATUS_p, with the codes of PHASE and RESULT. -/
def Obligations.StatusWordLayout : Prop :=
  ∀ q : Port,
    q.statusWord.getLsbD 0 = q.active ∧ q.statusWord.getLsbD 1 = q.done ∧
    (q.statusWord.extractLsb' 2 3).toNat =
      (match q.result with | .ok => 0 | .errTimeout => 1 | .errInvalid => 2 | .errBusy => 3 | .errIllegal => 4) ∧
    q.statusWord.getLsbD 5 = q.ovr ∧ q.statusWord.getLsbD 6 = q.fatal ∧ q.statusWord.getLsbD 7 = false ∧
    (q.statusWord.extractLsb' 8 4).toNat =
      (match q.phase with
      | .idle => 0 | .lockWait => 1 | .check => 2 | .poll => 3 | .fill => 4 | .tail => 5 | .kick => 6 | .evtWait => 7
      | .slSet => 8 | .slWrite => 9 | .fatal => 15) ∧
    q.statusWord.extractLsb' 12 20 = 0#20

/-- R43: HWSTAT is read at offset 0x204 with these fields. -/
def Obligations.HwstatLayout : Prop :=
  ∀ (s : State) (h : HostId), s.hostRuns h = true →
    ∃ v : Word, Machine.step (chosen (rdAt h 0x204) s) = .next { s with reads := s.reads ++ [⟨h, 0x204, v⟩] } ∧
      v.getLsbD 0 = s.busy ∧ v.getLsbD 1 = s.evt ∧ v.getLsbD 2 = s.irqPend ∧ v.getLsbD 3 = s.init ∧
      (v.extractLsb' 4 2).toNat = (match s.dmaState with | .idle => 0 | .run => 1 | .drain => 2) ∧
      v.extractLsb' 6 2 = 0#2 ∧
      (v.extractLsb' 8 4).toNat = (match s.lockOwner with | none => 15 | some p => p.val) ∧
      v.extractLsb' 12 20 = 0#20

/-- R44: the PARAM registers read the configuration at offsets 0x210, 0x214 and 0x218, in every state. -/
def Obligations.ParamRegisters : Prop :=
  ∀ (s : State) (h : HostId), s.hostRuns h = true →
    (∃ v : Word, Machine.step (chosen (rdAt h 0x210) s) = .next { s with reads := s.reads ++ [⟨h, 0x210, v⟩] } ∧
      v.toNat = Config.chip.resetBytes * 65536 + Config.chip.maxLeds) ∧
    (∃ v : Word, Machine.step (chosen (rdAt h 0x214) s) = .next { s with reads := s.reads ++ [⟨h, 0x214, v⟩] } ∧
      v.extractLsb' 0 8 = Config.chip.pat.p0 ∧ v.extractLsb' 8 8 = Config.chip.pat.p1 ∧
      v.extractLsb' 16 8 = Config.chip.pat.p2 ∧ v.extractLsb' 24 8 = Config.chip.pat.p3) ∧
    (∃ v : Word, Machine.step (chosen (rdAt h 0x218) s) = .next { s with reads := s.reads ++ [⟨h, 0x218, v⟩] } ∧
      v.toNat = Config.chip.nports ∧ 1 ≤ v.toNat ∧ v.toNat ≤ 15)

/-- R61: right after a SEND is accepted its reads return what memory holds; after a later store to a byte, the read of that byte by a
SEND still in progress may return the new byte or the old one. (Log entry 8.) -/
def Obligations.StoresAfterAcceptanceMayBeUnseen : Prop :=
  (∀ (s : State) (p : PortId) (n : Half) (a : Nat), s.hasPort p = true → (s.port p).accepts = true →
    ∃ t : State, Machine.exec (.send p n) s = .next t ∧ t.memReads (t.port p) a = (s.mem.read a).toList) ∧
  (∀ (s : State) (h : HostId) (p : PortId) (x : Word) (new old : Byte), s.hostRuns h = true → (s.port p).op = some .send →
    s.mem.read x.toNat = some old →
    ∃ t : State, Machine.step (chosen (.memStore h x new) s) = .next t ∧
      new ∈ t.memReads (t.port p) x.toNat ∧ old ∈ t.memReads (t.port p) x.toNat ∧
      (∀ y : Nat, y ≠ x.toNat → t.mem.read y = s.mem.read y))

/-! ### Rules of the whole machine -/

/-- An agent whose step is not enabled holds: nothing changes (R15; that a choice of such a step is a step of the model is log entry 3). -/
def Obligations.DisabledStepHolds : Prop :=
  ∀ (s : State) (a : Action), enabled s a = false → Machine.step (chosen a s) = .next s

/-- R41: which steps set and clear BUSY, EVT, IRQ_PEND, INIT, DONE, OVR and FATAL, over every step from every state that meets the
invariant. -/
def Obligations.FlagsChangeOnlyInTheirSteps : Prop :=
  ∀ s t : State, Inv Config.chip s → Machine.step s = .next t →
    (s.busy = false → t.busy = true → ∃ p, nextAction s = .kick p) ∧
    (s.busy = true → t.busy = false → nextAction s = .dmaIdle ∨ nextAction s = .reset) ∧
    (s.evt = false → t.evt = true → nextAction s = .chTake) ∧
    (s.evt = true → t.evt = false → (∃ p, nextAction s = .evtTake p) ∨ nextAction s = .reset) ∧
    (s.irqPend = false → t.irqPend = true → nextAction s = .dmaEnd) ∧
    (s.irqPend = true → t.irqPend = false → nextAction s = .chTake ∨ nextAction s = .reset) ∧
    (s.init = false → t.init = true → ∃ p, nextAction s = .slSet p) ∧
    (s.init = true → t.init = false → nextAction s = .reset) ∧
    (∀ p : PortId,
      ((s.port p).done = false → (t.port p).done = true →
        (∃ h w, nextAction s = wr h (.cmd p) w) ∨ nextAction s = .slSet p ∨ nextAction s = .slWrite p ∨ nextAction s = .check p ∨
          nextAction s = .pollGiveup p ∨ nextAction s = .evtTake p ∨ nextAction s = .evtTimeout p) ∧
      ((s.port p).done = true → (t.port p).done = false → (∃ h w, nextAction s = wr h (.cmd p) w) ∨ nextAction s = .reset) ∧
      ((s.port p).ovr = false → (t.port p).ovr = true → ∃ h w, nextAction s = wr h (.cmd p) w) ∧
      ((s.port p).ovr = true → (t.port p).ovr = false → (∃ h w, nextAction s = wr h (.cmd p) w) ∨ nextAction s = .reset) ∧
      ((s.port p).fatal = false → (t.port p).fatal = true → nextAction s = .lockTimeout p) ∧
      ((s.port p).fatal = true → (t.port p).fatal = false → nextAction s = .reset))

/-- R94, R99: the phases of a port follow the two commands' diagrams; no other change of phase happens but reset's. -/
def Obligations.PhasesFollowTheDiagrams : Prop :=
  ∀ (s t : State) (p : PortId), Inv Config.chip s → Machine.step s = .next t → (t.port p).phase ≠ (s.port p).phase →
    nextAction s = .reset ∨
    ((s.port p).phase, (t.port p).phase) ∈
      [(Phase.idle, Phase.lockWait), (.lockWait, .slSet), (.lockWait, .check), (.lockWait, .fatal), (.slSet, .slWrite),
       (.slSet, .idle), (.slWrite, .idle), (.check, .poll), (.check, .idle), (.poll, .fill), (.poll, .tail), (.poll, .idle),
       (.fill, .tail), (.tail, .kick), (.kick, .evtWait), (.evtWait, .idle)]

/-- R37, R53: TXBUF changes only in FILL, TAIL and SL_WRITE of the lock's owner (and is drawn anew at reset); its size never does. -/
def Obligations.TxbufWrittenOnlyUnderTheLock : Prop :=
  ∀ s t : State, Inv Config.chip s → Machine.step s = .next t →
    t.txbuf.length = s.txbuf.length ∧
    (t.txbuf ≠ s.txbuf → nextAction s = .reset ∨
      ∃ p : PortId, s.lockOwner = some p ∧
        ((∃ sel, nextAction s = .fill p sel) ∨ nextAction s = .tail p ∨ nextAction s = .slWrite p))

/-- R49, R52: LEDTX never writes host memory and reads it in FILL alone: with any other contents of host memory, every step but FILL (and
the host's own store) does the same. -/
def Obligations.HostMemoryReadOnlyByFill : Prop :=
  ∀ (s t : State) (a : Action) (m : Memory), (∀ h x v, a ≠ .memStore h x v) → Machine.step (chosen a s) = .next t →
    t.mem = s.mem ∧
    ((∀ p sel, a ≠ .fill p sel) → Machine.step (chosen a { s with mem := m }) = .next { t with mem := m })

/-- R38: no step reads WIRE: with any other wire log, every step leaves the same state but for the wire log. -/
def Obligations.WireIsReadByNoStep : Prop :=
  ∀ (s t : State) (a : Action) (w : Wire), Machine.step (chosen a s) = .next t →
    ∃ w' : Wire, Machine.step (chosen a { s with wire := w }) = .next { t with wire := w' }

/-- R109: DELAY_p is read by no step of the block, nor by any host access but one of DELAY_p itself: with any other value in DELAY_p, every
such step leaves the same state but for DELAY_p. -/
def Obligations.DelayIsReadByNoStep : Prop :=
  ∀ (s t : State) (a : Action) (p : PortId) (d : Word), a ≠ .reset →
    (∀ (h : HostId) (acc : HostAccess), a = .host h acc → acc.off ≠ (Reg.delay p).offset) →
    Machine.step (chosen a s) = .next t →
    (t.port p).delay = (s.port p).delay ∧
    Machine.step (chosen a (s.setPort p { s.port p with delay := d })) = .next (t.setPort p { t.port p with delay := d })

/-- R118: no step but reset stops a transfer before DMA_END, and its latched length stays. -/
def Obligations.TransfersAreNotCancelled : Prop :=
  ∀ s t : State, Inv Config.chip s → s.dmaState = .run → Machine.step s = .next t → nextAction s ≠ .reset →
    t.dmaLen = s.dmaLen ∧ (t.dmaState = .run ∨ (nextAction s = .dmaEnd ∧ s.dmaPos = s.dmaLen ∧ t.dmaState = .drain))

/-- R121, R137: frames that are closed never change and no frame is ever removed; only the open frame, the last one, grows. -/
def Obligations.WireLogOnlyGrows : Prop :=
  ∀ s t : State, Inv Config.chip s → Machine.step s = .next t →
    s.wire.frames.dropLast <+: t.wire.frames ∧ s.wire.frames.length ≤ t.wire.frames.length ∧
    (s.wire.isOpen = false → s.wire.frames <+: t.wire.frames) ∧
    (∀ f : Frame, s.wire.frames.getLast? = some f → ∃ g : Frame, t.wire.frames[s.wire.frames.length - 1]? = some g ∧ f.bytes <+: g.bytes)

/-! ### The datapath -/

/-- R77 P4 and P5, of the hardware's converter. -/
def Obligations.ConverterProperties : Prop :=
  (∀ hue : Byte, convert Config.chip hue 0#8 255#8 = ⟨255#8, 255#8, 255#8⟩) ∧
  (convert Config.chip 0#8 255#8 255#8).g.toNat < (convert Config.chip 0#8 255#8 255#8).r.toNat ∧
  (convert Config.chip 0#8 255#8 255#8).b.toNat < (convert Config.chip 0#8 255#8 255#8).r.toNat

/-- R79: the sectors of HSV2RGB_D by hue. -/
def Obligations.HueSectors : Prop :=
  ∀ hue : Byte, hueSector hue < 3 ∧ hueOffset hue < 64 ∧ hueScaled hue = 64 * hueSector hue + hueOffset hue ∧
    (hueSector hue = 0 ↔ hue.toNat ≤ 85) ∧ (hueSector hue = 1 ↔ 86 ≤ hue.toNat ∧ hue.toNat ≤ 170) ∧
    (hueSector hue = 2 ↔ 171 ≤ hue.toNat)

/-- R78 to R82's formulas and table, R83's corner cases and R88's bounds, for every input of HSV2RGB_D: the channels of each sector, exact in
8 bits, every channel in [base, val], the moving channels summing as stated, saturation 0 gray, value 0 black, saturation 255 with
base 0. -/
def Obligations.ReferenceConverterRange : Prop :=
  ∀ (hue sat val : Byte) (x : Rgb) (h base amp off rise fall : Nat), x = hsv2rgbD hue sat val →
    h = hue.toNat * 192 / 256 → off = h % 64 → base = val.toNat * (255 - sat.toNat) / 255 → amp = val.toNat - base →
    rise = base + amp * off / 64 → fall = base + amp * (64 - off) / 64 →
    (h / 64 = 0 → x.r.toNat = fall ∧ x.g.toNat = rise ∧ x.b.toNat = base) ∧
    (h / 64 = 1 → x.r.toNat = base ∧ x.g.toNat = fall ∧ x.b.toNat = rise) ∧
    (h / 64 = 2 → x.r.toNat = rise ∧ x.g.toNat = base ∧ x.b.toNat = fall) ∧ h / 64 < 3 ∧
    (∀ ch : Byte, ch = x.r ∨ ch = x.g ∨ ch = x.b → base ≤ ch.toNat ∧ ch.toNat ≤ val.toNat) ∧
    (rise + fall = 2 * base + amp ∨ rise + fall + 1 = 2 * base + amp) ∧
    (sat = 0#8 → x = ⟨val, val, val⟩) ∧ (val = 0#8 → x = ⟨0#8, 0#8, 0#8⟩) ∧ (sat = 255#8 → base = 0) ∧
    hue.toNat * 192 ≤ 48960 ∧ val.toNat * (255 - sat.toNat) ≤ 65025 ∧ amp * 64 ≤ 16320

/-- R86, R87: one LED is 12 bytes, green then red then blue, and byte `m` of a colour is the pattern of that colour's slice, the most
significant slice first. -/
def Obligations.EncodedPixelLayout : Prop :=
  ∀ (t : Patterns) (x : Rgb), (encPixel t x).length = 12 ∧
    ∀ (k m : Nat) (colour : Byte), m < 4 → (k = 0 ∧ colour = x.g ∨ k = 1 ∧ colour = x.r ∨ k = 2 ∧ colour = x.b) →
      (encPixel t x)[4 * k + m]? = some (patternOf t (BitVec.ofNat 2 (colour.toNat / 4 ^ (3 - m))))

/-- R89: the test-only decoder recovers every encoded byte, with the hardware's patterns. -/
def Obligations.EncodedByteDecodes : Prop :=
  ∀ x : Byte, decByte Config.chip.pat (encByte Config.chip.pat x) = some x

/-! ### Invariants and whole runs -/

/-- The invariant holds right after reset. -/
def Obligations.InvariantHoldsAtReset : Prop := Inv Config.chip State.reset

/-- Every step keeps the invariant, from every state that meets it: the six points of R39, the sizes of the state, the canonical form of host
memory, and what keeps them. -/
def Obligations.StepKeepsInvariant : Prop :=
  ∀ s t : State, Inv Config.chip s → Machine.step s = .next t → Inv Config.chip t

/-- R39: every state reached from reset, under any schedule and any launch memory, has the six points. -/
def Obligations.ReachableStatesMeetTheRule : Prop :=
  ∀ (sched : List Action) (m : Memory) (k : Nat) (t : State), Memory.wf m = true →
    Host.Core.run Sys2Proof.core k { State.reset with sched := sched, mem := m } = .next t → RuleInv Config.chip t

/-- R53: from a state that meets the invariant no step stops: every TXBUF index used is in range. -/
def Obligations.StepsNeverStop : Prop :=
  ∀ s : State, Inv Config.chip s → ∃ t : State, Machine.step s = .next t

/-- R94: a SETLEN on an idle port with the lock free, its steps taken one after the other, ends OK: LEN_CFG is the clamped count, INIT is
set, TXBUF is zero below the frame length and unchanged above it, the lock is free again, and nothing else changed. -/
def Obligations.SetlenRunsToOk : Prop :=
  ∀ (s : State) (h : HostId) (p : PortId) (n : Half) (rest : List Action) (len frame : Nat) (acts : List Action),
    Inv Config.chip s → s.hostRuns h = true → s.hasPort p = true → (s.port p).phase = .idle → s.lockOwner = none →
    len = min n.toNat Config.chip.maxLeds → frame = 12 * len + Config.chip.resetBytes →
    acts = issue h (.setlen p n) :: .lockAcq p :: .slSet p :: List.replicate frame (.slWrite p) →
    ∃ t : State, Host.Core.run Sys2Proof.core acts.length { s with sched := acts ++ rest } = .next t ∧
      t.lenCfg.toNat = len ∧
      t = { s with lenCfg := t.lenCfg, init := true, txbuf := t.txbuf, ports := t.ports, sched := rest } ∧
      t.port p = { s.port p with ovr := false, done := true, result := .ok, active := false, phase := .idle, op := none,
                                 nreq := n, j := BitVec.ofNat 32 frame } ∧
      (∀ q : PortId, q ≠ p → t.port q = s.port q) ∧ t.ports.length = s.ports.length ∧
      t.txbuf.length = s.txbuf.length ∧ (∀ k : Nat, k < frame → t.txbuf[k]? = some 0#8) ∧
      (∀ k : Nat, frame ≤ k → t.txbuf[k]? = s.txbuf[k]?)

/-- R108: a SEND on an idle port with the lock free, a configured length and the DMA engine idle, its steps taken one after the other up to
KICK: TXBUF holds the encoded pixels, then zeros up to the frame length, and the transfer of the whole frame has started. -/
def Obligations.SendFillsBufferAndStarts : Prop :=
  ∀ (s : State) (h : HostId) (p : PortId) (n : Half) (px : Nat → Byte) (rest : List Action) (count frame : Nat)
    (acts : List Action), Inv Config.chip s → s.hostRuns h = true → s.hasPort p = true → (s.port p).phase = .idle → s.lockOwner = none →
    s.init = true → s.busy = false →
    count = min n.toNat s.lenCfg.toNat → frame = 12 * s.lenCfg.toNat + Config.chip.resetBytes →
    (∀ k : Nat, k < 3 * count → s.mem.read ((s.port p).pixBase.toNat + k) = some (px k)) →
    acts = issue h (.send p n) :: .lockAcq p :: .check p :: .poll p ::
      (List.replicate (3 * count) (.fill p 0) ++ [.tail p, .kick p]) →
    ∃ t : State, Host.Core.run Sys2Proof.core acts.length { s with sched := acts ++ rest } = .next t ∧
      t = { s with dmaPos := 0#32, dmaLen := t.dmaLen, dmaState := .run, busy := true, txbuf := t.txbuf, ports := t.ports,
                   wire := ⟨s.wire.frames ++ [⟨[], false⟩], true⟩, sched := rest } ∧
      t.dmaLen.toNat = frame ∧ (t.port p).phase = .evtWait ∧ (t.port p).active = true ∧ (t.port p).n.toNat = count ∧
      (∀ q : PortId, q ≠ p → t.port q = s.port q) ∧ t.txbuf.length = s.txbuf.length ∧
      (∀ i j : Nat, i < count → j < 12 → t.txbuf[12 * i + j]? =
        (encPixel Config.chip.pat (convert Config.chip (px (3 * i)) (px (3 * i + 1)) (px (3 * i + 2))))[j]?) ∧
      (∀ k : Nat, 12 * count ≤ k → k < frame → t.txbuf[k]? = some 0#8) ∧
      (∀ k : Nat, frame ≤ k → t.txbuf[k]? = s.txbuf[k]?)

/-- R121: a transfer that starts with an empty open frame, its bytes emitted one after the other and ended with the interrupt and the busy
flag in either order, leaves on the wire exactly the first DMA_LEN bytes of TXBUF, in a closed frame, with the event set and the engine
idle. -/
def Obligations.TransferPutsBufferOnWire : Prop :=
  ∀ (s : State) (fs : List Frame) (rest acts : List Action),
    s.dmaState = .run → s.dmaPos = 0#32 → s.dmaLen.toNat ≤ s.txbuf.length → s.wire = ⟨fs ++ [⟨[], false⟩], true⟩ →
    (acts = List.replicate s.dmaLen.toNat .dmaEmit ++ [.dmaEnd, .chTake, .dmaIdle] ∨
      acts = List.replicate s.dmaLen.toNat .dmaEmit ++ [.dmaEnd, .dmaIdle, .chTake]) →
    Host.Core.run Sys2Proof.core acts.length { s with sched := acts ++ rest } = .next { s with
      dmaPos := s.dmaLen, dmaState := .idle, busy := false, irqPend := false, evt := true, sched := rest
      wire := ⟨fs ++ [⟨s.txbuf.take s.dmaLen.toNat, false⟩], false⟩ }

/-- R122: whatever the agents do, in whatever order, as long as no SL_WRITE step falls in: what has been put on the wire is what TXBUF holds
(each step keeps it, and it holds after KICK, when the frame is empty). -/
def Obligations.FrameIsBufferUnlessSetlenRuns : Prop :=
  ∀ s t : State, Inv Config.chip s →
    (s.dmaState = .run → s.wire.frames.getLast?.map (fun f => f.bytes) = some (s.txbuf.take s.dmaPos.toNat)) →
    Machine.step s = .next t → (∀ p : PortId, nextAction s ≠ .slWrite p) →
    (t.dmaState = .run → t.wire.frames.getLast?.map (fun f => f.bytes) = some (t.txbuf.take t.dmaPos.toNat))

/-- R142: with SL_WRITE steps falling into a transfer, every byte of TXBUF and of the frame is the SEND's byte (that of `sent`, the buffer
at KICK) or 0x00; every step of the transfer but reset keeps this. -/
def Obligations.RacingSetlenWritesOnlyZeros : Prop :=
  ∀ (s t : State) (sent : List Byte), Inv Config.chip s → s.dmaState = .run →
    (∀ k : Nat, s.txbuf[k]? = sent[k]? ∨ s.txbuf[k]? = some 0#8) →
    (∀ (f : Frame) (k : Nat), s.wire.frames.getLast? = some f → k < f.bytes.length →
      f.bytes[k]? = sent[k]? ∨ f.bytes[k]? = some 0#8) →
    Machine.step s = .next t → nextAction s ≠ .reset →
    (∀ k : Nat, t.txbuf[k]? = sent[k]? ∨ t.txbuf[k]? = some 0#8) ∧
    (∀ (f : Frame) (k : Nat), t.wire.frames.getLast? = some f → k < f.bytes.length →
      f.bytes[k]? = sent[k]? ∨ f.bytes[k]? = some 0#8)

/-- R120: in every weakly fair run from a state that meets the invariant, every transfer ends: whenever the DMA engine is not idle it
becomes idle later. -/
def Obligations.FairRunsEndTransfers : Prop :=
  ∀ (acts : Nat → Action) (r : Nat → State), IsRun Config.chip acts r → Inv Config.chip (r 0) → WeaklyFair acts r →
    ∀ k : Nat, (r k).dmaState ≠ .idle → ∃ m : Nat, k ≤ m ∧ (r m).dmaState = .idle

/-- R138: no byte that TXBUF holds after reset is ever emitted. Under any schedule and with any launch memory, two machines that differ
after reset in the bytes of TXBUF alone differ in the bytes of TXBUF alone ever after: the wire log and every register value the host
reads are the same. -/
def Obligations.ResetBufferNeverReachesTheWire : Prop :=
  ∀ (sched : List Action) (m : Memory) (k : Nat) (buf : List Byte) (t u : State), Memory.wf m = true →
    buf.length = 12 * Config.chip.maxLeds + Config.chip.resetBytes →
    Host.Core.run Sys2Proof.core k { State.reset with sched := sched, mem := m } = .next t →
    Host.Core.run Sys2Proof.core k { State.reset with sched := sched, mem := m, txbuf := buf } = .next u →
    u = { t with txbuf := u.txbuf }
end

