-- ==== Sys2Proof/Laws/Decode.lean ====
section
/-! SUPPORT. The fields of an encoded command, one lemma per field. -/

namespace Sys2Proof

theorem argField_encode (i : Instr) : argField (encode i) = i.count := by
  ext k hk
  have h : (opCode i).getLsbD (16 + k) = false := BitVec.getLsbD_of_ge _ _ (by omega)
  simp [argField, encode, h, show 16 + k < 32 by omega, BitVec.getLsbD_eq_getElem hk]

theorem rsvField_encode (i : Instr) : rsvField (encode i) = 0#12 := by
  ext k hk
  simp [rsvField, encode]
  omega

theorem opField_encode (i : Instr) : opField (encode i) = opCode i := by
  ext k hk
  simp [opField, encode, show k < 32 by omega, show k < 16 by omega, BitVec.getLsbD_eq_getElem hk]

end Sys2Proof
end

