-- ==== Sys2Proof/Laws/State.lean ====
section
/-! SUPPORT. One lemma per field per update of State and Port, each true by unfolding once, so that no proof unfolds a record update. -/

namespace Sys2Proof.Machine

variable (s : State) (p : PortId) (q : Port) (h : HostId) (a : HostAccess) (act : Action) (r : Result) (n : Half) (v : Byte)

/-! ### State updates -/

@[simp] theorem setPort_lenCfg : (s.setPort p q).lenCfg = s.lenCfg := rfl
@[simp] theorem setPort_init : (s.setPort p q).init = s.init := rfl
@[simp] theorem setPort_busy : (s.setPort p q).busy = s.busy := rfl
@[simp] theorem setPort_evt : (s.setPort p q).evt = s.evt := rfl
@[simp] theorem setPort_irqPend : (s.setPort p q).irqPend = s.irqPend := rfl
@[simp] theorem setPort_lockOwner : (s.setPort p q).lockOwner = s.lockOwner := rfl
@[simp] theorem setPort_dmaState : (s.setPort p q).dmaState = s.dmaState := rfl
@[simp] theorem setPort_dmaPos : (s.setPort p q).dmaPos = s.dmaPos := rfl
@[simp] theorem setPort_dmaLen : (s.setPort p q).dmaLen = s.dmaLen := rfl
@[simp] theorem setPort_txbuf : (s.setPort p q).txbuf = s.txbuf := rfl
@[simp] theorem setPort_wire : (s.setPort p q).wire = s.wire := rfl
@[simp] theorem setPort_reads : (s.setPort p q).reads = s.reads := rfl
@[simp] theorem setPort_mem : (s.setPort p q).mem = s.mem := rfl
@[simp] theorem setPort_refusals : (s.setPort p q).refusals = s.refusals := rfl
@[simp] theorem setPort_sched : (s.setPort p q).sched = s.sched := rfl
@[simp] theorem setPort_draws : (s.setPort p q).draws = s.draws := rfl

@[simp] theorem takeLock_lenCfg : (s.takeLock p).lenCfg = s.lenCfg := rfl
@[simp] theorem takeLock_init : (s.takeLock p).init = s.init := rfl
@[simp] theorem takeLock_busy : (s.takeLock p).busy = s.busy := rfl
@[simp] theorem takeLock_evt : (s.takeLock p).evt = s.evt := rfl
@[simp] theorem takeLock_irqPend : (s.takeLock p).irqPend = s.irqPend := rfl
@[simp] theorem takeLock_dmaState : (s.takeLock p).dmaState = s.dmaState := rfl
@[simp] theorem takeLock_dmaPos : (s.takeLock p).dmaPos = s.dmaPos := rfl
@[simp] theorem takeLock_dmaLen : (s.takeLock p).dmaLen = s.dmaLen := rfl
@[simp] theorem takeLock_txbuf : (s.takeLock p).txbuf = s.txbuf := rfl
@[simp] theorem takeLock_wire : (s.takeLock p).wire = s.wire := rfl
@[simp] theorem takeLock_reads : (s.takeLock p).reads = s.reads := rfl
@[simp] theorem takeLock_mem : (s.takeLock p).mem = s.mem := rfl
@[simp] theorem takeLock_refusals : (s.takeLock p).refusals = s.refusals := rfl
@[simp] theorem takeLock_sched : (s.takeLock p).sched = s.sched := rfl
@[simp] theorem takeLock_draws : (s.takeLock p).draws = s.draws := rfl
@[simp] theorem takeLock_ports : (s.takeLock p).ports = s.ports := rfl
@[simp] theorem takeLock_port (x : PortId) : (s.takeLock x).port p = s.port p := rfl
@[simp] theorem takeLock_hasPort (x : PortId) : (s.takeLock x).hasPort p = s.hasPort p := rfl

@[simp] theorem freeLock_lenCfg : (s.freeLock).lenCfg = s.lenCfg := rfl
@[simp] theorem freeLock_init : (s.freeLock).init = s.init := rfl
@[simp] theorem freeLock_busy : (s.freeLock).busy = s.busy := rfl
@[simp] theorem freeLock_evt : (s.freeLock).evt = s.evt := rfl
@[simp] theorem freeLock_irqPend : (s.freeLock).irqPend = s.irqPend := rfl
@[simp] theorem freeLock_dmaState : (s.freeLock).dmaState = s.dmaState := rfl
@[simp] theorem freeLock_dmaPos : (s.freeLock).dmaPos = s.dmaPos := rfl
@[simp] theorem freeLock_dmaLen : (s.freeLock).dmaLen = s.dmaLen := rfl
@[simp] theorem freeLock_txbuf : (s.freeLock).txbuf = s.txbuf := rfl
@[simp] theorem freeLock_wire : (s.freeLock).wire = s.wire := rfl
@[simp] theorem freeLock_reads : (s.freeLock).reads = s.reads := rfl
@[simp] theorem freeLock_mem : (s.freeLock).mem = s.mem := rfl
@[simp] theorem freeLock_refusals : (s.freeLock).refusals = s.refusals := rfl
@[simp] theorem freeLock_sched : (s.freeLock).sched = s.sched := rfl
@[simp] theorem freeLock_draws : (s.freeLock).draws = s.draws := rfl
@[simp] theorem freeLock_ports : (s.freeLock).ports = s.ports := rfl
@[simp] theorem freeLock_port : (s.freeLock).port p = s.port p := rfl
@[simp] theorem freeLock_hasPort : (s.freeLock).hasPort p = s.hasPort p := rfl

@[simp] theorem clearEvt_lenCfg : (s.clearEvt).lenCfg = s.lenCfg := rfl
@[simp] theorem clearEvt_init : (s.clearEvt).init = s.init := rfl
@[simp] theorem clearEvt_busy : (s.clearEvt).busy = s.busy := rfl
@[simp] theorem clearEvt_irqPend : (s.clearEvt).irqPend = s.irqPend := rfl
@[simp] theorem clearEvt_lockOwner : (s.clearEvt).lockOwner = s.lockOwner := rfl
@[simp] theorem clearEvt_dmaState : (s.clearEvt).dmaState = s.dmaState := rfl
@[simp] theorem clearEvt_dmaPos : (s.clearEvt).dmaPos = s.dmaPos := rfl
@[simp] theorem clearEvt_dmaLen : (s.clearEvt).dmaLen = s.dmaLen := rfl
@[simp] theorem clearEvt_txbuf : (s.clearEvt).txbuf = s.txbuf := rfl
@[simp] theorem clearEvt_wire : (s.clearEvt).wire = s.wire := rfl
@[simp] theorem clearEvt_reads : (s.clearEvt).reads = s.reads := rfl
@[simp] theorem clearEvt_mem : (s.clearEvt).mem = s.mem := rfl
@[simp] theorem clearEvt_refusals : (s.clearEvt).refusals = s.refusals := rfl
@[simp] theorem clearEvt_sched : (s.clearEvt).sched = s.sched := rfl
@[simp] theorem clearEvt_draws : (s.clearEvt).draws = s.draws := rfl
@[simp] theorem clearEvt_ports : (s.clearEvt).ports = s.ports := rfl
@[simp] theorem clearEvt_port : (s.clearEvt).port p = s.port p := rfl
@[simp] theorem clearEvt_hasPort : (s.clearEvt).hasPort p = s.hasPort p := rfl

@[simp] theorem refuse_lenCfg : (s.refuse h a).lenCfg = s.lenCfg := rfl
@[simp] theorem refuse_init : (s.refuse h a).init = s.init := rfl
@[simp] theorem refuse_busy : (s.refuse h a).busy = s.busy := rfl
@[simp] theorem refuse_evt : (s.refuse h a).evt = s.evt := rfl
@[simp] theorem refuse_irqPend : (s.refuse h a).irqPend = s.irqPend := rfl
@[simp] theorem refuse_lockOwner : (s.refuse h a).lockOwner = s.lockOwner := rfl
@[simp] theorem refuse_dmaState : (s.refuse h a).dmaState = s.dmaState := rfl
@[simp] theorem refuse_dmaPos : (s.refuse h a).dmaPos = s.dmaPos := rfl
@[simp] theorem refuse_dmaLen : (s.refuse h a).dmaLen = s.dmaLen := rfl
@[simp] theorem refuse_txbuf : (s.refuse h a).txbuf = s.txbuf := rfl
@[simp] theorem refuse_wire : (s.refuse h a).wire = s.wire := rfl
@[simp] theorem refuse_reads : (s.refuse h a).reads = s.reads := rfl
@[simp] theorem refuse_mem : (s.refuse h a).mem = s.mem := rfl
@[simp] theorem refuse_sched : (s.refuse h a).sched = s.sched := rfl
@[simp] theorem refuse_draws : (s.refuse h a).draws = s.draws := rfl
@[simp] theorem refuse_ports : (s.refuse h a).ports = s.ports := rfl
@[simp] theorem refuse_port : (s.refuse h a).port p = s.port p := rfl
@[simp] theorem refuse_hasPort : (s.refuse h a).hasPort p = s.hasPort p := rfl

@[simp] theorem chosen_lenCfg : (chosen act s).lenCfg = s.lenCfg := rfl
@[simp] theorem chosen_init : (chosen act s).init = s.init := rfl
@[simp] theorem chosen_busy : (chosen act s).busy = s.busy := rfl
@[simp] theorem chosen_evt : (chosen act s).evt = s.evt := rfl
@[simp] theorem chosen_irqPend : (chosen act s).irqPend = s.irqPend := rfl
@[simp] theorem chosen_lockOwner : (chosen act s).lockOwner = s.lockOwner := rfl
@[simp] theorem chosen_dmaState : (chosen act s).dmaState = s.dmaState := rfl
@[simp] theorem chosen_dmaPos : (chosen act s).dmaPos = s.dmaPos := rfl
@[simp] theorem chosen_dmaLen : (chosen act s).dmaLen = s.dmaLen := rfl
@[simp] theorem chosen_txbuf : (chosen act s).txbuf = s.txbuf := rfl
@[simp] theorem chosen_wire : (chosen act s).wire = s.wire := rfl
@[simp] theorem chosen_reads : (chosen act s).reads = s.reads := rfl
@[simp] theorem chosen_mem : (chosen act s).mem = s.mem := rfl
@[simp] theorem chosen_refusals : (chosen act s).refusals = s.refusals := rfl
@[simp] theorem chosen_draws : (chosen act s).draws = s.draws := rfl
@[simp] theorem chosen_ports : (chosen act s).ports = s.ports := rfl
@[simp] theorem chosen_port : (chosen act s).port p = s.port p := rfl
@[simp] theorem chosen_hasPort : (chosen act s).hasPort p = s.hasPort p := rfl

@[simp] theorem takeLock_lockOwner : (s.takeLock p).lockOwner = some p := rfl
@[simp] theorem freeLock_lockOwner : s.freeLock.lockOwner = none := rfl
@[simp] theorem clearEvt_evt : s.clearEvt.evt = false := rfl
@[simp] theorem refuse_refusals : (s.refuse h a).refusals = s.refusals ++ [⟨h, a⟩] := rfl
@[simp] theorem chosen_sched : (chosen act s).sched = act :: s.sched := rfl

/-! ### Port updates -/

@[simp] theorem Port.finish_pixBase : (q.finish r).pixBase = (q.pixBase) := rfl
@[simp] theorem Port.finish_delay : (q.finish r).delay = (q.delay) := rfl
@[simp] theorem Port.finish_active : (q.finish r).active = (false) := rfl
@[simp] theorem Port.finish_done : (q.finish r).done = (true) := rfl
@[simp] theorem Port.finish_result : (q.finish r).result = (r) := rfl
@[simp] theorem Port.finish_ovr : (q.finish r).ovr = (q.ovr) := rfl
@[simp] theorem Port.finish_fatal : (q.finish r).fatal = (q.fatal) := rfl
@[simp] theorem Port.finish_phase : (q.finish r).phase = (.idle) := rfl
@[simp] theorem Port.finish_op : (q.finish r).op = (none) := rfl
@[simp] theorem Port.finish_nreq : (q.finish r).nreq = (q.nreq) := rfl
@[simp] theorem Port.finish_base : (q.finish r).base = (q.base) := rfl
@[simp] theorem Port.finish_n : (q.finish r).n = (q.n) := rfl
@[simp] theorem Port.finish_i : (q.finish r).i = (q.i) := rfl
@[simp] theorem Port.finish_pxH : (q.finish r).pxH = (q.pxH) := rfl
@[simp] theorem Port.finish_pxS : (q.finish r).pxS = (q.pxS) := rfl
@[simp] theorem Port.finish_j : (q.finish r).j = (q.j) := rfl
@[simp] theorem Port.finish_stale : (q.finish r).stale = (q.stale) := rfl

@[simp] theorem Port.goFatal_pixBase : (q.goFatal).pixBase = (q.pixBase) := rfl
@[simp] theorem Port.goFatal_delay : (q.goFatal).delay = (q.delay) := rfl
@[simp] theorem Port.goFatal_active : (q.goFatal).active = (false) := rfl
@[simp] theorem Port.goFatal_done : (q.goFatal).done = (false) := rfl
@[simp] theorem Port.goFatal_result : (q.goFatal).result = (q.result) := rfl
@[simp] theorem Port.goFatal_ovr : (q.goFatal).ovr = (q.ovr) := rfl
@[simp] theorem Port.goFatal_fatal : (q.goFatal).fatal = (true) := rfl
@[simp] theorem Port.goFatal_phase : (q.goFatal).phase = (.fatal) := rfl
@[simp] theorem Port.goFatal_op : (q.goFatal).op = (q.op) := rfl
@[simp] theorem Port.goFatal_nreq : (q.goFatal).nreq = (q.nreq) := rfl
@[simp] theorem Port.goFatal_base : (q.goFatal).base = (q.base) := rfl
@[simp] theorem Port.goFatal_n : (q.goFatal).n = (q.n) := rfl
@[simp] theorem Port.goFatal_i : (q.goFatal).i = (q.i) := rfl
@[simp] theorem Port.goFatal_pxH : (q.goFatal).pxH = (q.pxH) := rfl
@[simp] theorem Port.goFatal_pxS : (q.goFatal).pxS = (q.pxS) := rfl
@[simp] theorem Port.goFatal_j : (q.goFatal).j = (q.j) := rfl
@[simp] theorem Port.goFatal_stale : (q.goFatal).stale = (q.stale) := rfl

@[simp] theorem Port.drop_pixBase : (q.drop).pixBase = (q.pixBase) := rfl
@[simp] theorem Port.drop_delay : (q.drop).delay = (q.delay) := rfl
@[simp] theorem Port.drop_active : (q.drop).active = (q.active) := rfl
@[simp] theorem Port.drop_done : (q.drop).done = (q.done) := rfl
@[simp] theorem Port.drop_result : (q.drop).result = (q.result) := rfl
@[simp] theorem Port.drop_ovr : (q.drop).ovr = (true) := rfl
@[simp] theorem Port.drop_fatal : (q.drop).fatal = (q.fatal) := rfl
@[simp] theorem Port.drop_phase : (q.drop).phase = (q.phase) := rfl
@[simp] theorem Port.drop_op : (q.drop).op = (q.op) := rfl
@[simp] theorem Port.drop_nreq : (q.drop).nreq = (q.nreq) := rfl
@[simp] theorem Port.drop_base : (q.drop).base = (q.base) := rfl
@[simp] theorem Port.drop_n : (q.drop).n = (q.n) := rfl
@[simp] theorem Port.drop_i : (q.drop).i = (q.i) := rfl
@[simp] theorem Port.drop_pxH : (q.drop).pxH = (q.pxH) := rfl
@[simp] theorem Port.drop_pxS : (q.drop).pxS = (q.pxS) := rfl
@[simp] theorem Port.drop_j : (q.drop).j = (q.j) := rfl
@[simp] theorem Port.drop_stale : (q.drop).stale = (q.stale) := rfl

@[simp] theorem Port.beginCommand_pixBase : (q.beginCommand).pixBase = (q.pixBase) := rfl
@[simp] theorem Port.beginCommand_delay : (q.beginCommand).delay = (q.delay) := rfl
@[simp] theorem Port.beginCommand_active : (q.beginCommand).active = (q.active) := rfl
@[simp] theorem Port.beginCommand_done : (q.beginCommand).done = (false) := rfl
@[simp] theorem Port.beginCommand_result : (q.beginCommand).result = (q.result) := rfl
@[simp] theorem Port.beginCommand_ovr : (q.beginCommand).ovr = (false) := rfl
@[simp] theorem Port.beginCommand_fatal : (q.beginCommand).fatal = (q.fatal) := rfl
@[simp] theorem Port.beginCommand_phase : (q.beginCommand).phase = (q.phase) := rfl
@[simp] theorem Port.beginCommand_op : (q.beginCommand).op = (q.op) := rfl
@[simp] theorem Port.beginCommand_nreq : (q.beginCommand).nreq = (q.nreq) := rfl
@[simp] theorem Port.beginCommand_base : (q.beginCommand).base = (q.base) := rfl
@[simp] theorem Port.beginCommand_n : (q.beginCommand).n = (q.n) := rfl
@[simp] theorem Port.beginCommand_i : (q.beginCommand).i = (q.i) := rfl
@[simp] theorem Port.beginCommand_pxH : (q.beginCommand).pxH = (q.pxH) := rfl
@[simp] theorem Port.beginCommand_pxS : (q.beginCommand).pxS = (q.pxS) := rfl
@[simp] theorem Port.beginCommand_j : (q.beginCommand).j = (q.j) := rfl
@[simp] theorem Port.beginCommand_stale : (q.beginCommand).stale = (q.stale) := rfl

@[simp] theorem Port.acceptSetlen_pixBase : (Port.acceptOp .setlen n q).pixBase = (q.pixBase) := rfl
@[simp] theorem Port.acceptSetlen_delay : (Port.acceptOp .setlen n q).delay = (q.delay) := rfl
@[simp] theorem Port.acceptSetlen_active : (Port.acceptOp .setlen n q).active = (true) := rfl
@[simp] theorem Port.acceptSetlen_done : (Port.acceptOp .setlen n q).done = (q.done) := rfl
@[simp] theorem Port.acceptSetlen_result : (Port.acceptOp .setlen n q).result = (q.result) := rfl
@[simp] theorem Port.acceptSetlen_ovr : (Port.acceptOp .setlen n q).ovr = (q.ovr) := rfl
@[simp] theorem Port.acceptSetlen_fatal : (Port.acceptOp .setlen n q).fatal = (q.fatal) := rfl
@[simp] theorem Port.acceptSetlen_phase : (Port.acceptOp .setlen n q).phase = (.lockWait) := rfl
@[simp] theorem Port.acceptSetlen_op : (Port.acceptOp .setlen n q).op = (some .setlen) := rfl
@[simp] theorem Port.acceptSetlen_nreq : (Port.acceptOp .setlen n q).nreq = (n) := rfl
@[simp] theorem Port.acceptSetlen_base : (Port.acceptOp .setlen n q).base = (q.base) := rfl
@[simp] theorem Port.acceptSetlen_n : (Port.acceptOp .setlen n q).n = (q.n) := rfl
@[simp] theorem Port.acceptSetlen_i : (Port.acceptOp .setlen n q).i = (q.i) := rfl
@[simp] theorem Port.acceptSetlen_pxH : (Port.acceptOp .setlen n q).pxH = (q.pxH) := rfl
@[simp] theorem Port.acceptSetlen_pxS : (Port.acceptOp .setlen n q).pxS = (q.pxS) := rfl
@[simp] theorem Port.acceptSetlen_j : (Port.acceptOp .setlen n q).j = (q.j) := rfl
@[simp] theorem Port.acceptSetlen_stale : (Port.acceptOp .setlen n q).stale = (q.stale) := rfl

@[simp] theorem Port.acceptSend_pixBase : (Port.acceptOp .send n q).pixBase = (q.pixBase) := rfl
@[simp] theorem Port.acceptSend_delay : (Port.acceptOp .send n q).delay = (q.delay) := rfl
@[simp] theorem Port.acceptSend_active : (Port.acceptOp .send n q).active = (true) := rfl
@[simp] theorem Port.acceptSend_done : (Port.acceptOp .send n q).done = (q.done) := rfl
@[simp] theorem Port.acceptSend_result : (Port.acceptOp .send n q).result = (q.result) := rfl
@[simp] theorem Port.acceptSend_ovr : (Port.acceptOp .send n q).ovr = (q.ovr) := rfl
@[simp] theorem Port.acceptSend_fatal : (Port.acceptOp .send n q).fatal = (q.fatal) := rfl
@[simp] theorem Port.acceptSend_phase : (Port.acceptOp .send n q).phase = (.lockWait) := rfl
@[simp] theorem Port.acceptSend_op : (Port.acceptOp .send n q).op = (some .send) := rfl
@[simp] theorem Port.acceptSend_nreq : (Port.acceptOp .send n q).nreq = (n) := rfl
@[simp] theorem Port.acceptSend_base : (Port.acceptOp .send n q).base = (q.pixBase) := rfl
@[simp] theorem Port.acceptSend_n : (Port.acceptOp .send n q).n = (q.n) := rfl
@[simp] theorem Port.acceptSend_i : (Port.acceptOp .send n q).i = (q.i) := rfl
@[simp] theorem Port.acceptSend_pxH : (Port.acceptOp .send n q).pxH = (q.pxH) := rfl
@[simp] theorem Port.acceptSend_pxS : (Port.acceptOp .send n q).pxS = (q.pxS) := rfl
@[simp] theorem Port.acceptSend_j : (Port.acceptOp .send n q).j = (q.j) := rfl
@[simp] theorem Port.acceptSend_stale : (Port.acceptOp .send n q).stale = ([]) := rfl

@[simp] theorem Port.afterFill_pixBase : (q.afterFill v).pixBase = (q.pixBase) := rfl
@[simp] theorem Port.afterFill_delay : (q.afterFill v).delay = (q.delay) := rfl
@[simp] theorem Port.afterFill_active : (q.afterFill v).active = (q.active) := rfl
@[simp] theorem Port.afterFill_done : (q.afterFill v).done = (q.done) := rfl
@[simp] theorem Port.afterFill_result : (q.afterFill v).result = (q.result) := rfl
@[simp] theorem Port.afterFill_ovr : (q.afterFill v).ovr = (q.ovr) := rfl
@[simp] theorem Port.afterFill_fatal : (q.afterFill v).fatal = (q.fatal) := rfl
@[simp] theorem Port.afterFill_phase : (q.afterFill v).phase = (if (q.i + 1#32).toNat = 3 * q.n.toNat then .tail else q.phase) := rfl
@[simp] theorem Port.afterFill_op : (q.afterFill v).op = (q.op) := rfl
@[simp] theorem Port.afterFill_nreq : (q.afterFill v).nreq = (q.nreq) := rfl
@[simp] theorem Port.afterFill_base : (q.afterFill v).base = (q.base) := rfl
@[simp] theorem Port.afterFill_n : (q.afterFill v).n = (q.n) := rfl
@[simp] theorem Port.afterFill_i : (q.afterFill v).i = (q.i + 1#32) := rfl
@[simp] theorem Port.afterFill_pxH : (q.afterFill v).pxH = (if q.i.toNat % 3 = 0 then v else q.pxH) := rfl
@[simp] theorem Port.afterFill_pxS : (q.afterFill v).pxS = (if q.i.toNat % 3 = 1 then v else q.pxS) := rfl
@[simp] theorem Port.afterFill_j : (q.afterFill v).j = (q.j) := rfl
@[simp] theorem Port.afterFill_stale : (q.afterFill v).stale = (q.stale) := rfl

end Sys2Proof.Machine
end

