-- ==== Sys2Proof/Laws/Ops.lean ====
section
/-! SUPPORT. What the shared operations do, said once each: the ports, host memory, TXBUF and the wire log. -/

namespace Sys2Proof.Machine

/-! ### Ports -/

@[simp] theorem setPort_hasPort (s : State) (p r : PortId) (q : Port) : (s.setPort p q).hasPort r = s.hasPort r := by
  simp only [State.hasPort, State.setPort, List.getElem?_set]
  split <;> [split <;> simp_all; rfl]

theorem setPort_port_same {s : State} {p : PortId} (h : s.hasPort p = true) (q : Port) : (s.setPort p q).port p = q := by
  have h' : p.val < s.ports.length := by simpa [State.hasPort] using h
  simp [State.port, State.setPort, h']

theorem setPort_port_other {p r : PortId} (h : r ≠ p) (s : State) (q : Port) : (s.setPort p q).port r = s.port r := by
  have h' : p.val ≠ r.val := fun e => h (Fin.ext e.symm)
  simp [State.port, State.setPort, h']

/-- Reading a port after a port was replaced, both cases at once. -/
theorem setPort_port {s : State} {p : PortId} (h : s.hasPort p = true) (q : Port) (r : PortId) :
    (s.setPort p q).port r = if r = p then q else s.port r := by
  split
  · next e => rw [e, setPort_port_same h]
  · next e => exact setPort_port_other e s q

@[simp] theorem setPort_length (s : State) (p : PortId) (q : Port) : (s.setPort p q).ports.length = s.ports.length := by
  simp [State.setPort]

theorem port_of_absent {s : State} {p : PortId} (h : s.hasPort p = false) : s.port p = Port.reset := by
  have h' : s.ports[p.val]? = none := by simpa [State.hasPort] using h
  simp [State.port, h']

theorem hasPort_iff (s : State) (p : PortId) : s.hasPort p = true ↔ p.val < s.ports.length := by
  simp [State.hasPort]

/-- The port of a state whose ports are all the same. -/
theorem port_replicate {s : State} {k : Nat} {q : Port} (h : s.ports = List.replicate k q) (p : PortId) :
    s.port p = if p.val < k then q else Port.reset := by
  simp only [State.port, h, List.getElem?_replicate]
  split <;> rfl

/-! ### Host memory -/

theorem Memory.read_write_same (m : Memory) (a : Nat) (v : Byte) : (m.write a v).read a = some v := by
  induction m with
  | nil => simp [Memory.write, Memory.read]
  | cons c m ih =>
    obtain ⟨b, w⟩ := c
    simp only [Memory.write]
    split
    · simp [Memory.read]
    · split
      · simp [Memory.read]
      · next h => simp [Memory.read, h, ih]

theorem Memory.read_write_other {a x : Nat} (h : x ≠ a) (m : Memory) (v : Byte) : (m.write a v).read x = m.read x := by
  induction m with
  | nil => simp [Memory.write, Memory.read, h]
  | cons c m ih =>
    obtain ⟨b, w⟩ := c
    simp only [Memory.write]
    split
    · simp [Memory.read, h]
    · split
      · next e => subst e; simp [Memory.read, h]
      · by_cases hb : x = b <;> simp [Memory.read, hb, ih]

/-- The first address of a canonical memory, past `lo`. -/
def Memory.above (lo : Nat) : Memory → Prop
  | [] => True
  | (a, _) :: _ => lo < a

theorem Memory.wf_cons (a : Nat) (v : Byte) (m : Memory) :
    Memory.wf ((a, v) :: m) = true ↔ a < 2 ^ 32 ∧ Memory.above a m ∧ Memory.wf m = true := by
  cases m with
  | nil => simp [Memory.wf, Memory.above]
  | cons c m =>
    obtain ⟨b, w⟩ := c
    simp only [Memory.wf, Memory.above, Bool.and_eq_true, decide_eq_true_eq]
    constructor
    · rintro ⟨h, hw⟩
      refine ⟨?_, h, hw⟩
      cases m with
      | nil => simp [Memory.wf] at hw; omega
      | cons d m =>
        have hb : ∀ (m : Memory) (b : Nat) (w : Byte), Memory.wf ((b, w) :: m) = true → b < 2 ^ 32 := by
          intro m
          induction m with
          | nil => intro b w h; simpa [Memory.wf] using h
          | cons e m ih =>
            intro b w h
            simp only [Memory.wf, Bool.and_eq_true, decide_eq_true_eq] at h
            have := ih _ _ h.2
            omega
        have := hb _ _ _ hw
        omega
    · rintro ⟨-, h, hw⟩
      exact ⟨h, hw⟩

theorem Memory.write_above {lo a : Nat} (h : lo < a) {m : Memory} (hm : Memory.above lo m) (v : Byte) :
    Memory.above lo (m.write a v) := by
  cases m with
  | nil => exact h
  | cons c m =>
    obtain ⟨b, w⟩ := c
    simp only [Memory.write]
    split <;> [exact h; split <;> [exact h; exact hm]]

/-- A store keeps the canonical form. -/
theorem Memory.write_wf {m : Memory} (hm : Memory.wf m = true) {a : Nat} (ha : a < 2 ^ 32) (v : Byte) :
    Memory.wf (m.write a v) = true := by
  induction m with
  | nil => simpa [Memory.write, Memory.wf] using ha
  | cons c m ih =>
    obtain ⟨b, w⟩ := c
    obtain ⟨hb, hab, hw⟩ := (Memory.wf_cons b w m).mp hm
    simp only [Memory.write]
    split
    · next h => exact (Memory.wf_cons _ _ _).mpr ⟨ha, h, hm⟩
    · split
      · next _ e => subst e; exact (Memory.wf_cons _ _ _).mpr ⟨ha, hab, hw⟩
      · exact (Memory.wf_cons _ _ _).mpr ⟨hb, Memory.write_above (by omega) hab v, ih hw⟩

/-- Putting in the launch memory keeps the canonical form. -/
theorem launch_wf {s : State} (h : Memory.wf s.mem = true) (cells : List (Word × Byte)) :
    Memory.wf (s.launch cells).mem = true := by
  simp only [State.launch]
  generalize s.mem = m at h
  induction cells generalizing m with
  | nil => exact h
  | cons c cs ih => exact ih _ (Memory.write_wf h c.1.isLt _)

/-- A host store keeps the canonical form, changes the addressed byte where it exists, and no other. -/
theorem memStore_wf {s : State} (h : Memory.wf s.mem = true) (a : Word) (v : Byte) :
    Memory.wf (s.memStore a v).mem = true := by
  simp only [State.memStore]
  split
  · exact h
  · exact Memory.write_wf h a.isLt v

theorem memStore_read (s : State) (a : Word) (v : Byte) (x : Nat) :
    (s.memStore a v).mem.read x = if x = a.toNat then (s.mem.read x).map (fun _ => v) else s.mem.read x := by
  simp only [State.memStore]
  split
  · next h => split <;> simp_all
  · next old h =>
    split
    · next e => subst e; simp [h, Memory.read_write_same]
    · next e => exact Memory.read_write_other e _ _

/-- The ports after a host store: each as before, but for what a SEND in progress remembers. -/
theorem memStore_port (s : State) (a : Word) (v : Byte) (p : PortId) :
    (s.memStore a v).port p = s.port p ∨
      ∃ old, (s.memStore a v).port p = { s.port p with stale := (a.toNat, old) :: (s.port p).stale } := by
  simp only [State.memStore]
  split
  · exact .inl rfl
  · next old _ =>
    simp only [State.port, List.getElem?_map]
    cases s.ports[p.val]? with
    | none => exact .inl rfl
    | some q =>
      simp only [Option.map_some, Option.getD_some, Port.rememberStale]
      split
      · exact .inr ⟨old, rfl⟩
      · exact .inl rfl

/-! ### TXBUF -/

theorem txWrite_some {buf : List Byte} {i : Nat} (h : i < buf.length) (v : Byte) : txWrite buf i v = some (buf.set i v) := by
  simp [txWrite, h]

/-- Everything a run of writes does when it succeeds: the length stays, the written indices hold the bytes, the others stay. -/
theorem txWriteAll_some {vs : List Byte} {buf buf' : List Byte} {i : Nat} (h : txWriteAll buf i vs = some buf') :
    buf'.length = buf.length ∧
      ∀ k, buf'[k]? = if i ≤ k ∧ k < i + vs.length then vs[k - i]? else buf[k]? := by
  induction vs generalizing buf i with
  | nil =>
    simp only [txWriteAll, Option.some.injEq] at h
    subst h
    exact ⟨rfl, fun k => by rw [if_neg (by simp)]⟩
  | cons v vs ih =>
    simp only [txWriteAll, txWrite] at h
    split at h
    · cases h
    · next b hb =>
      split at hb
      · next hi =>
        cases hb
        obtain ⟨hl, hk⟩ := ih h
        refine ⟨by simpa using hl, fun k => ?_⟩
        rw [hk k]
        simp only [List.length_cons]
        by_cases h1 : k = i
        · subst h1
          rw [if_neg (by omega), if_pos (by omega)]
          simp [hi]
        · by_cases h2 : i + 1 ≤ k ∧ k < i + 1 + vs.length
          · rw [if_pos h2, if_pos (by omega)]
            obtain ⟨d, rfl⟩ : ∃ d, k = i + 1 + d := ⟨k - (i + 1), by omega⟩
            have e1 : i + 1 + d - (i + 1) = d := by omega
            have e2 : i + 1 + d - i = d + 1 := by omega
            rw [e1, e2, List.getElem?_cons_succ]
          · rw [if_neg h2, if_neg (by omega), List.getElem?_set_ne (by omega)]
      · cases hb

/-- A run of writes succeeds when its last index is in range. -/
theorem txWriteAll_isSome {vs : List Byte} {buf : List Byte} {i : Nat} (h : i + vs.length ≤ buf.length) :
    ∃ buf', txWriteAll buf i vs = some buf' := by
  induction vs generalizing buf i with
  | nil => exact ⟨buf, rfl⟩
  | cons v vs ih =>
    simp only [List.length_cons] at h
    simp only [txWriteAll, txWrite_some (show i < buf.length by omega)]
    exact ih (by simp; omega)

/-- A step that writes TXBUF either faults or changes TXBUF and nothing else of `s`. -/
theorem withTx_next {s t : State} {b : Option (List Byte)} (h : s.withTx b = .next t) :
    ∃ buf, b = some buf ∧ t = { s with txbuf := buf } := by
  cases b with
  | none => cases h
  | some buf => cases h; exact ⟨buf, rfl, rfl⟩

theorem encByte_length (t : Patterns) (x : Byte) : (encByte t x).length = 4 := rfl

theorem encPixel_length (t : Patterns) (x : Rgb) : (encPixel t x).length = 12 := rfl

/-! ### The wire log -/

theorem onLastFrame_append (f : Frame → Frame) (xs : List Frame) (x : Frame) :
    onLastFrame f (xs ++ [x]) = xs ++ [f x] := by
  induction xs with
  | nil => rfl
  | cons y ys ih =>
    cases ys with
    | nil => rfl
    | cons z zs => simpa [onLastFrame] using ih

theorem onLastFrame_getLast? (f : Frame → Frame) (xs : List Frame) :
    (onLastFrame f xs).getLast? = xs.getLast?.map f := by
  rcases List.eq_nil_or_concat xs with rfl | ⟨ys, y, rfl⟩
  · rfl
  · simp [List.concat_eq_append, onLastFrame_append]

@[simp] theorem openFrame_isOpen (w : Wire) : w.openFrame.isOpen = true := rfl
@[simp] theorem openFrame_frames (w : Wire) : w.openFrame.frames = w.frames ++ [⟨[], false⟩] := rfl
@[simp] theorem emit_isOpen (w : Wire) (b : Byte) : (w.emit b).isOpen = w.isOpen := rfl
@[simp] theorem emit_getLast? (w : Wire) (b : Byte) :
    (w.emit b).frames.getLast? = w.frames.getLast?.map (fun f => { f with bytes := f.bytes ++ [b] }) :=
  onLastFrame_getLast? _ _
@[simp] theorem closeFrame_isOpen (w : Wire) : w.closeFrame.isOpen = false := rfl
@[simp] theorem closeFrame_frames (w : Wire) : w.closeFrame.frames = w.frames := rfl
@[simp] theorem resetClose_isOpen (w : Wire) : w.resetClose.isOpen = false := by
  simp only [Wire.resetClose]
  split <;> simp_all

end Sys2Proof.Machine
end

