-- ==== Sys2Proof/Laws/PerInstr.lean ====
section
/-! SUPPORT. Statements for all commands, one lemma per constructor. Family RowMatch: the encoded word has the fixed bits of the
command's row of the opcode table (mask 0x0000FFFF; match 0x00000001 for SETLEN, 0x00000002 for SEND). -/

namespace Sys2Proof.Laws.RowMatch

/-- The match value of the command's row. -/
def row : Instr → Word
  | .setlen _ _ => 0x00000001#32
  | .send _ _ => 0x00000002#32

def Statement (i : Instr) : Prop := (encode i).extractLsb' 0 16 = (row i).extractLsb' 0 16

theorem setlen (p : PortId) (n : Half) : Statement (.setlen p n) := by
  unfold Statement row encode
  ext k hk
  simp [opCode, show k < 16 by omega, show k < 32 by omega]

theorem send (p : PortId) (n : Half) : Statement (.send p n) := by
  unfold Statement row encode
  ext k hk
  simp [opCode, show k < 16 by omega, show k < 32 by omega]
  interval_cases k <;> rfl

end Sys2Proof.Laws.RowMatch
end

