-- ==== Sys2Proof/Laws/Schedule.lean ====
section
/-! SUPPORT. What one step can do: firing, the choice of the step, and host accesses, each inverted once. -/

namespace Sys2Proof.Machine

/-! ### The choice and the firing -/

/-- The step in which `a` is chosen is the firing of `a`. -/
theorem step_chosen (a : Action) (s : State) : step (chosen a s) = fire Config.chip a s := rfl

theorem fire_enabled {a : Action} {s : State} (h : enabled s a = true) (c : Config) : fire c a s = effect c s a := by
  simp [fire, h]

theorem fire_disabled {a : Action} {s : State} (h : enabled s a = false) (c : Config) : fire c a s = .next s := by
  simp [fire, h]

/-- Firing that answers a next state: the agent held, or its step was enabled and took effect. -/
theorem fire_cases {c : Config} {a : Action} {s t : State} (h : fire c a s = .next t) :
    (enabled s a = false ∧ t = s) ∨ (enabled s a = true ∧ effect c s a = .next t) := by
  unfold fire at h
  split at h
  · next e => exact .inr ⟨e, h⟩
  · next e => cases h; exact .inl ⟨by simpa using e, rfl⟩

/-- Using up a choice changes the schedule and the draw counter only. -/
theorem consume_eq (s : State) : ∃ l k, consume s = { s with sched := l, draws := k } := by
  unfold consume
  split
  · exact ⟨_, _, rfl⟩
  · exact ⟨s.sched, _, rfl⟩

/-- Whether a step is enabled does not depend on the schedule. -/
theorem enabled_sched (s : State) (a : Action) (l : List Action) (k : Nat) :
    enabled { s with sched := l, draws := k } a = enabled s a := by cases a <;> rfl

theorem inPhase_iff (s : State) (p : PortId) (ph : Phase) :
    inPhase s p ph = true ↔ s.hasPort p = true ∧ (s.port p).phase = ph := by
  simp [inPhase]

/-! ### Host accesses -/

/-- Everything a host write of a register can do to port `p`, whose state is `q`: set PIX_BASE or DELAY, drop a command, accept one, or
end an illegal one. -/
inductive HostPortChange (p : PortId) (q : Port) : Reg → Port → Prop where
  | pixBase (v : Word) : HostPortChange p q (.pixBase p) { q with pixBase := v }
  | delay (v : Word) : HostPortChange p q (.delay p) { q with delay := v }
  | drop (h : q.accepts = false) : HostPortChange p q (.cmd p) q.drop
  | accept (h : q.accepts = true) (op : Op) (n : Half) : HostPortChange p q (.cmd p) (Port.acceptOp op n q.beginCommand)
  | illegal (h : q.accepts = true) : HostPortChange p q (.cmd p) (q.beginCommand.finish .errIllegal)

theorem writeCmdReg_cases {p : PortId} {w : Word} {s t : State} (hp : s.hasPort p = true)
    (h : writeCmdReg p w s = .next t) : ∃ q, HostPortChange p (s.port p) (.cmd p) q ∧ t = s.setPort p q := by
  unfold writeCmdReg at h
  split at h
  · next ha =>
    have hw : ∀ f w', writeCommand p w' f s = s.setPort p (f (s.port p).beginCommand) := by
      intro f w'; simp [writeCommand, hp, ha]
    split at h
    · next i hi =>
      have hport : i.port = p := by
        unfold decode at hi
        split at hi <;> [cases hi; split at hi <;> [(cases hi; rfl); split at hi <;> [(cases hi; rfl); cases hi]]]
      cases i with
      | setlen x n =>
        obtain rfl : p = x := hport.symm
        simp only [exec, execSetlen, hw] at h
        cases h
        exact ⟨_, .accept ha .setlen n, rfl⟩
      | send x n =>
        obtain rfl : p = x := hport.symm
        simp only [exec, execSend, hw] at h
        cases h
        exact ⟨_, .accept ha .send n, rfl⟩
    · simp only [illegalCommand, hw] at h
      cases h
      exact ⟨_, .illegal ha, rfl⟩
  · next ha =>
    cases h
    exact ⟨_, .drop (by simpa using ha), rfl⟩

theorem portReg_port {p : PortId} {k : Nat} {r : Reg} (h : portReg p k = some r) : r.port? = some p := by
  unfold portReg at h
  repeat' split at h
  all_goals cases h
  all_goals rfl

theorem target_present {a : HostAccess} {s : State} {r : Reg} (h : a.target s = some r) : r.present s = true := by
  unfold HostAccess.target at h
  split at h
  · split at h
    · split at h
      · next hp => cases h; exact hp
      · cases h
    · cases h
  · cases h

/-- Everything a host access can do: be refused, be a read that is logged, or change the one port it addresses. -/
theorem hostAccess_cases {c : Config} {g : HostId} {a : HostAccess} {s t : State} (h : hostAccess c g a s = .next t) :
    t = s.refuse g a ∨ (∃ v, t = { s with reads := s.reads ++ [⟨g, a.off, v⟩] }) ∨
      ∃ p r q, s.hasPort p = true ∧ a.kind = .write ∧ a.target s = some r ∧ HostPortChange p (s.port p) r q ∧
        t = s.setPort p q := by
  unfold hostAccess at h
  split at h
  · unfold regRead at h
    split at h
    · cases h; exact .inl rfl
    · split at h
      · cases h; exact .inl rfl
      · next v _ => cases h; exact .inr (.inl ⟨v, rfl⟩)
  · next hk =>
    unfold regWrite at h
    split at h
    · next p ht =>
      have hp : s.hasPort p = true := target_present ht
      obtain ⟨q, hq, rfl⟩ := writeCmdReg_cases hp h
      exact .inr (.inr ⟨p, _, q, hp, hk, ht, hq, rfl⟩)
    · next p ht => cases h; exact .inr (.inr ⟨p, _, _, target_present ht, hk, ht, .pixBase _, rfl⟩)
    · next p ht => cases h; exact .inr (.inr ⟨p, _, _, target_present ht, hk, ht, .delay _, rfl⟩)
    all_goals cases h; exact .inl rfl

/-- A host access never stops the machine. -/
theorem hostAccess_next (c : Config) (h : HostId) (a : HostAccess) (s : State) : ∃ t, hostAccess c h a s = .next t := by
  unfold hostAccess
  split
  · exact ⟨_, rfl⟩
  · unfold regWrite writeCmdReg
    split
    · split
      · split
        · next i _ => cases i <;> exact ⟨_, rfl⟩
        · exact ⟨_, rfl⟩
      · exact ⟨_, rfl⟩
    all_goals exact ⟨_, rfl⟩

/-! ### The steps that write TXBUF -/

/-- Everything FILL does when it answers a next state. -/
theorem fill_cases {c : Config} {p : PortId} {sel : Nat} {s t : State} (h : fill c p sel s = .next t) :
    ((s.memReads (s.port p) (s.port p).pixelAddr)[sel]? = none ∧ t = s) ∨
      ∃ v buf, (s.memReads (s.port p) (s.port p).pixelAddr)[sel]? = some v ∧ fillTx c (s.port p) v s.txbuf = some buf ∧
        t = { s.setPort p ((s.port p).afterFill v) with txbuf := buf } := by
  unfold fill at h
  split at h
  · next e => cases h; exact .inl ⟨e, rfl⟩
  · next v e =>
    obtain ⟨buf, hb, rfl⟩ := withTx_next h
    exact .inr ⟨v, buf, e, hb, rfl⟩

theorem fillTx_length {c : Config} {q : Port} {v : Byte} {buf buf' : List Byte} (h : fillTx c q v buf = some buf') :
    buf'.length = buf.length := by
  unfold fillTx at h
  split at h
  · exact (txWriteAll_some h).1
  · cases h; rfl

/-- Everything DMA_EMIT does when it answers a next state. -/
theorem dmaEmit_cases {s t : State} (h : dmaEmit s = .next t) :
    ∃ b, s.txbuf[s.dmaPos.toNat]? = some b ∧ t = { s with wire := s.wire.emit b, dmaPos := s.dmaPos + 1#32 } := by
  unfold dmaEmit txRead at h
  split at h
  · cases h
  · next b e => cases h; exact ⟨b, e, rfl⟩

/-! ### Every step, inverted once -/

/-- Everything an enabled step can do when it answers a next state: its guard's facts, and the state it leaves. -/
inductive StepEffect (c : Config) (s : State) : Action → State → Prop where
  | refuse (h : HostId) (x : HostAccess) : StepEffect c s (.host h x) (s.refuse h x)
  | read (h : HostId) (x : HostAccess) (v : Word) : StepEffect c s (.host h x) { s with reads := s.reads ++ [⟨h, x.off, v⟩] }
  | hostWrite (h : HostId) (x : HostAccess) (p : PortId) (r : Reg) (q : Port) (hp : s.hasPort p = true) (hk : x.kind = .write)
      (ht : x.target s = some r) (hq : HostPortChange p (s.port p) r q) : StepEffect c s (.host h x) (s.setPort p q)
  | memStore (h : HostId) (x : Word) (v : Byte) : StepEffect c s (.memStore h x v) (s.memStore x v)
  | lockAcq (p : PortId) (hp : s.hasPort p = true) (hph : (s.port p).phase = .lockWait) (hl : s.lockOwner = none) :
      StepEffect c s (.lockAcq p) (lockAcq p s)
  | lockTimeout (p : PortId) (hp : s.hasPort p = true) (hph : (s.port p).phase = .lockWait) :
      StepEffect c s (.lockTimeout p) (s.setPort p (s.port p).goFatal)
  | slSetDone (p : PortId) (hp : s.hasPort p = true) (hph : (s.port p).phase = .slSet) :
      StepEffect c s (.slSet p)
        (State.setPort { s with lenCfg := setlenCount c (s.port p).nreq, init := true, lockOwner := none } p
          (Port.finish .ok { s.port p with j := 0#32 }))
  | slSetGo (p : PortId) (hp : s.hasPort p = true) (hph : (s.port p).phase = .slSet)
      (hz : c.frameLen (setlenCount c (s.port p).nreq) ≠ 0) :
      StepEffect c s (.slSet p)
        (State.setPort { s with lenCfg := setlenCount c (s.port p).nreq, init := true } p
          { s.port p with j := 0#32, phase := .slWrite })
  | slWriteDone (p : PortId) (buf : List Byte) (hp : s.hasPort p = true) (hph : (s.port p).phase = .slWrite)
      (hj : (s.port p).j.toNat < s.txbuf.length) (hb : buf = s.txbuf.set (s.port p).j.toNat 0#8)
      (hz : ((s.port p).j + 1#32).toNat = c.frameLen s.lenCfg) :
      StepEffect c s (.slWrite p)
        (State.setPort { s with txbuf := buf, lockOwner := none } p (Port.finish .ok { s.port p with j := (s.port p).j + 1#32 }))
  | slWriteGo (p : PortId) (buf : List Byte) (hp : s.hasPort p = true) (hph : (s.port p).phase = .slWrite)
      (hj : (s.port p).j.toNat < s.txbuf.length) (hb : buf = s.txbuf.set (s.port p).j.toNat 0#8)
      (hz : ((s.port p).j + 1#32).toNat ≠ c.frameLen s.lenCfg) :
      StepEffect c s (.slWrite p) (State.setPort { s with txbuf := buf } p { s.port p with j := (s.port p).j + 1#32 })
  | checkOk (p : PortId) (hp : s.hasPort p = true) (hph : (s.port p).phase = .check) (hi : s.init = true) :
      StepEffect c s (.check p)
        (s.setPort p { s.port p with n := sendCount (s.port p).nreq s.lenCfg, i := 0#32, phase := .poll })
  | checkInvalid (p : PortId) (hp : s.hasPort p = true) (hph : (s.port p).phase = .check) (hi : s.init = false) :
      StepEffect c s (.check p) (State.setPort { s with lockOwner := none } p ((s.port p).finish .errInvalid))
  | poll (p : PortId) (hp : s.hasPort p = true) (hph : (s.port p).phase = .poll) (hb : s.busy = false) :
      StepEffect c s (.poll p) (poll p s)
  | pollGiveup (p : PortId) (hp : s.hasPort p = true) (hph : (s.port p).phase = .poll) (hb : s.busy = true) :
      StepEffect c s (.pollGiveup p) (State.setPort { s with lockOwner := none } p ((s.port p).finish .errBusy))
  | fill (p : PortId) (sel : Nat) (v : Byte) (buf : List Byte) (hp : s.hasPort p = true) (hph : (s.port p).phase = .fill)
      (hv : (s.memReads (s.port p) (s.port p).pixelAddr)[sel]? = some v) (hb : fillTx c (s.port p) v s.txbuf = some buf) :
      StepEffect c s (.fill p sel) (State.setPort { s with txbuf := buf } p ((s.port p).afterFill v))
  | tail (p : PortId) (buf : List Byte) (hp : s.hasPort p = true) (hph : (s.port p).phase = .tail)
      (hb : txWriteAll s.txbuf (12 * (s.port p).n.toNat)
        (List.replicate (c.frameLen s.lenCfg - 12 * (s.port p).n.toNat) 0#8) = some buf) :
      StepEffect c s (.tail p) (State.setPort { s with txbuf := buf } p { s.port p with phase := .kick })
  | kick (p : PortId) (hp : s.hasPort p = true) (hph : (s.port p).phase = .kick) :
      StepEffect c s (.kick p)
        (State.setPort { s with
          dmaPos := 0#32, dmaLen := BitVec.ofNat 32 (c.frameLen s.lenCfg), dmaState := .run, busy := true
          wire := s.wire.openFrame, lockOwner := none } p { s.port p with phase := .evtWait })
  | evtTake (p : PortId) (hp : s.hasPort p = true) (hph : (s.port p).phase = .evtWait) (he : s.evt = true) :
      StepEffect c s (.evtTake p) (State.setPort { s with evt := false } p ((s.port p).finish .ok))
  | evtTimeout (p : PortId) (hp : s.hasPort p = true) (hph : (s.port p).phase = .evtWait) (he : s.evt = false) :
      StepEffect c s (.evtTimeout p) (s.setPort p ((s.port p).finish .errTimeout))
  | dmaEmit (b : Byte) (hr : s.dmaState = .run) (hlt : s.dmaPos.toNat < s.dmaLen.toNat)
      (hb : s.txbuf[s.dmaPos.toNat]? = some b) :
      StepEffect c s .dmaEmit { s with wire := s.wire.emit b, dmaPos := s.dmaPos + 1#32 }
  | dmaEnd (hr : s.dmaState = .run) (he : s.dmaPos = s.dmaLen) : StepEffect c s .dmaEnd (dmaEnd s)
  | dmaIdle (hd : s.dmaState = .drain) : StepEffect c s .dmaIdle (dmaIdle s)
  | chTake (hi : s.irqPend = true) : StepEffect c s .chTake (chTake s)
  | reset : StepEffect c s .reset (resetEvent c s)

/-- The inversion of a step that fired. -/
theorem effect_cases {c : Config} {s t : State} {a : Action} (he : enabled s a = true) (hf : effect c s a = .next t) :
    StepEffect c s a t := by
  cases a with
  | host h x =>
    rcases hostAccess_cases hf with rfl | ⟨v, rfl⟩ | ⟨p, r, q, hp, hk, ht, hq, rfl⟩
    · exact .refuse h x
    · exact .read h x v
    · exact .hostWrite h x p r q hp hk ht hq
  | memStore h x v => cases hf; exact .memStore h x v
  | lockAcq p =>
    cases hf
    simp only [enabled, Bool.and_eq_true, inPhase_iff, Option.isNone_iff_eq_none] at he
    exact .lockAcq p he.1.1 he.1.2 he.2
  | lockTimeout p =>
    cases hf
    simp only [enabled, Bool.and_eq_true, inPhase_iff] at he
    exact .lockTimeout p he.1.1 he.1.2
  | slSet p =>
    simp only [enabled, inPhase_iff] at he
    simp only [effect, slSet] at hf
    split at hf
    · cases hf; exact .slSetDone p he.1 he.2
    · next hz => cases hf; exact .slSetGo p he.1 he.2 hz
  | slWrite p =>
    simp only [enabled, inPhase_iff] at he
    obtain ⟨buf, hb, rfl⟩ := withTx_next hf
    unfold txWrite at hb
    split at hb
    · next hj =>
      cases hb
      split
      · next hz => exact .slWriteDone p _ he.1 he.2 hj rfl hz
      · next hz => exact .slWriteGo p _ he.1 he.2 hj rfl hz
    · cases hb
  | check p =>
    simp only [enabled, inPhase_iff] at he
    simp only [effect, check] at hf
    split at hf
    · next hi => cases hf; exact .checkOk p he.1 he.2 hi
    · next hi => cases hf; exact .checkInvalid p he.1 he.2 (by simpa using hi)
  | poll p =>
    cases hf
    simp only [enabled, Bool.and_eq_true, inPhase_iff, Bool.not_eq_true'] at he
    exact .poll p he.1.1 he.1.2 he.2
  | pollGiveup p =>
    cases hf
    simp only [enabled, Bool.and_eq_true, inPhase_iff] at he
    exact .pollGiveup p he.1.1 he.1.2 he.2
  | fill p sel =>
    simp only [enabled, Bool.and_eq_true, inPhase_iff, decide_eq_true_eq] at he
    rcases fill_cases hf with ⟨hn, -⟩ | ⟨v, buf, hv, hb, rfl⟩
    · exact absurd he.2 (by simpa using hn)
    · exact .fill p sel v buf he.1.1 he.1.2 hv hb
  | tail p =>
    simp only [enabled, inPhase_iff] at he
    obtain ⟨buf, hb, rfl⟩ := withTx_next hf
    exact .tail p buf he.1 he.2 hb
  | kick p =>
    cases hf
    simp only [enabled, inPhase_iff] at he
    exact .kick p he.1 he.2
  | evtTake p =>
    cases hf
    simp only [enabled, Bool.and_eq_true, inPhase_iff] at he
    exact .evtTake p he.1.1 he.1.2 he.2
  | evtTimeout p =>
    cases hf
    simp only [enabled, Bool.and_eq_true, inPhase_iff, Bool.not_eq_true'] at he
    exact .evtTimeout p he.1.1 he.1.2 he.2
  | dmaEmit =>
    simp only [enabled, Bool.and_eq_true, decide_eq_true_eq] at he
    obtain ⟨b, hb, rfl⟩ := dmaEmit_cases hf
    exact .dmaEmit b he.1 he.2 hb
  | dmaEnd =>
    cases hf
    simp only [enabled, Bool.and_eq_true, decide_eq_true_eq] at he
    exact .dmaEnd he.1 he.2
  | dmaIdle =>
    cases hf
    simp only [enabled, decide_eq_true_eq] at he
    exact .dmaIdle he
  | chTake => cases hf; exact .chTake he
  | reset => cases hf; exact .reset

/-- One step of the machine: the choice is used up, and then either the chosen agent holds or its step fires. -/
theorem step_cases {s t : State} (h : step s = .next t) :
    ∃ l k, t = { s with sched := l, draws := k } ∨
      (enabled s (nextAction s) = true ∧ StepEffect Config.chip { s with sched := l, draws := k } (nextAction s) t) := by
  obtain ⟨l, k, e⟩ := consume_eq s
  refine ⟨l, k, ?_⟩
  have h' : fire Config.chip (nextAction s) { s with sched := l, draws := k } = .next t := by rw [← e]; exact h
  rcases fire_cases h' with ⟨-, rfl⟩ | ⟨he, hf⟩
  · exact .inl rfl
  · exact .inr ⟨by rw [← enabled_sched s _ l k]; exact he, effect_cases he hf⟩

end Sys2Proof.Machine
end

