-- ==== Sys2Proof/Laws/Runs.lean ====
section
/-! SUPPORT. What the end of a run (R19) comes to: after it, nothing changes until a reset. -/

namespace Sys2Proof.Machine

/-- In a quiet state no step of the block is enabled. -/
theorem quiet_disables_block {s : State} (hq : quiet s) {a : Action} (ha : a.ofBlock = true) : enabled s a = false := by
  obtain ⟨hph, hd, hi⟩ := hq
  have hin : ∀ (p : PortId) (ph : Phase), ph ≠ .idle → ph ≠ .fatal → inPhase s p ph = false := by
    intro p ph h1 h2
    rcases hph p with h | h <;> simp [inPhase, h, h1.symm, h2.symm]
  cases a with
  | host _ _ | memStore _ _ _ | reset => cases ha
  | chTake => exact hi
  | dmaEmit | dmaEnd | dmaIdle => simp [enabled, hd]
  | _ => simp [enabled, hin]

/-- A run that has ended stays as it is, as long as the platform does not reset the block. -/
theorem ended_run_stays {c : Config} {acts : Nat → Action} {r : Nat → State} (hr : IsRun c acts r) {k : Nat}
    (he : atEndOfRun acts r k) (hn : ∀ m, k ≤ m → acts m ≠ .reset) (j : Nat) : r (k + j) = r k := by
  induction j with
  | zero => rfl
  | succ j ih =>
    have hoff : enabled (r (k + j)) (acts (k + j)) = false := by
      by_cases hh : (acts (k + j)).ofHost = true
      · exact he.2 _ (Nat.le_add_right k j) hh
      · refine quiet_disables_block (ih ▸ he.1) ?_
        have := hn _ (Nat.le_add_right k j)
        cases h : acts (k + j) <;> simp_all [Action.ofHost, Action.ofBlock]
    have hf := hr (k + j)
    rw [fire_disabled hoff] at hf
    exact (Host.Outcome.next.inj hf).symm.trans ih

end Sys2Proof.Machine
end

