-- ==== Sys2Proof/Tests/Slice0.lean ====
section
/-! SUPPORT. The model's own tests. The expected values are those of `95_test_vectors.md` (named by section) or of the rule named; the
configuration of the tests is the reference instance of R8, and where a test runs `step`, the unknown `Config.chip`. After them, for
every statement with hypotheses, a witness: states and operands that meet them together. -/

namespace Sys2Proof.Tests

open Sys2Proof.Machine

/-! ### Decoding: words written out bit by bit from R67 and R68 -/

/-- 2.4: SETLEN 0, 2: ARG 0x0002, RSV 0, OP 0x1. -/
theorem test_decode_setlen : decode 0 0b0000000000000010_000000000000_0001#32 = .command (.setlen 0 2#16) := by decide

/-- 2.4: SETLEN 1, 65535. -/
theorem test_decode_setlen_max : decode 1 0b1111111111111111_000000000000_0001#32 = .command (.setlen 1 65535#16) := by decide

/-- 2.4: SEND 0, 1: ARG 0x0001, RSV 0, OP 0x2. -/
theorem test_decode_send : decode 0 0b0000000000000001_000000000000_0010#32 = .command (.send 0 1#16) := by decide

/-- R67: bit 31 is the top bit of ARG, bit 16 its bottom bit. -/
theorem test_decode_send_ends : decode 3 0b1000000000000001_000000000000_0010#32 = .command (.send 3 0x8001#16) := by decide

/-- R68: OP 0x0, 0x3 and 0xF are reserved. -/
theorem test_decode_reserved_op :
    decode 0 0b0000000000000000_000000000000_0000#32 = .illegal .reservedOp ∧
    decode 0 0b0000000000000001_000000000000_0011#32 = .illegal .reservedOp ∧
    decode 0 0b0000000000000001_000000000000_1111#32 = .illegal .reservedOp := by decide

/-- R70: the lowest and the highest RSV bit, whatever OP is. -/
theorem test_decode_reserved_bits :
    decode 0 0b0000000000000001_000000000001_0010#32 = .illegal .reservedBits ∧
    decode 0 0b0000000000000001_100000000000_0001#32 = .illegal .reservedBits := by decide

/-- R73: the words of SETLEN 0, 9 and SEND 0, 3. -/
theorem test_encode : encode (.setlen 0 9#16) = 0x00090001#32 ∧ encode (.send 0 3#16) = 0x00030002#32 := by decide

/-- The rows of the opcode table, with ARG = 2, and a reserved word. -/
theorem test_decode_table_word :
    decodeTableWord 32 0x00020001 = some (.setlen 0 2#16) ∧ decodeTableWord 32 0x00020002 = some (.send 0 2#16) ∧
    decodeTableWord 32 0x00020003 = none := by decide

/-- The word of the opcode table runs as the first command after reset. -/
theorem test_fetch_word_runs :
    step (State.reset.withFetchWord 32 0x00020001) = exec (.setlen 0 2#16) State.reset ∧
    step (State.reset.withFetchWord 32 0x00020002) = exec (.send 0 2#16) State.reset := ⟨rfl, rfl⟩

/-- WellFormed: the one check refuses a port that is not there (NPORTS = 2) and takes one that is. -/
theorem test_well_formed :
    (Instr.setlen 2 0#16).wellFormed Config.reference = false ∧ (Instr.send 14 65535#16).wellFormed Config.reference = false ∧
    (Instr.setlen 1 65535#16).wellFormed Config.reference = true ∧ (Instr.send 0 0#16).wellFormed Config.reference = true := by
  decide

/-! ### Small states -/

/-- The reference instance, configured with length 2, port 0 in the state `q`. -/
def small (q : Port) : State :=
  { State.resetWith Config.reference with ports := [q, Port.reset], lenCfg := 2#16, init := true, txbuf := List.replicate 50 0x55#8 }

/-- A port with a command in progress, in phase `ph`. -/
def busyPort (op : Op) (ph : Phase) : Port := { Port.reset with op := some op, active := true, phase := ph }

/-- `small`, with port 0 in a phase that holds the lock. -/
def holding (q : Port) : State := { small q with lockOwner := some 0 }

/-- What a test looks at in the state that a step leaves. -/
def after {α : Type} (o : Out) (look : State → α) : Option α :=
  match o with
  | .next t => some (look t)
  | .fault _ | .refused _ => none

/-! ### Steps: expected values from `95_test_vectors.md` -/

/-- 2.8: an accepted SEND 1, 1 shows 0x101. -/
theorem test_accept_send : after (exec (.send 1 1#16) (small Port.reset)) (fun t => (t.port 1).statusWord) = some 0x101#32 := by decide

/-- 2.9: a CMD write in EVT_WAIT is dropped, 0x701 to 0x721; in FATAL (2.8), 0xF40 to 0xF60. -/
theorem test_dropped_command :
    after (exec (.setlen 0 1#16) (small (busyPort .send .evtWait))) (fun t => (t.port 0).statusWord) = some 0x721#32 ∧
    after (exec (.send 0 1#16) (small { busyPort .send .fatal with active := false, fatal := true }))
      (fun t => (t.port 0).statusWord) = some 0xF60#32 := by decide

/-- 2.9: a reserved word, from 0x00, gives 0x12. -/
theorem test_illegal_word :
    after (hostAccess Config.reference 0 ⟨.write, 0x000, 32, 0x00000003#32⟩ (small Port.reset)) (fun t => (t.port 0).statusWord)
      = some 0x12#32 := by decide

/-- 2.6: SETLEN 0, 9 is clamped to MAX_LEDS = 4. -/
theorem test_setlen_clamps :
    after (fire Config.reference (.slSet 0) (holding { busyPort .setlen .slSet with nreq := 9#16 })) (fun t => (t.lenCfg, t.init))
      = some (4#16, true) := by decide

/-- 2.6: the last of the 26 SL_WRITE steps of SETLEN 0, 2 ends the command (0x02) and frees the lock (HWSTAT 0xF08). -/
theorem test_setlen_last_write :
    after (fire Config.reference (.slWrite 0) (holding { busyPort .setlen .slWrite with j := 25#32 }))
      (fun t => ((t.port 0).statusWord, t.hwstatWord, t.txbuf[25]?, t.txbuf[26]?)) = some (0x02#32, 0xF08#32, some 0x00#8, some 0x55#8) := by
  decide

/-- 2.7: a SEND before any SETLEN ends 0x0A with the lock free. -/
theorem test_send_before_setlen :
    after (fire Config.reference (.check 0) { holding (busyPort .send .check) with init := false })
      (fun t => ((t.port 0).statusWord, t.lockOwner)) = some (0x0A#32, none) := by decide

/-- 2.7 and 2.3: the third byte of the red pixel 00 FF FF writes ENC_PIXEL(255, 0, 0) to TXBUF[0..11]. -/
theorem test_fill_red_pixel :
    after (fire Config.reference (.fill 0 0)
      { holding { busyPort .send .fill with base := 0x1000#32, n := 1#16, i := 2#32, pxH := 0x00#8, pxS := 0xFF#8 } with
        mem := [(0x1002, 0xFF#8)] })
      (fun t => (t.txbuf.take 13, (t.port 0).phase)) =
    some ([0x88#8, 0x88#8, 0x88#8, 0x88#8, 0xEE#8, 0xEE#8, 0xEE#8, 0xEE#8, 0x88#8, 0x88#8, 0x88#8, 0x88#8, 0x55#8], .tail) := by decide

/-- 2.7: with BASE 0xFFFFFFFE the read of address 2^32 is not admitted: the port is stuck in FILL (0x401). -/
theorem test_stuck_fill :
    enabled ({ holding { busyPort .send .fill with base := 0xFFFFFFFE#32, n := 1#16, i := 2#32 } with mem := [(0, 0x77#8)] }) (.fill 0 0)
      = false := by decide

/-- 2.7: LEN_CFG 2 and one pixel: KICK latches 26 bytes; HWSTAT shows BUSY, RUN and INIT and a free lock (0xF19). -/
theorem test_kick :
    after (fire Config.reference (.kick 0) (holding (busyPort .send .kick))) (fun t => (t.dmaLen, t.hwstatWord, (t.port 0).statusWord))
      = some (26#32, 0xF19#32, 0x701#32) := by decide

/-- 2.10: after KICK the first DMA_EMIT leaves DMAPOS 1 and puts TXBUF[0] on the wire. -/
theorem test_dma_emit :
    after (fire Config.reference .dmaEmit
      { small (busyPort .send .evtWait) with dmaState := .run, busy := true, dmaLen := 26#32, wire := ⟨[⟨[], false⟩], true⟩ })
      (fun t => (t.dmaPos, t.wire.frames)) = some (1#32, [⟨[0x55#8], false⟩]) := by decide

/-- 2.5: while DRAIN with the interrupt pending HWSTAT reads 0xF2D; CH_TAKE then gives 0xF2B. -/
theorem test_ch_take :
    State.hwstatWord { small Port.reset with dmaState := .drain, busy := true, irqPend := true } = 0xF2D#32 ∧
    after (fire Config.reference .chTake { small Port.reset with dmaState := .drain, busy := true, irqPend := true })
      (fun t => t.hwstatWord) = some 0xF2B#32 := by decide

/-- 2.7: EVT_TAKE ends OK (0x02), EVT_TIMEOUT 0x06, POLL_GIVEUP 0x0E. -/
theorem test_send_ends :
    after (fire Config.reference (.evtTake 0) { small (busyPort .send .evtWait) with evt := true }) (fun t => (t.port 0).statusWord)
      = some 0x02#32 ∧
    after (fire Config.reference (.evtTimeout 0) (small (busyPort .send .evtWait))) (fun t => (t.port 0).statusWord) = some 0x06#32 ∧
    after (fire Config.reference (.pollGiveup 0) { holding (busyPort .send .poll) with busy := true, dmaState := .run })
      (fun t => (t.port 0).statusWord) = some 0x0E#32 := by decide

/-- 2.12: reset in a transfer closes the frame, marked truncated, and HWSTAT reads 0xF00. -/
theorem test_reset_truncates :
    after (fire Config.reference .reset
      { small (busyPort .send .evtWait) with dmaState := .run, busy := true, dmaPos := 1#32, dmaLen := 26#32
                                             wire := ⟨[⟨[0x88#8], false⟩], true⟩ })
      (fun t => (t.wire, t.hwstatWord, (t.port 0).statusWord)) = some (⟨[⟨[0x88#8], true⟩], false⟩, 0xF00#32, 0x0#32) := by decide

/-- 2.11: refused accesses: RD CMD0, WR STATUS0, RD 0x010, RD 0x040 (port 2 of 2), RD 0x21C, RD 0x006, a 16-bit read of STATUS0. -/
theorem test_refused_accesses :
    ∀ a ∈ [(⟨.read, 0x000, 32, 0#32⟩ : HostAccess), ⟨.write, 0x00C, 32, 0#32⟩, ⟨.read, 0x010, 32, 0#32⟩, ⟨.read, 0x040, 32, 0#32⟩,
        ⟨.read, 0x21C, 32, 0#32⟩, ⟨.read, 0x006, 32, 0#32⟩, ⟨.read, 0x00C, 16, 0#32⟩],
      after (hostAccess Config.reference 3 a (small Port.reset)) (fun t => t.refusals) = some [⟨3, a⟩] := by decide

/-- 2.11 and R125: after a refusal the host takes no further step (log entry 21: the host of that context, here 3) and the block goes on. -/
theorem test_refusal_stops_its_host :
    after (hostAccess Config.reference 3 ⟨.read, 0x000, 32, 0#32⟩ { small Port.reset with irqPend := true })
      (fun t => (enabled t (rdAt 3 0x00C), enabled t (.memStore 3 0#32 0#8), enabled t (rdAt 0 0x00C), enabled t .chTake))
      = some (false, false, true, true) := by decide

/-- R44 for the reference instance: PARAM0, PARAM1 and PARAM2. -/
theorem test_param_words :
    param0Word Config.reference = 0x00020004#32 ∧ param1Word Config.reference = 0xEEE88E88#32 ∧
    param2Word Config.reference = 0x00000002#32 := by decide

/-- 2.1: four rows of CONVERT, the sector edges and the example of R83 among them. -/
theorem test_convert :
    hsv2rgbD 85#8 255#8 255#8 = ⟨3#8, 251#8, 0#8⟩ ∧ hsv2rgbD 171#8 255#8 255#8 = ⟨0#8, 0#8, 255#8⟩ ∧
    hsv2rgbD 100#8 200#8 150#8 = ⟨32#8, 129#8, 52#8⟩ ∧ hsv2rgbD 128#8 128#8 128#8 = ⟨63#8, 95#8, 95#8⟩ := by decide

/-- L1-3: ENC_BYTE(0x93) and its decoding. -/
theorem test_enc_byte :
    encByte Patterns.reference 0x93#8 = [0xE8#8, 0x8E#8, 0x88#8, 0xEE#8] ∧
    decByte Patterns.reference [0xE8#8, 0x8E#8, 0x88#8, 0xEE#8] = some 0x93#8 := by decide

/-! ### Witnesses: statements about one step -/

/-- SetlenIsAccepted, SendIsAccepted, CommandFrame, the first clauses of CommandWriteAcceptsOrDrops, OperandRegisterWrites, and
StoresAfterAcceptanceMayBeUnseen; the port numbers are the two that exist. -/
theorem witness_accepting_port :
    ∀ p : PortId, p.val < 2 → (small Port.reset).hostRuns 1 = true ∧ (small Port.reset).hasPort p = true ∧
      ((small Port.reset).port p).active = false ∧ ((small Port.reset).port p).fatal = false ∧
      ((small Port.reset).port p).accepts = true := by decide

/-- The second clause of CommandWriteAcceptsOrDrops, once for each way a port takes no command. -/
theorem witness_dropping_port :
    (small (busyPort .send .poll)).hostRuns 1 = true ∧ (small (busyPort .send .poll)).hasPort 0 = true ∧
    ((small (busyPort .send .poll)).port 0).active = true ∧
    ((small { busyPort .send .fatal with active := false, fatal := true }).port 0).fatal = true := by decide

/-- DecodeFollowsOpcodeTable: a word for each clause. -/
theorem witness_DecodeFollowsOpcodeTable :
    0x00018001#32 &&& 0x0000FFF0#32 ≠ 0#32 ∧ 0xFFFF0001#32 &&& 0x0000FFFF#32 = 0x00000001#32 ∧
    0x00000002#32 &&& 0x0000FFFF#32 = 0x00000002#32 ∧
    (0x00010003#32 &&& 0x0000FFF0#32 = 0#32 ∧ 0x00010003#32 &&& 0x0000000F#32 ≠ 1#32 ∧ 0x00010003#32 &&& 0x0000000F#32 ≠ 2#32) := by
  decide

/-- DecodeEncodeAgree, second half, and StepRunsDecodedCommand (the state is `small Port.reset`). -/
theorem witness_decoding_word : decode 1 0x00020001#32 = .command (.setlen 1 2#16) ∧ (small Port.reset).hasPort 1 = true ∧
    (small Port.reset).hostRuns 1 = true := by decide

/-- RegisterMapIsOneToOne, last clause, at the first and last offset of a port block and of the shared block. -/
theorem witness_RegisterMapIsOneToOne :
    Reg.ofOffset 0x000 = some (.cmd 0) ∧ Reg.ofOffset 0x1CC = some (.status 14) ∧ Reg.ofOffset 0x200 = some .lenCfg ∧
    Reg.ofOffset 0x218 = some .param2 := by decide

/-- IllegalWordEndsAtOnce: a word of each kind. -/
theorem witness_IllegalWordEndsAtOnce :
    (small Port.reset).hostRuns 1 = true ∧ (small Port.reset).hasPort 0 = true ∧ ((small Port.reset).port 0).active = false ∧
    ((small Port.reset).port 0).fatal = false ∧ 0x00000012#32 &&& 0x0000FFF0#32 ≠ 0#32 ∧
    (0x00000000#32 &&& 0x0000000F#32 ≠ 1#32 ∧ 0x00000000#32 &&& 0x0000000F#32 ≠ 2#32) := by decide

/-- LockIsAcquiredWhenFree and LockTimeoutIsFatal: a waiting port with the lock free, and held. -/
theorem witness_lock_steps :
    (small (busyPort .send .lockWait)).hasPort 0 = true ∧ ((small (busyPort .send .lockWait)).port 0).phase = .lockWait ∧
    (small (busyPort .send .lockWait)).lockOwner = none ∧
    ((State.takeLock (small (busyPort .send .lockWait)) 1).port 0).phase = .lockWait ∧
    (State.takeLock (small (busyPort .send .lockWait)) 1).lockOwner ≠ none := by decide

/-- SetLengthStep, and IdlePatternStep with the first byte to write, when TXBUF has the bytes. -/
theorem witness_setlen_steps :
    (holding (busyPort .setlen .slSet)).hasPort 0 = true ∧ ((holding (busyPort .setlen .slSet)).port 0).phase = .slSet ∧
    (holding (busyPort .setlen .slWrite)).hasPort 0 = true ∧ ((holding (busyPort .setlen .slWrite)).port 0).phase = .slWrite ∧
    ((holding (busyPort .setlen .slWrite)).port 0).j.toNat < 12 * (holding (busyPort .setlen .slWrite)).lenCfg.toNat + Config.chip.resetBytes ∧
    ((holding (busyPort .setlen .slWrite)).port 0).j.toNat < (holding (busyPort .setlen .slWrite)).txbuf.length :=
  ⟨rfl, rfl, rfl, rfl, by show 0 < 24 + _; omega, by decide⟩

/-- The state of `witness_last_write`. -/
def lastWrite : State :=
  { holding { busyPort .setlen .slWrite with j := BitVec.ofNat 32 (11 + Config.chip.resetBytes) } with
    lenCfg := 1#16, txbuf := List.replicate (12 + Config.chip.resetBytes) 0x55#8 }

/-- IdlePatternStep with the last byte to write, whatever RESET_BYTES is. -/
theorem witness_last_write :
    lastWrite.hasPort 0 = true ∧ (lastWrite.port 0).phase = .slWrite ∧
    (lastWrite.port 0).j.toNat + 1 = 12 * lastWrite.lenCfg.toNat + Config.chip.resetBytes ∧
    (lastWrite.port 0).j.toNat < lastWrite.txbuf.length := by
  have hb : Config.chip.resetBytes < 65536 := Config.chip.gapBytes.isLt
  have hj : (BitVec.ofNat 32 (11 + Config.chip.resetBytes)).toNat = 11 + Config.chip.resetBytes := by
    simp only [BitVec.toNat_ofNat]; omega
  refine ⟨rfl, rfl, ?_, ?_⟩
  · show (BitVec.ofNat 32 (11 + Config.chip.resetBytes)).toNat + 1 = 12 * 1 + Config.chip.resetBytes
    omega
  · show (BitVec.ofNat 32 (11 + Config.chip.resetBytes)).toNat < (List.replicate (12 + Config.chip.resetBytes) 0x55#8).length
    rw [List.length_replicate]; omega

/-- BufferCheckStep, each clause. -/
theorem witness_BufferCheckStep :
    (holding (busyPort .send .check)).hasPort 0 = true ∧ ((holding (busyPort .send .check)).port 0).phase = .check ∧
    (holding (busyPort .send .check)).init = true ∧ State.init { holding (busyPort .send .check) with init := false } = false := by
  decide

/-- BusyPollStep and PollGiveupStep, each clause. -/
theorem witness_poll_steps :
    (holding (busyPort .send .poll)).hasPort 0 = true ∧ ((holding (busyPort .send .poll)).port 0).phase = .poll ∧
    (holding (busyPort .send .poll)).busy = false ∧
    State.busy { holding (busyPort .send .poll) with busy := true } = true := by decide

/-- A port in FILL at byte `k` of one pixel at 0x1000, with that pixel in memory. -/
def filling (k : Word) : State :=
  { holding { busyPort .send .fill with base := 0x1000#32, n := 1#16, i := k } with
    mem := [(0x1000, 0xAB#8), (0x1001, 0xFF#8), (0x1002, 0xFF#8)] }

/-- FillStep: the hue byte, and the value byte of the last pixel. -/
theorem witness_FillStep :
    (filling 0#32).hasPort 0 = true ∧ ((filling 0#32).port 0).phase = .fill ∧ 0 < 3 * ((filling 0#32).port 0).n.toNat ∧
    ((filling 0#32).memReads ((filling 0#32).port 0) (0x1000 + 0))[0]? = some 0xAB#8 ∧ 0 % 3 ≠ 2 ∧
    ((filling 2#32).port 0).i.toNat = 2 ∧ 2 < 3 * ((filling 2#32).port 0).n.toNat ∧
    ((filling 2#32).memReads ((filling 2#32).port 0) (0x1000 + 2))[0]? = some 0xFF#8 ∧
    12 * (2 / 3) + 12 ≤ (filling 2#32).txbuf.length := by decide

/-- The state of `witness_TailStep`. -/
def tailing : State :=
  { holding (busyPort .send .tail) with txbuf := List.replicate (24 + Config.chip.resetBytes) 0x55#8 }

/-- TailStep: a TXBUF of exactly the frame length. -/
theorem witness_TailStep :
    tailing.hasPort 0 = true ∧ (tailing.port 0).phase = .tail ∧
    12 * tailing.lenCfg.toNat + Config.chip.resetBytes ≤ tailing.txbuf.length := by
  refine ⟨rfl, rfl, ?_⟩
  show 24 + Config.chip.resetBytes ≤ (List.replicate (24 + Config.chip.resetBytes) 0x55#8).length
  rw [List.length_replicate]

/-- KickStep, EventTakeStep and EventTimeoutStep, each clause. -/
theorem witness_send_end_steps :
    (holding (busyPort .send .kick)).hasPort 0 = true ∧ ((holding (busyPort .send .kick)).port 0).phase = .kick ∧
    (small (busyPort .send .evtWait)).hasPort 0 = true ∧ ((small (busyPort .send .evtWait)).port 0).phase = .evtWait ∧
    (small (busyPort .send .evtWait)).evt = false ∧
    State.evt { small (busyPort .send .evtWait) with evt := true } = true := by decide

/-- A transfer of one byte that has emitted it or not. -/
def transfer (pos : Word) (sent : List Byte) : State :=
  { small (busyPort .send .evtWait) with
    dmaState := .run, busy := true, dmaPos := pos, dmaLen := 1#32, wire := ⟨[⟨sent, false⟩], true⟩ }

/-- DmaEmitStep, TransferEndSteps and TransferPutsBufferOnWire. -/
theorem witness_transfer_steps :
    (transfer 0#32 []).dmaState = .run ∧ (transfer 0#32 []).dmaPos.toNat < (transfer 0#32 []).dmaLen.toNat ∧
    txRead (transfer 0#32 []).txbuf 0 = some 0x55#8 ∧ (transfer 0#32 []).wire.frames = [] ++ [⟨[], false⟩] ∧
    (transfer 0#32 []).dmaPos = 0#32 ∧ (transfer 0#32 []).dmaLen.toNat ≤ (transfer 0#32 []).txbuf.length ∧
    (transfer 0#32 []).wire = ⟨[] ++ [⟨[], false⟩], true⟩ ∧
    (transfer 1#32 [0x55#8]).dmaPos = (transfer 1#32 [0x55#8]).dmaLen ∧
    State.dmaState { small Port.reset with dmaState := .drain } = .drain ∧
    State.irqPend { small Port.reset with irqPend := true } = true ∧ (small Port.reset).irqPend = false := by decide

/-- ResetStep, the clauses about the wire log. -/
theorem witness_ResetStep :
    (small Port.reset).wire.isOpen = false ∧ (transfer 0#32 []).wire = ⟨[] ++ [⟨[], false⟩], true⟩ := by decide

/-- MeaninglessAccessIsRefused: an access of each kind (0x040 is the block of an absent port), and a context beside the refused one. -/
theorem witness_MeaninglessAccessIsRefused :
    (small Port.reset).hostRuns 1 = true ∧ (16 : Nat) ≠ 32 ∧ 0x006 % 4 ≠ 0 ∧ Reg.present (small Port.reset) (.cmd 2) = false ∧
    (Reg.cmd 2).offset = 0x040 ∧ Reg.ofOffset 0x010 = none ∧ (Reg.cmd 14).offset = 0x1C0 ∧ (Reg.status 14).offset = 0x1CC ∧
    0x200 ≤ (Reg.lenCfg).offset ∧ (1 : HostId) ≠ 0 := by decide

/-- RegisterReadReturnsValue: the two ports that exist. -/
theorem witness_RegisterReadReturnsValue :
    (small Port.reset).hostRuns 1 = true ∧ (small Port.reset).hasPort 0 = true ∧ 0 = 0x20 * (0 : PortId).val ∧
    (small Port.reset).hasPort 1 = true ∧ 0x20 = 0x20 * (1 : PortId).val := ⟨rfl, rfl, rfl, rfl, rfl⟩

/-- 2.6 and R25: LENCFG, DELAY_1 and STATUS_0 as a host of context 2 reads them. -/
theorem test_register_reads :
    after (hostAccess Config.reference 2 ⟨.read, 0x200, 32, 0#32⟩ (small Port.reset)) (fun t => t.reads) = some [⟨2, 0x200, 2#32⟩] ∧
    after (hostAccess Config.reference 2 ⟨.read, 0x028, 32, 0#32⟩ ((small Port.reset).setPort 1 { Port.reset with delay := 7#32 }))
      (fun t => t.reads) = some [⟨2, 0x028, 7#32⟩] ∧
    after (hostAccess Config.reference 2 ⟨.read, 0x00C, 32, 0#32⟩ (small (busyPort .send .evtWait))) (fun t => t.reads) =
      some [⟨2, 0x00C, 0x701#32⟩] := by decide

/-- StoresAfterAcceptanceMayBeUnseen, second half. -/
theorem witness_StoresAfterAcceptanceMayBeUnseen :
    (filling 0#32).hostRuns 1 = true ∧ ((filling 0#32).port 0).op = some .send ∧
    (filling 0#32).mem.read (0x1002#32).toNat = some 0xFF#8 := by
  decide

/-- DisabledStepHolds. -/
theorem witness_DisabledStepHolds : enabled (small Port.reset) .chTake = false := by decide

/-- HostMemoryReadOnlyByFill, WireIsReadByNoStep, and DelayIsReadByNoStep: a step that fires. -/
theorem witness_one_step : ∃ t, step (chosen (.kick 0) (holding (busyPort .send .kick))) = .next t ∧ t.busy = true := ⟨_, rfl, rfl⟩

/-- The state of `witness_MarksLastUntilReset`. -/
def marked : State :=
  { small { busyPort .send .fatal with active := false, fatal := true } with
    refusals := [⟨1, .read, 0x000, 32, 0#32⟩], irqPend := true, sched := [.chTake] }

/-- MarksLastUntilReset: a step with a port in FATAL and with a refusal mark. -/
theorem witness_MarksLastUntilReset :
    (∃ t, step marked = .next t ∧ t.evt = true) ∧ nextAction marked ≠ .reset ∧ (marked.port 0).phase = .fatal ∧
    (marked.port 0).fatal = true ∧
    marked.refusals = [⟨1, .read, 0x000, 32, 0#32⟩] := by
  exact ⟨⟨_, rfl, rfl⟩, by decide, rfl, rfl, rfl⟩

/-- ConverterProperties, HueSectors and EncodedByteDecodes have no hypothesis; ReferenceConverterRange and EncodedPixelLayout: values at
the ends of their ranges. -/
theorem witness_datapath :
    hsv2rgbD 255#8 255#8 255#8 = ⟨251#8, 0#8, 3#8⟩ ∧ hsv2rgbD 255#8 0#8 77#8 = ⟨77#8, 77#8, 77#8⟩ ∧
    hsv2rgbD 0#8 255#8 0#8 = ⟨0#8, 0#8, 0#8⟩ ∧
    (encPixel Patterns.reference ⟨32#8, 129#8, 52#8⟩)[4 * 2 + 3]? = some 0x88#8 := by decide

/-! ### Witnesses: statements about states that meet the invariant -/

/-- What port 0 must meet for the invariant, in a state whose other ports are as after reset. -/
abbrev portFits (s : State) (q : Port) : Prop :=
  (q.active = true ↔ q.phase ≠ .idle ∧ q.phase ≠ .fatal) ∧ (q.fatal = true ↔ q.phase = .fatal) ∧
  (q.phase = .fill ∨ q.phase = .tail ∨ q.phase = .kick → s.busy = false) ∧
  (q.phase = .poll ∨ q.phase = .fill ∨ q.phase = .tail ∨ q.phase = .kick → s.init = true ∧ q.n.toNat ≤ s.lenCfg.toNat) ∧
  (q.phase = .poll → q.i = 0#32) ∧ (q.phase = .fill → q.i.toNat < 3 * q.n.toNat) ∧
  (q.phase = .slWrite → q.j.toNat < 12 * s.lenCfg.toNat) ∧ q.phase.fits q.op = true ∧ (q.done = true → q.phase = .idle) ∧
  (s.lockOwner = if q.phase.holdsLock then some 0 else none)

/-- What the rest of the state must meet. -/
abbrev restFits (s : State) : Prop :=
  busyMatchesDma s ∧ s.dmaPos.toNat ≤ s.dmaLen.toNat ∧ s.dmaLen.toNat ≤ 12 ∧ s.lenCfg.toNat ≤ 1 ∧ wireMatchesDma s ∧
  Memory.wf s.mem = true

theorem inv_of_port0 {s : State} {q : Port} (hp : s.ports = q :: List.replicate (Config.chip.nports - 1) Port.reset)
    (ht : s.txbuf.length = Config.chip.txbufSize) (hq : portFits s q) (hr : restFits s) : Inv Config.chip s := by
  obtain ⟨a1, a2, a3, a4, a5, a6, a7, a8, a9, a10⟩ := hq
  obtain ⟨b1, b2, b3, b4, b5, b6⟩ := hr
  have hn : Config.chip.nports = Config.chip.nports - 1 + 1 := rfl
  have h0 : s.port 0 = q := by simp [State.port, hp]
  have hk : ∀ p : PortId, p ≠ 0 → s.port p = Port.reset := by
    intro p hne
    obtain ⟨k, hk⟩ : ∃ k, p.val = k + 1 := ⟨p.val - 1, by have : p.val ≠ 0 := fun e => hne (Fin.ext e); omega⟩
    simp only [State.port, hp, hk, List.getElem?_cons_succ, List.getElem?_replicate]
    split <;> rfl
  have split : ∀ P : PortId → Port → Prop, P 0 q → (∀ p, p ≠ 0 → P p Port.reset) → ∀ p, P p (s.port p) := by
    intro P hz hs p
    by_cases e : p = 0
    · subst e; rw [h0]; exact hz
    · rw [hk p e]; exact hs p e
  have hlock : lockMatchesPhase s := by
    refine split (fun p x => s.lockOwner = some p ↔ x.phase.holdsLock = true) ?_ ?_
    · rw [a10]; cases q.phase.holdsLock <;> simp
    · intro p hne
      rw [a10]
      split
      · simp [Port.reset, Phase.holdsLock, hne.symm]
      · simp [Port.reset, Phase.holdsLock]
  have hlen : s.ports.length = Config.chip.nports := by rw [hp, List.length_cons, List.length_replicate]; exact hn.symm
  refine ⟨⟨hlen, ht, b6⟩, ⟨b1, ⟨b2, ?_⟩, ?_, hlock, ?_, ?_, ?_⟩, ?_, ?_, ?_, ?_, ?_, ?_, b5⟩
  · have : 1 ≤ Config.chip.maxLeds := Nat.le_add_left 1 _
    unfold Config.txbufSize; omega
  · have : 1 ≤ Config.chip.maxLeds := Nat.le_add_left 1 _
    omega
  · intro p r hx hy
    have := ((hlock p).mpr hx).symm.trans ((hlock r).mpr hy)
    simpa using this
  · exact split (fun _ x => x.active = true ↔ x.phase ≠ .idle ∧ x.phase ≠ .fatal) a1 (fun _ _ => by decide)
  · exact split (fun _ x => x.fatal = true ↔ x.phase = .fatal) a2 (fun _ _ => by decide)
  · exact split (fun _ x => x.phase = .fill ∨ x.phase = .tail ∨ x.phase = .kick → s.busy = false) a3
      (fun _ _ h => by simp [Port.reset] at h)
  · exact split (fun _ x => x.phase = .poll ∨ x.phase = .fill ∨ x.phase = .tail ∨ x.phase = .kick →
      s.init = true ∧ x.n.toNat ≤ s.lenCfg.toNat) a4 (fun _ _ h => by simp [Port.reset] at h)
  · exact split (fun _ x => (x.phase = .poll → x.i = 0#32) ∧ (x.phase = .fill → x.i.toNat < 3 * x.n.toNat)) ⟨a5, a6⟩
      (fun _ _ => by simp [Port.reset])
  · refine split (fun _ x => x.phase = .slWrite → x.j.toNat < Config.chip.frameLen s.lenCfg) (fun h => ?_)
      (fun _ _ h => by simp [Port.reset] at h)
    have := a7 h
    unfold Config.frameLen; omega
  · exact split (fun _ x => x.phase.fits x.op = true) a8 (fun _ _ => rfl)
  · exact split (fun _ x => x.done = true → x.phase = .idle) a9 (fun _ _ h => by simp [Port.reset] at h)

/-- The hardware, configured with length 1, port 0 in the state `q`, and the step `a` next. -/
def chipWith (q : Port) (a : Action) : State :=
  { State.reset with
    ports := q :: List.replicate (Config.chip.nports - 1) Port.reset, lenCfg := 1#16, init := true
    lockOwner := if q.phase.holdsLock then some 0 else none
    txbuf := 0x88#8 :: List.replicate (Config.chip.txbufSize - 1) 0x00#8, sched := [a] }

/-- `chipWith`, with a transfer of one byte in progress. -/
def chipSending (q : Port) (a : Action) (pos : Word) (sent : List Byte) : State :=
  { chipWith q a with
    dmaState := .run, busy := true, dmaPos := pos, dmaLen := 1#32, wire := ⟨[⟨sent, false⟩], true⟩ }

theorem chip_txbuf : (0x88#8 :: List.replicate (Config.chip.txbufSize - 1) 0x00#8).length = Config.chip.txbufSize := by
  have : 1 ≤ Config.chip.txbufSize := by
    have : 1 ≤ Config.chip.maxLeds := Nat.le_add_left 1 _
    unfold Config.txbufSize; omega
  rw [List.length_cons, List.length_replicate]; omega

/-- The pixel AB FF FF in memory. -/
def onePixel : Memory := [(0x1000, 0xAB#8), (0x1001, 0xFF#8), (0x1002, 0xFF#8)]

/-- The state of `witness_UnreadablePixelLeavesPortStuck`. -/
def stuckFill : State :=
  { chipWith { busyPort .send .fill with base := 0x2000#32, n := 1#16 } .chTake with irqPend := true, mem := onePixel }

/-- UnreadablePixelLeavesPortStuck (also StepKeepsInvariant and StepsNeverStop): nothing is at address 0x2000. -/
theorem witness_UnreadablePixelLeavesPortStuck :
    Inv Config.chip stuckFill ∧ (stuckFill.port 0).phase = .fill ∧
    stuckFill.mem.read ((stuckFill.port 0).base.toNat + (stuckFill.port 0).i.toNat) = none ∧
    (∃ t, step stuckFill = .next t ∧ t.evt = true) ∧ nextAction stuckFill ≠ .reset := by
  exact ⟨inv_of_port0 rfl chip_txbuf (by decide) (by decide), rfl, rfl, ⟨_, rfl, rfl⟩, by decide⟩

/-- The state of `witness_ReadsChangeNothingAndResultsLast`. -/
def finished : State :=
  { chipWith { Port.reset with done := true, result := .errBusy } .chTake with irqPend := true }

/-- ReadsChangeNothingAndResultsLast: a read, and a step with DONE = 1. -/
theorem witness_ReadsChangeNothingAndResultsLast :
    Inv Config.chip finished ∧ (finished.port 0).done = true ∧ (∃ t, step finished = .next t ∧ t.evt = true) ∧
    nextAction finished ≠ .reset ∧
    (∀ h w, nextAction finished ≠ wr h (.cmd 0) w) ∧ (∃ t, step (chosen (.host 2 ⟨.read, 0x00C, 32, 0#32⟩) finished) = .next t ∧
    t.reads.length = 1) := by
  exact ⟨inv_of_port0 rfl chip_txbuf (by decide) (by decide), rfl, ⟨_, rfl, rfl⟩, by decide, fun _ _ e => (by cases e),
    ⟨_, rfl, rfl⟩⟩

/-- The state of `witness_flags_kick`. -/
def kicking : State :=
  chipWith { busyPort .send .kick with n := 1#16 } (.kick 0)

/-- FlagsChangeOnlyInTheirSteps and PhasesFollowTheDiagrams: KICK sets BUSY and changes the phase. -/
theorem witness_flags_kick :
    Inv Config.chip kicking ∧ ∃ t, step kicking = .next t ∧ kicking.busy = false ∧ t.busy = true ∧
    (t.port 0).phase ≠ (kicking.port 0).phase := by
  exact ⟨inv_of_port0 rfl chip_txbuf (by decide) (by decide), _, rfl, rfl, rfl, by decide⟩

/-- The state of `witness_flags_dma_idle`. -/
def draining : State :=
  { chipWith Port.reset .dmaIdle with dmaState := .drain, busy := true }

/-- FlagsChangeOnlyInTheirSteps: DMA_IDLE clears BUSY. -/
theorem witness_flags_dma_idle :
    Inv Config.chip draining ∧ ∃ t, step draining = .next t ∧ draining.busy = true ∧ t.busy = false := by
  exact ⟨inv_of_port0 rfl chip_txbuf (by decide) (by decide), _, rfl, rfl, rfl⟩

/-- The state of `witness_flags_ch_take`. -/
def interrupted : State :=
  { chipWith Port.reset .chTake with irqPend := true }

/-- FlagsChangeOnlyInTheirSteps: CH_TAKE sets EVT and clears IRQ_PEND. -/
theorem witness_flags_ch_take :
    Inv Config.chip interrupted ∧ ∃ t, step interrupted = .next t ∧ interrupted.evt = false ∧ t.evt = true ∧
    interrupted.irqPend = true ∧ t.irqPend = false := by
  exact ⟨inv_of_port0 rfl chip_txbuf (by decide) (by decide), _, rfl, rfl, rfl, rfl, rfl⟩

/-- The state of `witness_flags_evt_take`. -/
def taking : State :=
  { chipWith (busyPort .send .evtWait) (.evtTake 0) with evt := true }

/-- FlagsChangeOnlyInTheirSteps: EVT_TAKE clears EVT and sets DONE. -/
theorem witness_flags_evt_take :
    Inv Config.chip taking ∧ ∃ t, step taking = .next t ∧ taking.evt = true ∧ t.evt = false ∧ (taking.port 0).done = false ∧
    (t.port 0).done = true := by
  exact ⟨inv_of_port0 rfl chip_txbuf (by decide) (by decide), _, rfl, rfl, rfl, rfl, rfl⟩

/-- The state of `witness_flags_drop`. -/
def dropping : State :=
  chipWith (busyPort .send .evtWait) (wr 0 (.cmd 0) 0x00010001#32)

/-- FlagsChangeOnlyInTheirSteps: a dropped command sets OVR. -/
theorem witness_flags_drop :
    Inv Config.chip dropping ∧ ∃ t, step dropping = .next t ∧ (dropping.port 0).ovr = false ∧ (t.port 0).ovr = true := by
  exact ⟨inv_of_port0 rfl chip_txbuf (by decide) (by decide), _, rfl, rfl, rfl⟩

/-- The state of `witness_flags_accept`. -/
def accepting : State :=
  chipWith { Port.reset with done := true, ovr := true } (wr 0 (.cmd 0) 0x00010001#32)

/-- FlagsChangeOnlyInTheirSteps: an accepted command clears OVR and DONE. -/
theorem witness_flags_accept :
    Inv Config.chip accepting ∧ ∃ t, step accepting = .next t ∧ (accepting.port 0).ovr = true ∧ (t.port 0).ovr = false ∧
    (accepting.port 0).done = true ∧
      (t.port 0).done = false := by
  exact ⟨inv_of_port0 rfl chip_txbuf (by decide) (by decide), _, rfl, rfl, rfl, rfl, rfl⟩

/-- The state of `witness_flags_reset`. -/
def resetting : State :=
  chipWith { busyPort .send .fatal with active := false, fatal := true } .reset

/-- FlagsChangeOnlyInTheirSteps: reset clears FATAL and INIT. -/
theorem witness_flags_reset :
    Inv Config.chip resetting ∧ ∃ t, step resetting = .next t ∧ (resetting.port 0).fatal = true ∧ (t.port 0).fatal = false ∧
    resetting.init = true ∧ t.init = false := by
  exact ⟨inv_of_port0 rfl chip_txbuf (by decide) (by decide), _, rfl, rfl, rfl, rfl, rfl⟩

/-- The state of `witness_transfer_end`. -/
def ending : State :=
  chipSending (busyPort .send .evtWait) .dmaEnd 1#32 [0x88#8]

/-- FlagsChangeOnlyInTheirSteps and TransfersAreNotCancelled: DMA_END sets IRQ_PEND. -/
theorem witness_transfer_end :
    Inv Config.chip ending ∧ ending.dmaState = .run ∧ nextAction ending ≠ .reset ∧
    ∃ t, step ending = .next t ∧ ending.irqPend = false ∧ t.irqPend = true ∧ t.dmaState = .drain := by
  exact ⟨inv_of_port0 rfl chip_txbuf (by decide) (by decide), rfl, by decide, _, rfl, rfl, rfl, rfl⟩

/-- The state of `witness_transfer_emit`. -/
def emitting : State :=
  chipSending (busyPort .send .evtWait) .dmaEmit 0#32 []

/-- WireLogOnlyGrows, TransfersAreNotCancelled, FrameIsBufferUnlessSetlenRuns and RacingSetlenWritesOnlyZeros: DMA_EMIT. -/
theorem witness_transfer_emit :
    Inv Config.chip emitting ∧ emitting.dmaState = .run ∧ nextAction emitting ≠ .reset ∧ (∀ p, nextAction emitting ≠ .slWrite p) ∧
    emitting.wire.frames.getLast?.map (fun f => f.bytes) = some (emitting.txbuf.take emitting.dmaPos.toNat) ∧
    emitting.wire.frames.getLast? = some ⟨[], false⟩ ∧
    ∃ t, step emitting = .next t ∧ t.dmaState = .run ∧ t.wire.frames.getLast? = some ⟨[0x88#8], false⟩ := by
  exact ⟨inv_of_port0 rfl chip_txbuf (by decide) (by decide), rfl, by decide, fun _ e => (by cases e), rfl, rfl, _, rfl, rfl, rfl⟩

/-- The state of `witness_racing_write`. -/
def racing : State :=
  chipSending (busyPort .setlen .slWrite) (.slWrite 0) 0#32 []

/-- RacingSetlenWritesOnlyZeros, its premises on `sent`, with an SL_WRITE of port 0 next; TxbufWrittenOnlyUnderTheLock: that step changes
TXBUF. -/
theorem witness_racing_write :
    Inv Config.chip racing ∧ racing.dmaState = .run ∧
    (∀ k : Nat, racing.txbuf[k]? = racing.txbuf[k]? ∨ racing.txbuf[k]? = some 0#8) ∧
    (∀ (f : Frame) (k : Nat), racing.wire.frames.getLast? = some f → k < f.bytes.length →
      f.bytes[k]? = racing.txbuf[k]? ∨ f.bytes[k]? = some 0#8) ∧
    nextAction racing ≠ .reset ∧ ∃ t, step racing = .next t ∧ racing.txbuf[0]? = some 0x88#8 ∧ t.txbuf[0]? = some 0x00#8 := by
  refine ⟨inv_of_port0 rfl chip_txbuf (by decide) (by decide), rfl, fun _ => .inl rfl, ?_, by decide, ?_⟩
  · intro f k hf hk
    obtain rfl : (⟨[], false⟩ : Frame) = f := Option.some.inj hf
    exact absurd hk (Nat.not_lt_zero k)
  · have hz : ¬((0#32 + 1#32).toNat = Config.chip.frameLen 1#16) := by
      show ¬(1 = 12 * 1 + Config.chip.resetBytes)
      omega
    refine ⟨State.setPort { racing with sched := [], txbuf := racing.txbuf.set 0 0#8 } 0 { busyPort .setlen .slWrite with j := 1#32 },
      ?_, rfl, rfl⟩
    show fire Config.chip (.slWrite 0) (consume racing) = _
    rw [fire_enabled rfl]
    simp only [effect, slWrite]
    rw [if_neg (by exact hz)]
    rfl

/-- ReachableStatesMeetTheRule: one step from reset, with launch memory. -/
theorem witness_ReachableStatesMeetTheRule :
    Memory.wf onePixel = true ∧
    ∃ t, Host.Core.run Sys2Proof.core 1 { State.reset with sched := [issue 0 (.setlen 0 1#16)], mem := onePixel } = .next t ∧
      (t.port 0).phase = .lockWait := ⟨rfl, _, rfl, rfl⟩

/-- The state of `witness_SetlenRunsToOk`. -/
def ready : State :=
  chipWith { Port.reset with done := true } .chTake

/-- ResetBufferNeverReachesTheWire: the first step of a run. -/
theorem witness_ResetBufferNeverReachesTheWire :
    Memory.wf onePixel = true ∧
    (List.replicate Config.chip.txbufSize 0x77#8).length = 12 * Config.chip.maxLeds + Config.chip.resetBytes ∧
    (∃ t, Host.Core.run Sys2Proof.core 1 { State.reset with sched := [issue 0 (.setlen 0 1#16)], mem := onePixel } = .next t) ∧
    ∃ u, Host.Core.run Sys2Proof.core 1
      { State.reset with sched := [issue 0 (.setlen 0 1#16)], mem := onePixel, txbuf := List.replicate Config.chip.txbufSize 0x77#8 }
        = .next u :=
  ⟨rfl, List.length_replicate, ⟨_, rfl⟩, _, rfl⟩

/-- SetlenRunsToOk; the numbers and the list of steps are what its equations say. -/
theorem witness_SetlenRunsToOk :
    Inv Config.chip ready ∧ ready.hostRuns 1 = true ∧ ready.hasPort 0 = true ∧ (ready.port 0).phase = .idle ∧
    ready.lockOwner = none := by
  exact ⟨inv_of_port0 rfl chip_txbuf (by decide) (by decide), rfl, rfl, rfl, rfl⟩

/-- The state of `witness_SendFillsBufferAndStarts`. -/
def readyToSend : State :=
  { chipWith { Port.reset with pixBase := 0x1000#32 } .chTake with mem := onePixel }

/-- SendFillsBufferAndStarts: one pixel, at 0x1000. -/
theorem witness_SendFillsBufferAndStarts :
    Inv Config.chip readyToSend ∧ readyToSend.hostRuns 1 = true ∧ readyToSend.hasPort 0 = true ∧
    (readyToSend.port 0).phase = .idle ∧ readyToSend.lockOwner = none ∧ readyToSend.init = true ∧
    readyToSend.busy = false ∧ min (1#16).toNat readyToSend.lenCfg.toNat = 1 ∧
    (∀ k, k < 3 * 1 → readyToSend.mem.read ((readyToSend.port 0).pixBase.toNat + k) = some (if k = 0 then 0xAB#8 else 0xFF#8)) := by
  refine ⟨inv_of_port0 rfl chip_txbuf (by decide) (by decide), rfl, rfl, rfl, rfl, rfl, rfl, rfl, ?_⟩
  intro k hk
  obtain rfl | rfl | rfl : k = 0 ∨ k = 1 ∨ k = 2 := by omega
  all_goals rfl

/-! ### A weakly fair run -/

/-- The state in which a transfer of no byte is about to end. -/
def fairStart : State :=
  { chipWith Port.reset .chTake with dmaState := .run, busy := true, wire := ⟨[⟨[], false⟩], true⟩ }

/-- DMA_END, DMA_IDLE, CH_TAKE, and then a step that is not enabled, for ever. -/
def fairActs : Nat → Action
  | 0 => .dmaEnd
  | 1 => .dmaIdle
  | _ => .chTake

/-- The states of that run. -/
def fairRun : Nat → State
  | 0 => fairStart
  | 1 => dmaEnd fairStart
  | 2 => dmaIdle (dmaEnd fairStart)
  | _ => chTake (dmaIdle (dmaEnd fairStart))

/-- In the last state of that run no port has a command in progress. -/
theorem fairRun_ports_idle (p : PortId) : ((fairRun 3).port p).phase = .idle := by
  rw [port_replicate (k := Config.chip.nports) (q := Port.reset) rfl]
  split <;> rfl

/-- R19: that run has ended at its fourth state; it had not at its third, whose completion is still pending. -/
theorem test_run_ends : atEndOfRun fairActs fairRun 3 ∧ ¬atEndOfRun fairActs fairRun 2 := by
  refine ⟨⟨⟨fun p => .inl (fairRun_ports_idle p), rfl, rfl⟩, ?_⟩, fun h => ?_⟩
  · intro m hm hh
    obtain ⟨k, rfl⟩ := Nat.exists_eq_add_of_le hm
    rw [show fairActs (3 + k) = .chTake by rw [Nat.add_comm]; rfl] at hh
    cases hh
  · have : (fairRun 2).irqPend = false := h.1.2.2
    cases this

/-- FairRunsEndTransfers. -/
theorem witness_FairRunsEndTransfers :
    IsRun Config.chip fairActs fairRun ∧ Inv Config.chip (fairRun 0) ∧ WeaklyFair fairActs fairRun ∧
    (fairRun 0).dmaState ≠ .idle := by
  have last : ∀ a : Action, a.ofBlock = true → enabled (chTake (dmaIdle (dmaEnd fairStart))) a.kind = false := by
    have hport : ∀ p : PortId, ((chTake (dmaIdle (dmaEnd fairStart))).port p).phase = .idle := fairRun_ports_idle
    intro a ha
    cases a with
    | host _ _ | memStore _ _ _ | reset => cases ha
    | dmaEmit | dmaEnd | dmaIdle | chTake => rfl
    | _ => simp [Action.kind, enabled, inPhase, hport]
  refine ⟨?_, inv_of_port0 rfl chip_txbuf (by decide) (by decide), ?_, by decide⟩
  · intro k
    match k with
    | 0 | 1 | 2 => rfl
    | _ + 3 => rfl
  · intro a ha k hk
    have := hk (k + 3) (by omega)
    rw [show fairRun (k + 3) = chTake (dmaIdle (dmaEnd fairStart)) from rfl, last a ha] at this
    cases this

end Sys2Proof.Tests
end

section
/-! PROOFS, family 00_scope: a step that is not enabled holds (R15), and the marks of R20 last until a reset. -/

namespace Sys2Proof.Machine

/-! ### A step that is not enabled -/

/-- Settles O36: choosing a step is firing it, and one that is not enabled does not fire (R15). -/
theorem disabledStepHolds : Obligations.DisabledStepHolds := by
  intro s a h
  rw [step_chosen, fire_disabled h]

/-! ### A FATAL port -/

/-- A port that shows the FATAL mark (R20, R96): its sequencer is in FATAL, and STATUS_p shows it. -/
def Port.FatalMarked (q : Port) : Prop := q.phase = .fatal ∧ q.fatal = true

/-- A step of the block changes no port but the one it is a step of, and that one has a command in progress (R94, R99). -/
theorem StepEffect.port_eq_of_not_isActive {c : Config} {s t : State} {a : Action} (h : StepEffect c s a t)
    (ha : a.ofBlock = true) {r : PortId} (hr : (s.port r).phase.isActive = false) : t.port r = s.port r := by
  have other : ∀ {p : PortId} {ph : Phase}, (s.port p).phase = ph → ph.isActive = true → r ≠ p := by
    rintro p ph hph hact rfl
    simp [hph, hact] at hr
  cases h with
  | refuse | read | hostWrite | memStore | reset => cases ha
  | dmaEmit | dmaEnd | dmaIdle | chTake => rfl
  | lockAcq p hp hph | lockTimeout p hp hph | slSetDone p hp hph | slSetGo p hp hph | checkOk p hp hph | checkInvalid p hp hph
  | poll p hp hph | pollGiveup p hp hph | kick p hp hph | evtTake p hp hph | evtTimeout p hp hph
  | slWriteDone p _ hp hph | slWriteGo p _ hp hph | tail p _ hp hph | fill p _ _ _ hp hph =>
    exact setPort_port_other (other hph rfl) _ _

/-- A port with the FATAL mark takes no command (R92), so a host's write of one of its registers leaves the mark. -/
theorem HostPortChange.keeps_fatalMarked {p : PortId} {q q' : Port} {r : Reg} (h : HostPortChange p q r q')
    (hq : q.FatalMarked) : q'.FatalMarked := by
  have hacc : q.accepts = false := by simp [Port.accepts, hq.2]
  cases h with
  | pixBase | delay | drop => exact hq
  | accept h | illegal h => simp [hacc] at h

/-- Every step but reset leaves a port its FATAL mark. -/
theorem StepEffect.keeps_fatalMarked {c : Config} {s t : State} {a : Action} (h : StepEffect c s a t) (ha : a ≠ .reset)
    {r : PortId} (hr : (s.port r).FatalMarked) : (t.port r).FatalMarked := by
  by_cases hb : a.ofBlock = true
  · rwa [h.port_eq_of_not_isActive hb (by rw [hr.1]; rfl)]
  · cases h with
    | refuse | read => exact hr
    | hostWrite _ _ p _ q hp _ _ hq =>
      rw [setPort_port hp]
      split
      · next e => exact hq.keeps_fatalMarked (e ▸ hr)
      · exact hr
    | memStore _ x v =>
      obtain e | ⟨old, e⟩ := memStore_port s x v r <;> rw [e] <;> exact hr
    | reset => exact absurd rfl ha
    | _ => exact absurd rfl hb

/-! ### The refusal marks -/

@[simp] theorem memStore_refusals (s : State) (x : Word) (v : Byte) : (s.memStore x v).refusals = s.refusals := by
  unfold State.memStore
  split <;> rfl

/-- Every step but reset keeps the refusal marks in their order; a new one comes after them (R125). -/
theorem StepEffect.refusals_prefix {c : Config} {s t : State} {a : Action} (h : StepEffect c s a t) (ha : a ≠ .reset) :
    s.refusals <+: t.refusals := by
  cases h with
  | refuse => exact List.prefix_append _ _
  | memStore => rw [memStore_refusals]
  | reset => exact absurd rfl ha
  | _ => exact List.prefix_rfl

/-- Settles O13: a step that holds changes no mark, and one that fires keeps them, by the cases of its effect. -/
theorem marksLastUntilReset : Obligations.MarksLastUntilReset := by
  intro s t h ha
  obtain ⟨l, k, rfl | ⟨-, he⟩⟩ := step_cases h
  · exact ⟨fun _ hph hf => ⟨hph, hf⟩, List.prefix_rfl⟩
  · exact ⟨fun _ hph hf => he.keeps_fatalMarked ha ⟨hph, hf⟩, he.refusals_prefix ha⟩

end Sys2Proof.Machine
end

section
/-! PROOFS, family 10_state: the invariant said port by port, and how the ports of the step and the ports beside it keep it. -/

namespace Sys2Proof.Machine

variable {c : Config} {s u : State} {p r : PortId} {q q' : Port}

/-! ### The invariant, port by port -/

/-- What the invariant asks of a port's command in the phase it is in (R94, R99, R100, R103 to R105). -/
def PhaseOk (c : Config) (s : State) (q : Port) : Prop :=
  match q.phase with
  | .idle => q.op = none
  | .lockWait | .fatal => q.op ≠ none
  | .slSet => q.op = some .setlen
  | .slWrite => q.op = some .setlen ∧ q.j.toNat < c.frameLen s.lenCfg
  | .check | .evtWait => q.op = some .send
  | .poll => q.op = some .send ∧ s.init = true ∧ q.n.toNat ≤ s.lenCfg.toNat ∧ q.i = 0#32
  | .fill => q.op = some .send ∧ s.init = true ∧ q.n.toNat ≤ s.lenCfg.toNat ∧ s.busy = false ∧ q.i.toNat < 3 * q.n.toNat
  | .tail | .kick => q.op = some .send ∧ s.init = true ∧ q.n.toNat ≤ s.lenCfg.toNat ∧ s.busy = false

/-- What the invariant asks of port `p`, whose state is `q`. -/
structure PortOk (c : Config) (s : State) (p : PortId) (q : Port) : Prop where
  lock : s.lockOwner = some p ↔ q.phase.holdsLock = true
  active : q.active = q.phase.isActive
  fatal : q.fatal = true ↔ q.phase = .fatal
  done : q.done = true → q.phase = .idle
  inPhase : PhaseOk c s q

/-- What the invariant asks of the rest of the block. -/
structure BlockOk (c : Config) (s : State) : Prop where
  ports : s.ports.length = c.nports
  txbuf : s.txbuf.length = c.txbufSize
  mem : Memory.wf s.mem = true
  busy : busyMatchesDma s
  dma : dmaInRange c s
  len : lengthBounded c s
  wire : wireMatchesDma s

theorem Phase.isActive_iff (ph : Phase) : ph.isActive = true ↔ ph ≠ .idle ∧ ph ≠ .fatal := by
  cases ph <;> simp [Phase.isActive]

/-- The invariant is the block's part and every port's part. -/
theorem inv_iff (c : Config) (s : State) : Inv c s ↔ BlockOk c s ∧ ∀ p, PortOk c s p (s.port p) := by
  constructor
  · rintro ⟨⟨hports, htx, hmem⟩, ⟨hbusy, hdma, hlen, hlock, -, hact, hfatal⟩, hidle, hchecked, hfill, hslw, hop, hdone, hwire⟩
    refine ⟨⟨hports, htx, hmem, hbusy, hdma, hlen, hwire⟩, fun p => ?_⟩
    refine ⟨hlock p, ?_, hfatal p, hdone p, ?_⟩
    · rw [Bool.eq_iff_iff, hact p, Phase.isActive_iff]
    · have hop := hop p
      have hidle := hidle p
      have hchecked := hchecked p
      have hfill := hfill p
      have hslw := hslw p
      unfold PhaseOk
      cases hph : (s.port p).phase <;>
        simp_all [Phase.fits, Option.isSome_iff_ne_none]
  · rintro ⟨⟨hports, htx, hmem, hbusy, hdma, hlen, hwire⟩, hp⟩
    have hphase : ∀ p, PhaseOk c s (s.port p) := fun p => (hp p).inPhase
    refine ⟨⟨hports, htx, hmem⟩, ⟨hbusy, hdma, hlen, fun p => (hp p).lock, ?_, ?_, fun p => (hp p).fatal⟩, ?_, ?_, ?_, ?_, ?_,
      fun p => (hp p).done, hwire⟩
    · intro p q h1 h2
      exact Option.some.inj (((hp p).lock.mpr h1).symm.trans ((hp q).lock.mpr h2))
    · intro p
      rw [(hp p).active, Phase.isActive_iff]
    all_goals
      intro p
      have h := hphase p
      unfold PhaseOk at h
      cases hph : (s.port p).phase <;> simp_all [Phase.fits, Option.isSome_iff_ne_none]

theorem Inv.block (h : Inv c s) : BlockOk c s := ((inv_iff c s).mp h).1

theorem Inv.port (h : Inv c s) (p : PortId) : PortOk c s p (s.port p) := ((inv_iff c s).mp h).2 p

/-- A port in a phase that has the lock is its owner (R39 d). -/
theorem Inv.owner (h : Inv c s) {ph : Phase} (hph : (s.port p).phase = ph) (hl : ph.holdsLock = true) : s.lockOwner = some p :=
  (h.port p).lock.mpr (by rw [hph]; exact hl)

/-- A port in a phase without the lock is not its owner (R39 d). -/
theorem Inv.not_owner (h : Inv c s) {ph : Phase} (hph : (s.port p).phase = ph) (hl : ph.holdsLock = false) :
    s.lockOwner ≠ some p := fun e => by
  have := (h.port p).lock.mp e
  simp [hph, hl] at this

/-- The invariant's clause for the phase a port is in. -/
theorem Inv.phaseOk (h : Inv c s) {ph : Phase} (hph : (s.port p).phase = ph) : PhaseOk c s { s.port p with phase := ph } := by
  rw [← hph]
  exact (h.port p).inPhase

theorem Phase.isActive_of_holdsLock {ph : Phase} (h : ph.holdsLock = true) : ph.isActive = true := by
  cases ph <;> simp_all [Phase.holdsLock, Phase.isActive]

/-! ### Ports: the steps that move one, and the ports beside it -/

/-- In a phase without the lock the invariant asks nothing of the block but that it names another owner, or none. -/
theorem PortOk.of_not_owner (h : PortOk c s r q) (hs : s.lockOwner ≠ some r) (hu : u.lockOwner ≠ some r) : PortOk c u r q := by
  have hl : q.phase.holdsLock = false := by simpa [h.lock] using hs
  refine ⟨by simp [hl, hu], h.active, h.fatal, h.done, ?_⟩
  have hph := h.inPhase
  unfold PhaseOk at hph ⊢
  cases e : q.phase <;> simp_all [Phase.holdsLock]

/-- The invariant asks nothing of a port's PIX_BASE, DELAY and OVR, nor of the bytes a racing store left behind. -/
theorem PortOk.of_same (h : PortOk c s p q) (hl : u.lockOwner = s.lockOwner) (hb : u.busy = s.busy) (hi : u.init = s.init)
    (hn : u.lenCfg = s.lenCfg)
    (hq : q' = { q with pixBase := q'.pixBase, delay := q'.delay, ovr := q'.ovr, stale := q'.stale }) : PortOk c u p q' := by
  rw [hq]
  refine ⟨by rw [hl]; exact h.lock, h.active, h.fatal, h.done, ?_⟩
  have hph := h.inPhase
  unfold PhaseOk at hph ⊢
  rw [hb, hi, hn]
  exact hph

theorem PortOk.not_fatal (h : PortOk c s p q) (hact : q.phase.isActive = true) : q.fatal = false := by
  rw [← Bool.not_eq_true, h.fatal]
  exact ((Phase.isActive_iff _).mp hact).2

/-- A port that ends its command (R91). -/
theorem portOk_finish (res : Result) (hf : q.fatal = false) (hl : s.lockOwner ≠ some p) : PortOk c s p (q.finish res) :=
  ⟨by simp [hl, Phase.holdsLock], rfl, by simp [hf], fun _ => rfl, rfl⟩

/-- A port that goes from a phase of its command to another one. -/
theorem PortOk.advance (h : PortOk c s p q) (hq : q.phase.isActive = true) (hq' : q'.phase.isActive = true)
    (hact : q'.active = q.active) (hfatal : q'.fatal = q.fatal) (hdone : q'.done = q.done)
    (hl : u.lockOwner = some p ↔ q'.phase.holdsLock = true) (hph : PhaseOk c u q') : PortOk c u p q' where
  lock := hl
  active := by rw [hact, h.active, hq, hq']
  fatal := by
    have hne := ((Phase.isActive_iff _).mp hq).2
    have hne' := ((Phase.isActive_iff _).mp hq').2
    rw [hfatal, h.fatal]
    simp [hne, hne']
  done := fun hd => by
    have := h.done (hdone ▸ hd)
    simp [this, Phase.isActive] at hq
  inPhase := hph

/-- A port that takes commands is in IDLE (R90). -/
theorem PortOk.idle_of_accepts (h : PortOk c s p q) (ha : q.accepts = true) : q.phase = .idle := by
  simp only [Port.accepts, Bool.and_eq_true, Bool.not_eq_true', h.active] at ha
  by_contra hne
  have := (Phase.isActive_iff q.phase).mpr ⟨hne, fun e => by simp [h.fatal.mpr e] at ha⟩
  simp [this] at ha

/-- A host's write of a register of a port keeps what the invariant asks of it. -/
theorem PortOk.hostPortChange (h : PortOk c s p q) {g : Reg} (hc : HostPortChange p q g q') : PortOk c s p q' := by
  have hlock : ∀ ha : q.accepts = true, s.lockOwner ≠ some p := fun ha e => by
    have := h.lock.mp e
    simp [h.idle_of_accepts ha, Phase.holdsLock] at this
  cases hc with
  | pixBase | delay | drop => exact h.of_same rfl rfl rfl rfl rfl
  | accept ha op n =>
    have hf : q.fatal = false := by simp_all [Port.accepts]
    cases op with
    | setlen => exact ⟨by simp [hlock ha, Phase.holdsLock], rfl, by simp [hf], by simp, by simp [PhaseOk]⟩
    | send => exact ⟨by simp [hlock ha, Phase.holdsLock], rfl, by simp [hf], by simp, by simp [PhaseOk]⟩
  | illegal ha =>
    have hf : q.fatal = false := by simp_all [Port.accepts]
    exact portOk_finish _ hf (hlock ha)

/-! ### Steps that change one port -/

/-- Reading a port after a step that replaced port `p` and perhaps changed what is not the ports'. -/
theorem setPort_port_of_ports (hu : u.ports = s.ports) (hp : s.hasPort p = true) (q : Port) (r : PortId) :
    (u.setPort p q).port r = if r = p then q else s.port r := by
  have hp' : u.hasPort p = true := by simpa [State.hasPort, hu] using hp
  rw [setPort_port hp', show u.port r = s.port r by simp [State.port, hu]]

/-- A step that changes port `p`, and of the block what the other ports' parts of the invariant do not speak of. -/
theorem Inv.setPort (h : Inv c s) (hp : s.hasPort p = true) (hu : u.ports = s.ports) (hb : BlockOk c u) (hq : PortOk c u p q)
    (ho : ∀ r, r ≠ p → PortOk c s r (s.port r) → PortOk c u r (s.port r)) : Inv c (u.setPort p q) := by
  rw [inv_iff] at h ⊢
  refine ⟨{ hb with ports := by rw [setPort_length]; exact hb.ports }, fun r => ?_⟩
  have key : PortOk c u r ((u.setPort p q).port r) := by
    rw [setPort_port_of_ports hu hp]
    split
    · next e => rw [e]; exact hq
    · next e => exact ho r e (h.2 r)
  exact key.of_same rfl rfl rfl rfl rfl

/-- A step of a port that touches nothing the other ports' parts of the invariant speak of. -/
theorem Inv.setPort_of_same (h : Inv c s) (hp : s.hasPort p = true) (hu : u.ports = s.ports) (hb : BlockOk c u)
    (hq : PortOk c u p q) (hl : u.lockOwner = s.lockOwner) (hbusy : u.busy = s.busy) (hi : u.init = s.init)
    (hn : u.lenCfg = s.lenCfg) : Inv c (u.setPort p q) :=
  h.setPort hp hu hb hq fun _ _ hr => hr.of_same hl hbusy hi hn rfl

/-- A step of the port that has the lock, or takes it while it is free: no other port is in a phase that has the lock. -/
theorem Inv.setPort_of_owner (h : Inv c s) (hp : s.hasPort p = true) (hu : u.ports = s.ports) (hb : BlockOk c u)
    (hq : PortOk c u p q) (hs : s.lockOwner = none ∨ s.lockOwner = some p) (hl : u.lockOwner = none ∨ u.lockOwner = some p) :
    Inv c (u.setPort p q) := by
  have other : ∀ {o : Option PortId} {r : PortId}, o = none ∨ o = some p → r ≠ p → o ≠ some r := by
    rintro o r (rfl | rfl) hr e
    · cases e
    · exact hr (Option.some.inj e).symm
  exact h.setPort hp hu hb hq fun r hr hok => hok.of_not_owner (other hs hr) (other hl hr)

end Sys2Proof.Machine
end

section
/-! PROOFS, family 10_state: the invariant holds after reset, and every step keeps it. -/

namespace Sys2Proof.Machine

section
variable {c : Config} {s t u : State} {p r : PortId} {q q' : Port} {a : Action}

/-! ### Numbers -/

/-- A counter below a bound that 32 bits hold goes up by one without wrapping. -/
theorem toNat_succ {x : Word} {k : Nat} (hx : x.toNat < k) (hk : k < 2 ^ 32) : (x + 1#32).toNat = x.toNat + 1 := by
  rw [BitVec.toNat_add, BitVec.toNat_ofNat]
  omega

theorem frameLen_lt (c : Config) (len : Half) : c.frameLen len < 2 ^ 32 := by
  have h1 := len.isLt
  have h2 := c.gapBytes.isLt
  unfold Config.frameLen Config.resetBytes
  omega

/-- A latched frame length (R105) is the frame length. -/
theorem frameLen_toNat (c : Config) (len : Half) : (BitVec.ofNat 32 (c.frameLen len)).toNat = c.frameLen len := by
  rw [BitVec.toNat_ofNat, Nat.mod_eq_of_lt (frameLen_lt c len)]

/-- A frame of a legal length fits TXBUF (R7). -/
theorem frameLen_le_txbufSize {len : Half} (h : len.toNat ≤ c.maxLeds) : c.frameLen len ≤ c.txbufSize := by
  unfold Config.frameLen Config.txbufSize
  omega

theorem setlenCount_toNat (c : Config) (n : Half) : (setlenCount c n).toNat = min n.toNat c.maxLeds := by
  have := n.isLt
  rw [setlenCount, BitVec.toNat_ofNat, Nat.mod_eq_of_lt]
  omega

theorem sendCount_le (n len : Half) : (sendCount n len).toNat ≤ len.toNat := by
  unfold sendCount
  split
  · assumption
  · exact Nat.le_refl _

/-! ### Reset -/

/-- With every port as after reset, so reads each, one that is not there too (log entry 19). -/
theorem port_of_all_reset {k : Nat} (h : s.ports = List.replicate k Port.reset) (p : PortId) : s.port p = Port.reset := by
  rw [port_replicate h]
  split <;> rfl

/-- The invariant holds of every state whose registers, latches and flags have the values of R48. -/
theorem inv_of_reset {c : Config} {s : State}
    (hs : s = { State.resetWith c with
      txbuf := s.txbuf, wire := s.wire, reads := s.reads, mem := s.mem, sched := s.sched, draws := s.draws })
    (htx : s.txbuf.length = c.txbufSize) (hw : s.wire.isOpen = false) (hm : Memory.wf s.mem = true) : Inv c s := by
  rw [inv_iff]
  constructor
  · refine ⟨by rw [hs]; exact List.length_replicate, htx, hm, ?_, ?_, ?_, ?_⟩
    · rw [hs]; exact ⟨nofun, fun h => absurd rfl h⟩
    · rw [hs]; exact ⟨Nat.le_refl _, Nat.zero_le _⟩
    · rw [hs]; exact Nat.zero_le _
    · have hd : s.dmaState = .idle := by rw [hs]; rfl
      exact ⟨by simp [hw, hd], by simp [hd]⟩
  · intro p
    have hport : s.port p = Port.reset := port_of_all_reset (k := c.nports) (by rw [hs]; rfl) p
    have hl : s.lockOwner = none := by rw [hs]; rfl
    rw [hport]
    exact ⟨by simp [hl, Port.reset, Phase.holdsLock], rfl, by decide, by decide, rfl⟩

theorem txbufAtReset_length (c : Config) (k : Nat) : (txbufAtReset c k).length = c.txbufSize := by
  simp [txbufAtReset]

/-! ### Every step keeps the invariant -/

theorem emit_matches {w : Wire} {k : Word} {n : Nat} (hk : k.toNat < n) (hn : n < 2 ^ 32) (b : Byte)
    (h : w.frames.getLast?.map (fun f => (f.bytes.length, f.truncated)) = some (k.toNat, false)) :
    (w.emit b).frames.getLast?.map (fun f => (f.bytes.length, f.truncated)) = some ((k + 1#32).toNat, false) := by
  rw [emit_getLast?, toNat_succ hk hn]
  cases e : w.frames.getLast? <;> simp_all

/-- A step in which the lock's owner ends its command and frees the lock. -/
theorem Inv.finish_and_free {res : Result} (h : Inv c s) (hp : s.hasPort p = true) {ph : Phase} (hph : (s.port p).phase = ph)
    (hlock : ph.holdsLock = true) (hact : ph.isActive = true) (hu : u.ports = s.ports) (hb : BlockOk c u)
    (hl : u.lockOwner = none) (hq : q.fatal = (s.port p).fatal) : Inv c (u.setPort p (q.finish res)) := by
  have hf : q.fatal = false := by rw [hq]; exact (h.port p).not_fatal (by rw [hph]; exact hact)
  exact h.setPort_of_owner hp hu hb (portOk_finish res hf (by simp [hl])) (.inr (h.owner hph hlock)) (.inl hl)

/-- A step in which a port that waits for the completion event ends its command. -/
theorem Inv.finish_wait (h : Inv c s) (hp : s.hasPort p = true) (hph : (s.port p).phase = .evtWait) (res : Result) :
    Inv c (s.setPort p ((s.port p).finish res)) :=
  h.setPort_of_same hp rfl h.block
    (portOk_finish res ((h.port p).not_fatal (by rw [hph]; rfl)) (h.not_owner hph rfl)) rfl rfl rfl rfl

/-- A step in which the lock's owner goes to another phase of its command that has the lock. -/
theorem Inv.advance_owner (h : Inv c s) (hp : s.hasPort p = true) {ph : Phase} (hph : (s.port p).phase = ph)
    (hlock : ph.holdsLock = true) (hu : u.ports = s.ports) (hb : BlockOk c u) (hl : u.lockOwner = s.lockOwner)
    (hact : q.active = (s.port p).active) (hfatal : q.fatal = (s.port p).fatal) (hdone : q.done = (s.port p).done)
    (hlock' : q.phase.holdsLock = true) (hq : PhaseOk c u q) : Inv c (u.setPort p q) := by
  have ho : u.lockOwner = some p := hl.trans (h.owner hph hlock)
  exact h.setPort_of_owner hp hu hb
    ((h.port p).advance (Phase.isActive_of_holdsLock (by rw [hph]; exact hlock)) (Phase.isActive_of_holdsLock hlock')
      hact hfatal hdone (by simp [ho, hlock']) hq)
    (.inr (h.owner hph hlock)) (.inr ho)

/-- LOCK_ACQ (R95): the lock was free, and the port goes to the first phase of its own command. -/
theorem lockAcq_keeps_inv (hi : Inv c s) (hp : s.hasPort p = true) (hph : (s.port p).phase = .lockWait)
    (hl : s.lockOwner = none) : Inv c (lockAcq p s) := by
  have hop : (s.port p).op ≠ none := hi.phaseOk hph
  have go : ∀ ph : Phase, ph.holdsLock = true → PhaseOk c (s.takeLock p) { s.port p with phase := ph } →
      Inv c ((s.takeLock p).setPort p { s.port p with phase := ph }) := fun ph hlock hok =>
    hi.setPort_of_owner hp rfl { hi.block with }
      ((hi.port p).advance (by rw [hph]; rfl) (Phase.isActive_of_holdsLock hlock) rfl rfl rfl (by simp [hlock]) hok)
      (.inl hl) (.inr rfl)
  unfold lockAcq
  split
  · next e => exact go .check rfl e
  · next e =>
    refine go .slSet rfl ?_
    show (s.port p).op = some .setlen
    cases h : (s.port p).op with
    | none => exact absurd h hop
    | some op => cases op <;> simp_all

/-- LOCK_TIMEOUT (R96). -/
theorem goFatal_keeps_inv (hi : Inv c s) (hp : s.hasPort p = true) (hph : (s.port p).phase = .lockWait) :
    Inv c (s.setPort p (s.port p).goFatal) := by
  have hop : (s.port p).op ≠ none := hi.phaseOk hph
  exact hi.setPort_of_same hp rfl hi.block
    ⟨by simp [hi.not_owner hph rfl, Phase.holdsLock], rfl, by simp, nofun, hop⟩ rfl rfl rfl rfl

/-- POLL (R101): with the first byte still to read, a SEND of some pixel goes to FILL and one of none to TAIL. -/
theorem poll_keeps_inv (hi : Inv c s) (hp : s.hasPort p = true) (hph : (s.port p).phase = .poll) (hb : s.busy = false) :
    Inv c (poll p s) := by
  obtain ⟨hop, hinit, hn, hz⟩ : (s.port p).op = some .send ∧ s.init = true ∧ (s.port p).n.toNat ≤ s.lenCfg.toNat ∧
    (s.port p).i = 0#32 := hi.phaseOk hph
  unfold poll
  split
  · exact hi.advance_owner hp hph rfl rfl hi.block rfl rfl rfl rfl rfl ⟨hop, hinit, hn, hb⟩
  · next e =>
    have hpos : (s.port p).n.toNat ≠ 0 := fun h => e (BitVec.eq_of_toNat_eq h)
    refine hi.advance_owner hp hph rfl rfl hi.block rfl rfl rfl rfl rfl ⟨hop, hinit, hn, hb, ?_⟩
    simp only [hz, BitVec.toNat_ofNat]
    omega

/-- FILL (R103): the bytes left go down by one, and with none left the port goes to TAIL. -/
theorem fill_keeps_inv (hi : Inv c s) (hp : s.hasPort p = true) (hph : (s.port p).phase = .fill) {v : Byte} {buf : List Byte}
    (hbuf : fillTx c (s.port p) v s.txbuf = some buf) :
    Inv c (State.setPort { s with txbuf := buf } p ((s.port p).afterFill v)) := by
  obtain ⟨hop, hinit, hn, hb, hlt⟩ : (s.port p).op = some .send ∧ s.init = true ∧
    (s.port p).n.toNat ≤ s.lenCfg.toNat ∧ s.busy = false ∧ (s.port p).i.toNat < 3 * (s.port p).n.toNat := hi.phaseOk hph
  have hblock : BlockOk c { s with txbuf := buf } :=
    { hi.block with txbuf := (fillTx_length hbuf).trans hi.block.txbuf }
  have hsucc := toNat_succ hlt (by have := (s.port p).n.isLt; omega)
  by_cases hz : ((s.port p).i + 1#32).toNat = 3 * (s.port p).n.toNat
  · have hph' : ((s.port p).afterFill v).phase = .tail := if_pos hz
    refine hi.advance_owner hp hph rfl rfl hblock rfl rfl rfl rfl (by rw [hph']; rfl) ?_
    rw [PhaseOk, hph']
    exact ⟨hop, hinit, hn, hb⟩
  · have hph' : ((s.port p).afterFill v).phase = .fill := (if_neg hz).trans hph
    refine hi.advance_owner hp hph rfl rfl hblock rfl rfl rfl rfl (by rw [hph']; rfl) ?_
    rw [PhaseOk, hph']
    refine ⟨hop, hinit, hn, hb, ?_⟩
    rw [Port.afterFill_i, Port.afterFill_n]
    omega

/-- SL_WRITE (R98), when bytes are left to write. -/
theorem slWriteGo_keeps_inv (hi : Inv c s) (hp : s.hasPort p = true) (hph : (s.port p).phase = .slWrite)
    (hz : ((s.port p).j + 1#32).toNat ≠ c.frameLen s.lenCfg) (k : Nat) :
    Inv c (State.setPort { s with txbuf := s.txbuf.set k 0#8 } p { s.port p with j := (s.port p).j + 1#32 }) := by
  obtain ⟨hop, hlt⟩ : (s.port p).op = some .setlen ∧ (s.port p).j.toNat < c.frameLen s.lenCfg := hi.phaseOk hph
  have htx : (s.txbuf.set k 0#8).length = c.txbufSize := by rw [List.length_set]; exact hi.block.txbuf
  refine hi.advance_owner hp hph rfl rfl { hi.block with txbuf := htx } rfl rfl rfl rfl (by rw [hph]; rfl) ?_
  rw [PhaseOk, hph]
  refine ⟨hop, ?_⟩
  have := toNat_succ hlt (frameLen_lt c s.lenCfg)
  show ((s.port p).j + 1#32).toNat < c.frameLen s.lenCfg
  omega

/-- KICK (R105): the frame that is latched fits TXBUF, and an empty frame is open. -/
theorem kick_keeps_inv (hi : Inv c s) (hp : s.hasPort p = true) (hph : (s.port p).phase = .kick) :
    Inv c (State.setPort { s with
      dmaPos := 0#32, dmaLen := BitVec.ofNat 32 (c.frameLen s.lenCfg), dmaState := .run, busy := true
      wire := s.wire.openFrame, lockOwner := none } p { s.port p with phase := .evtWait }) := by
  obtain ⟨hop, -⟩ : (s.port p).op = some .send ∧ s.init = true ∧ (s.port p).n.toNat ≤ s.lenCfg.toNat ∧ s.busy = false :=
    hi.phaseOk hph
  have hdma : (BitVec.ofNat 32 (c.frameLen s.lenCfg)).toNat ≤ c.txbufSize := by
    rw [frameLen_toNat]
    exact frameLen_le_txbufSize hi.block.len
  refine hi.setPort_of_owner hp rfl ?_ ?_ (.inr (hi.owner hph rfl)) (.inl rfl)
  · exact { hi.block with
      busy := ⟨fun _ => nofun, fun _ => rfl⟩, dma := ⟨Nat.zero_le _, hdma⟩
      wire := ⟨⟨fun _ => rfl, fun _ => rfl⟩, fun _ => by simp⟩ }
  · exact (hi.port p).advance (by rw [hph]; rfl) rfl rfl rfl rfl (by simp [Phase.holdsLock]) hop

/-- Everything of the state that a host store can change: host memory, and the ports, whose number stays. -/
theorem memStore_eq (s : State) (x : Word) (v : Byte) :
    ∃ ports mem, ports.length = s.ports.length ∧ s.memStore x v = { s with ports := ports, mem := mem } := by
  unfold State.memStore
  split
  · exact ⟨s.ports, s.mem, rfl, rfl⟩
  · exact ⟨_, _, List.length_map _, rfl⟩

/-- A host store (R17) changes host memory and what racing SENDs remember. -/
theorem memStore_keeps_inv (hi : Inv c s) (x : Word) (v : Byte) : Inv c (s.memStore x v) := by
  obtain ⟨ports, mem, hports, e⟩ := memStore_eq s x v
  rw [inv_iff]
  constructor
  · have hwf := memStore_wf hi.block.mem x v
    rw [e] at hwf ⊢
    exact { hi.block with ports := hports.trans hi.block.ports, mem := hwf }
  · intro r
    obtain hr | ⟨old, hr⟩ := memStore_port s x v r <;> rw [hr, e] <;> exact (hi.port r).of_same rfl rfl rfl rfl rfl

/-- A step of the DMA engine or of the completion handler, whose agents write no port. -/
theorem Inv.of_dma_step (hi : Inv c s) (hports : u.ports = s.ports) (hb : BlockOk c u) (hl : u.lockOwner = s.lockOwner)
    (hn : u.lenCfg = s.lenCfg) (hinit : u.init = s.init) (hbusy : u.busy = s.busy ∨ u.busy = false) : Inv c u := by
  rw [inv_iff]
  refine ⟨hb, fun r => ?_⟩
  have hport : u.port r = s.port r := by simp [State.port, hports]
  obtain ⟨hlock, hact, hfatal, hdone, hph⟩ := hi.port r
  rw [hport]
  refine ⟨by rw [hl]; exact hlock, hact, hfatal, hdone, ?_⟩
  unfold PhaseOk at hph ⊢
  rw [hn, hinit]
  obtain e | e := hbusy <;> rw [e]
  · exact hph
  · cases h : (s.port r).phase <;> simp_all

theorem StepEffect.keeps_inv (h : StepEffect c s a t) (hi : Inv c s) : Inv c t := by
  have hb := hi.block
  cases h with
  | refuse | read => exact hi
  | hostWrite _ _ p _ q hp _ _ hq =>
    exact hi.setPort_of_same hp rfl hb ((hi.port p).hostPortChange hq) rfl rfl rfl rfl
  | memStore _ x v => exact memStore_keeps_inv hi x v
  | lockAcq p hp hph hl => exact lockAcq_keeps_inv hi hp hph hl
  | lockTimeout p hp hph => exact goFatal_keeps_inv hi hp hph
  | slSetDone p hp hph =>
    have hlen : (setlenCount c (s.port p).nreq).toNat ≤ c.maxLeds := by rw [setlenCount_toNat]; omega
    exact hi.finish_and_free hp hph rfl rfl rfl { hb with len := hlen } rfl rfl
  | slSetGo p hp hph hz =>
    have hlen : (setlenCount c (s.port p).nreq).toNat ≤ c.maxLeds := by rw [setlenCount_toNat]; omega
    have hop : (s.port p).op = some .setlen := hi.phaseOk hph
    exact hi.advance_owner hp hph rfl rfl { hb with len := hlen } rfl rfl rfl rfl rfl ⟨hop, Nat.pos_of_ne_zero hz⟩
  | slWriteDone p buf hp hph hj hbuf hz =>
    have htx : buf.length = c.txbufSize := by rw [hbuf, List.length_set]; exact hb.txbuf
    exact hi.finish_and_free hp hph rfl rfl rfl { hb with txbuf := htx } rfl rfl
  | slWriteGo p buf hp hph hj hbuf hz => exact hbuf ▸ slWriteGo_keeps_inv hi hp hph hz _
  | checkOk p hp hph hinit =>
    have hop : (s.port p).op = some .send := hi.phaseOk hph
    exact hi.advance_owner hp hph rfl rfl hb rfl rfl rfl rfl rfl ⟨hop, hinit, sendCount_le _ _, rfl⟩
  | checkInvalid p hp hph => exact hi.finish_and_free hp hph rfl rfl rfl { hb with } rfl rfl
  | poll p hp hph hbusy => exact poll_keeps_inv hi hp hph hbusy
  | pollGiveup p hp hph => exact hi.finish_and_free hp hph rfl rfl rfl { hb with } rfl rfl
  | fill p _ v buf hp hph _ hbuf => exact fill_keeps_inv hi hp hph hbuf
  | tail p buf hp hph hbuf =>
    have htx : buf.length = c.txbufSize := (txWriteAll_some hbuf).1.trans hb.txbuf
    exact hi.advance_owner hp hph rfl rfl { hb with txbuf := htx } rfl rfl rfl rfl rfl (hi.phaseOk hph)
  | kick p hp hph => exact kick_keeps_inv hi hp hph
  | evtTake p hp hph => exact Inv.finish_wait (s := { s with evt := false }) hi hp hph _
  | evtTimeout p hp hph => exact hi.finish_wait hp hph _
  | dmaEmit b hr hlt =>
    have hpos := toNat_succ hlt s.dmaLen.isLt
    have hdma : (s.dmaPos + 1#32).toNat ≤ s.dmaLen.toNat := by omega
    exact hi.of_dma_step rfl { hb with
      dma := ⟨hdma, hb.dma.2⟩
      wire := ⟨hb.wire.1, fun _ => emit_matches hlt s.dmaLen.isLt b (hb.wire.2 hr)⟩ } rfl rfl rfl (.inl rfl)
  | dmaEnd hr =>
    have hbusy : s.busy = true := hb.busy.mpr (by simp [hr])
    exact hi.of_dma_step rfl { hb with
      busy := ⟨fun _ => nofun, fun _ => hbusy⟩, wire := ⟨⟨nofun, nofun⟩, nofun⟩ } rfl rfl rfl (.inl rfl)
  | dmaIdle hd =>
    have hw : s.wire.isOpen = false := by simp [← Bool.not_eq_true, hb.wire.1, hd]
    exact hi.of_dma_step rfl { hb with
      busy := ⟨nofun, fun h => absurd rfl h⟩
      wire := ⟨⟨fun h => (Bool.false_ne_true (hw.symm.trans h)).elim, nofun⟩, nofun⟩ } rfl rfl rfl (.inr rfl)
  | chTake => exact hi
  | reset => exact inv_of_reset rfl (txbufAtReset_length _ _) (resetClose_isOpen _) hb.mem

end

/-! ### Runs -/

/-- Settles O51: a step that holds changes nothing the invariant speaks of, and one that fires keeps it, by the cases of its effect. -/
theorem stepKeepsInvariant : Obligations.StepKeepsInvariant := by
  intro s t hi h
  obtain ⟨l, k, rfl | ⟨-, he⟩⟩ := step_cases h
  · exact hi
  · exact he.keeps_inv hi

/-- A run that has answered a state: the first step answered one, from which the rest of the run goes on. -/
theorem run_succ {k : Nat} {s t : State} (h : Host.Core.run Sys2Proof.core (k + 1) s = .next t) :
    ∃ u, step s = .next u ∧ Host.Core.run Sys2Proof.core k u = .next t := by
  simp only [Host.Core.run] at h
  split at h
  · next u e => exact ⟨u, e, h⟩
  · cases h
  · cases h

/-- A run from a state that meets the invariant ends in one. -/
theorem run_keeps_inv {k : Nat} {s t : State} (hi : Inv Config.chip s) (h : Host.Core.run Sys2Proof.core k s = .next t) :
    Inv Config.chip t := by
  induction k generalizing s with
  | zero => cases h; exact hi
  | succ k ih =>
    obtain ⟨u, hu, h⟩ := run_succ h
    exact ih (stepKeepsInvariant s u hi hu) h

/-- The machine after reset, given any schedule, launch memory and buffer of TXBUF's size. -/
theorem inv_started (sched : List Action) {m : Memory} (hm : Memory.wf m = true) {buf : List Byte}
    (hbuf : buf.length = Config.chip.txbufSize) :
    Inv Config.chip { State.reset with sched := sched, mem := m, txbuf := buf } :=
  inv_of_reset rfl hbuf rfl hm

/-- Settles O50: every register has the value of R48, TXBUF its size, and host memory lists nothing. -/
theorem invariantHoldsAtReset : Obligations.InvariantHoldsAtReset :=
  inv_started [] rfl (txbufAtReset_length _ 0)

/-- Settles O52: the invariant holds after reset and every step of the run keeps it. -/
theorem reachableStatesMeetTheRule : Obligations.ReachableStatesMeetTheRule := by
  intro sched m k t hm h
  exact (run_keeps_inv (inv_started sched hm (txbufAtReset_length _ 0)) h).2.1

end Sys2Proof.Machine
end

section
/-! PROOFS, family 10_state: which steps read host memory, the wire log and TXBUF. Every step but FILL, DMA_EMIT, a host store and reset
does the same whatever the three hold: it may write a run of bytes of TXBUF and open or close a frame, and reads none of them. -/

namespace Sys2Proof.Machine

section
variable {c : Config} {s t : State} {a : Action}

/-! ### The state with other data -/

/-- The state with other contents of host memory, of the wire log and of TXBUF. -/
def State.withData (s : State) (m : Memory) (w : Wire) (b : List Byte) : State := { s with mem := m, wire := w, txbuf := b }

section
variable (s : State) (m : Memory) (w : Wire) (b : List Byte)

@[simp] theorem withData_hasPort (p : PortId) : (s.withData m w b).hasPort p = s.hasPort p := rfl
theorem withData_memReads (q : Port) (x : Nat) : (s.withData s.mem w b).memReads q x = s.memReads q x := rfl
@[simp] theorem withData_port (p : PortId) : (s.withData m w b).port p = s.port p := rfl

theorem withData_target (x : HostAccess) : x.target (s.withData m w b) = x.target s := rfl

theorem withData_readReg (c : Config) (r : Reg) : readReg c (s.withData m w b) r = readReg c s r := by cases r <;> rfl

theorem consume_withData : consume (s.withData m w b) = (consume s).withData m w b := by
  unfold consume
  rw [show (s.withData m w b).sched = s.sched from rfl]
  cases s.sched <;> rfl

/-- Only FILL's guard reads host memory, and none reads the rest (R22, R103). -/
theorem enabled_withData (ha : ∀ p sel, a ≠ .fill p sel) : enabled (s.withData m w b) a = enabled s a := by
  cases a with
  | fill p sel => exact absurd rfl (ha p sel)
  | _ => rfl

theorem enabled_withData_sameMem (a : Action) : enabled (s.withData s.mem w b) a = enabled s a := by cases a <;> rfl

end

/-! ### What a step does with the data -/

/-- In the state `s` the operation `f` reads none of the data, and writes at most one run of bytes of TXBUF and the wire log. -/
def WritesDataOnly (f : State → Out) (s : State) : Prop :=
  ∃ (r : State) (g : Wire → Wire) (i : Nat) (vs : List Byte), ∀ m w b,
    f (s.withData m w b) = (r.withData m (g w) b).withTx (txWriteAll b i vs)

/-- The same of an operation that may read host memory and write it. -/
def WritesBufferAndWireOnly (f : State → Out) (s : State) : Prop :=
  ∃ (r : State) (g : Wire → Wire) (i : Nat) (vs : List Byte), ∀ w b,
    f (s.withData s.mem w b) = (r.withData r.mem (g w) b).withTx (txWriteAll b i vs)

/-- An operation that leaves the data as they are. -/
theorem WritesDataOnly.of_leaves {f : State → Out} {r : State}
    (h : ∀ m w b, f (s.withData m w b) = .next (r.withData m w b)) : WritesDataOnly f s :=
  ⟨r, id, 0, [], h⟩

theorem WritesDataOnly.writesBufferAndWireOnly {f : State → Out} (h : WritesDataOnly f s) : WritesBufferAndWireOnly f s := by
  obtain ⟨r, g, i, vs, e⟩ := h
  exact ⟨r.withData s.mem r.wire r.txbuf, g, i, vs, fun w b => e s.mem w b⟩

/-- From an answer in `s`: how the next state differs from what the operation leaves with other data. -/
theorem WritesBufferAndWireOnly.next {f : State → Out} (h : WritesBufferAndWireOnly f s) (ht : f s = .next t) :
    ∃ (g : Wire → Wire) (i : Nat) (vs : List Byte), t.wire = g s.wire ∧ txWriteAll s.txbuf i vs = some t.txbuf ∧
      ∀ w b, f (s.withData s.mem w b) = (t.withData t.mem (g w) b).withTx (txWriteAll b i vs) := by
  obtain ⟨r, g, i, vs, e⟩ := h
  obtain ⟨buf, hbuf, rfl⟩ := withTx_next ((e s.wire s.txbuf).symm.trans ht)
  exact ⟨g, i, vs, rfl, hbuf, e⟩

theorem writeCommand_withData (p : PortId) (v : Word) (f : Port → Port) (s : State) (m : Memory) (w : Wire) (b : List Byte) :
    writeCommand p v f (s.withData m w b) = (writeCommand p v f s).withData m w b := by
  simp only [writeCommand, withData_hasPort, withData_port, apply_ite (State.withData · m w b)]
  rfl

/-- A write of CMD_p (R90) reads and writes no data. -/
theorem writeCmdReg_withData {p : PortId} {v : Word} (ht : writeCmdReg p v s = .next t) (m : Memory) (w : Wire) (b : List Byte) :
    writeCmdReg p v (s.withData m w b) = .next (t.withData m w b) := by
  unfold writeCmdReg at ht ⊢
  rw [withData_port]
  split at ht
  · next ha =>
    rw [if_pos ha]
    cases hd : decode p v with
    | command i =>
      rw [hd] at ht
      cases i <;> cases ht <;> exact congrArg _ (writeCommand_withData _ _ _ s m w b)
    | illegal =>
      rw [hd] at ht
      cases ht
      exact congrArg _ (writeCommand_withData _ _ _ s m w b)
  · next ha =>
    cases ht
    exact if_neg ha

/-- A host's register access (R54) reads and writes no data. -/
theorem hostAccess_withData {h : HostId} {x : HostAccess} (ht : hostAccess c h x s = .next t) (m : Memory) (w : Wire)
    (b : List Byte) : hostAccess c h x (s.withData m w b) = .next (t.withData m w b) := by
  unfold hostAccess at ht ⊢
  cases hk : x.kind with
  | read =>
    rw [hk] at ht
    cases ht
    refine congrArg Host.Outcome.next ?_
    unfold regRead
    rw [withData_target]
    cases x.target s with
    | none => rfl
    | some r =>
      simp only [withData_readReg]
      cases readReg c s r <;> rfl
  | write =>
    rw [hk] at ht
    simp only [regWrite] at ht ⊢
    rw [withData_target]
    cases hx : x.target s with
    | none => rw [hx] at ht; cases ht; rfl
    | some r =>
      rw [hx] at ht
      cases r with
      | cmd p => exact writeCmdReg_withData ht m w b
      | _ => cases ht; rfl

theorem txWriteAll_singleton (buf : List Byte) (i : Nat) (v : Byte) : txWriteAll buf i [v] = txWrite buf i v := by
  simp only [txWriteAll]
  cases txWrite buf i v <;> rfl

/-- Every step but FILL, a host store, DMA_EMIT and reset. -/
theorem effect_withData (c : Config) (s : State) (hfill : ∀ p sel, a ≠ .fill p sel) (hstore : ∀ h x v, a ≠ .memStore h x v)
    (hemit : a ≠ .dmaEmit) (hreset : a ≠ .reset) : WritesDataOnly (effect c · a) s := by
  cases a with
  | fill p sel => exact absurd rfl (hfill p sel)
  | memStore h x v => exact absurd rfl (hstore h x v)
  | dmaEmit => exact absurd rfl hemit
  | reset => exact absurd rfl hreset
  | host h x =>
    obtain ⟨t, ht⟩ := hostAccess_next c h x s
    exact .of_leaves (hostAccess_withData ht)
  | slSet p =>
    refine .of_leaves (r := slSet c p s) fun m w b => congrArg Host.Outcome.next ?_
    simp only [slSet, withData_port, apply_ite (State.withData · m w b)]
    rfl
  | check p =>
    refine .of_leaves (r := check p s) fun m w b => congrArg Host.Outcome.next ?_
    simp only [check, withData_port, apply_ite (State.withData · m w b)]
    rfl
  | slWrite p =>
    by_cases hz : ((s.port p).j + 1#32).toNat = c.frameLen s.lenCfg
    · refine ⟨s.freeLock.setPort p (Port.finish .ok { s.port p with j := (s.port p).j + 1#32 }), id, (s.port p).j.toNat, [0#8],
        fun m w b => ?_⟩
      rw [txWriteAll_singleton]
      exact congrArg (State.withTx · _) (if_pos hz)
    · refine ⟨s.setPort p { s.port p with j := (s.port p).j + 1#32 }, id, (s.port p).j.toNat, [0#8], fun m w b => ?_⟩
      rw [txWriteAll_singleton]
      exact congrArg (State.withTx · _) (if_neg hz)
  | tail p => exact ⟨s.setPort p { s.port p with phase := .kick }, id, 12 * (s.port p).n.toNat,
      List.replicate (c.frameLen s.lenCfg - 12 * (s.port p).n.toNat) 0#8, fun _ _ _ => rfl⟩
  | kick p => exact ⟨kick c p s, Wire.openFrame, 0, [], fun _ _ _ => rfl⟩
  | dmaEnd => exact ⟨dmaEnd s, Wire.closeFrame, 0, [], fun _ _ _ => rfl⟩
  | lockAcq p => exact .of_leaves (r := lockAcq p s) fun _ _ _ => rfl
  | lockTimeout p => exact .of_leaves (r := lockTimeout p s) fun _ _ _ => rfl
  | poll p => exact .of_leaves (r := poll p s) fun _ _ _ => rfl
  | pollGiveup p => exact .of_leaves (r := pollGiveup p s) fun _ _ _ => rfl
  | evtTake p => exact .of_leaves (r := evtTake p s) fun _ _ _ => rfl
  | evtTimeout p => exact .of_leaves (r := evtTimeout p s) fun _ _ _ => rfl
  | dmaIdle => exact .of_leaves (r := dmaIdle s) fun _ _ _ => rfl
  | chTake => exact .of_leaves (r := chTake s) fun _ _ _ => rfl

/-- FILL (R103) reads host memory, and of the data nothing else. -/
theorem fill_withData (c : Config) (p : PortId) (sel : Nat) (s : State) : WritesBufferAndWireOnly (fill c p sel) s := by
  cases hv : (s.memReads (s.port p) (s.port p).pixelAddr)[sel]? with
  | none =>
    refine ⟨s, id, 0, [], fun w b => ?_⟩
    simp only [fill, withData_port, withData_memReads, hv]
    rfl
  | some v =>
    by_cases hi : (s.port p).i.toNat % 3 = 2
    · refine ⟨s.setPort p ((s.port p).afterFill v), id, 12 * ((s.port p).i.toNat / 3),
        encPixel c.pat (convert c (s.port p).pxH (s.port p).pxS v), fun w b => ?_⟩
      simp only [fill, withData_port, withData_memReads, hv, fillTx, hi, if_true]
      rfl
    · refine ⟨s.setPort p ((s.port p).afterFill v), id, 0, [], fun w b => ?_⟩
      simp only [fill, withData_port, withData_memReads, hv, fillTx, hi, if_false]
      rfl

/-- A host store (R17) reads and writes host memory, and of the data nothing else. -/
theorem memStore_withData (s : State) (x : Word) (v : Byte) : WritesBufferAndWireOnly (fun s => .next (s.memStore x v)) s := by
  refine ⟨s.memStore x v, id, 0, [], fun w b => ?_⟩
  show Host.Outcome.next ((s.withData s.mem w b).memStore x v) = .next _
  unfold State.memStore
  rw [show (s.withData s.mem w b).mem = s.mem from rfl]
  cases s.mem.read x.toNat <;> rfl

/-- Every step but DMA_EMIT and reset: TXBUF and the wire log are written, and not read. -/
theorem effect_withBuffer (c : Config) (s : State) (hemit : a ≠ .dmaEmit) (hreset : a ≠ .reset) :
    WritesBufferAndWireOnly (effect c · a) s := by
  by_cases hfill : ∃ p sel, a = .fill p sel
  · obtain ⟨p, sel, rfl⟩ := hfill
    exact fill_withData c p sel s
  by_cases hstore : ∃ h x v, a = .memStore h x v
  · obtain ⟨h, x, v, rfl⟩ := hstore
    exact memStore_withData s x v
  exact (effect_withData c s (fun p sel e => hfill ⟨p, sel, e⟩) (fun h x v e => hstore ⟨h, x, v, e⟩) hemit
    hreset).writesBufferAndWireOnly

/-! ### Host memory and the wire log -/

/-- Only a host store writes host memory (R49). -/
theorem StepEffect.mem_eq (h : StepEffect c s a t) (ha : ∀ g x v, a ≠ .memStore g x v) : t.mem = s.mem := by
  cases h with
  | memStore g x v => exact absurd rfl (ha g x v)
  | _ => rfl

/-- With other contents of host memory an enabled step other than FILL and a host store does the same. -/
theorem effect_withMem (h : effect c s a = .next t) (hmem : t.mem = s.mem) (hfill : ∀ p sel, a ≠ .fill p sel)
    (hstore : ∀ g x v, a ≠ .memStore g x v) (m : Memory) : effect c { s with mem := m } a = .next { t with mem := m } := by
  by_cases hemit : a = .dmaEmit
  · subst hemit
    obtain ⟨b, hb, rfl⟩ := dmaEmit_cases h
    simp only [effect, dmaEmit, txRead, hb]
  by_cases hreset : a = .reset
  · subst hreset
    cases h
    rfl
  obtain ⟨r, g, i, vs, e⟩ := effect_withData c s hfill hstore hemit hreset
  obtain ⟨buf, hbuf, rfl⟩ := withTx_next ((e s.mem s.wire s.txbuf).symm.trans h)
  refine (e m s.wire s.txbuf).trans ?_
  rw [hbuf]
  rfl

/-- With another wire log an enabled step does the same but for the wire log. -/
theorem effect_withWire (h : effect c s a = .next t) (w : Wire) :
    ∃ w', effect c { s with wire := w } a = .next { t with wire := w' } := by
  by_cases hemit : a = .dmaEmit
  · subst hemit
    obtain ⟨b, hb, rfl⟩ := dmaEmit_cases h
    refine ⟨w.emit b, ?_⟩
    simp only [effect, dmaEmit, txRead, hb]
  by_cases hreset : a = .reset
  · subst hreset
    cases h
    exact ⟨w.resetClose, rfl⟩
  obtain ⟨g, i, vs, -, hbuf, e⟩ := (effect_withBuffer c s hemit hreset).next h
  refine ⟨g w, (e w s.txbuf).trans ?_⟩
  rw [hbuf]
  rfl

end

/-! ### The statements -/

/-- Settles O40: a step that holds changes nothing, and one that fires neither writes host memory nor, but for FILL, reads it. -/
theorem hostMemoryReadOnlyByFill : Obligations.HostMemoryReadOnlyByFill := by
  intro s t a m hstore h
  rw [step_chosen] at h
  obtain ⟨hoff, rfl⟩ | ⟨hon, h⟩ := fire_cases h
  · refine ⟨rfl, fun hfill => ?_⟩
    have hoff' : enabled { t with mem := m } a = false := (enabled_withData _ m _ _ hfill).trans hoff
    rw [step_chosen, fire_disabled hoff']
  · have hmem := (effect_cases hon h).mem_eq hstore
    refine ⟨hmem, fun hfill => ?_⟩
    have hon' : enabled { s with mem := m } a = true := (enabled_withData _ m _ _ hfill).trans hon
    rw [step_chosen, fire_enabled hon']
    exact effect_withMem h hmem hfill hstore m

/-- Settles O41: a step that holds leaves the wire log, and one that fires does the same with any other wire log. -/
theorem wireIsReadByNoStep : Obligations.WireIsReadByNoStep := by
  intro s t a w h
  rw [step_chosen] at h ⊢
  have hen : enabled { s with wire := w } a = enabled s a := enabled_withData_sameMem s w s.txbuf a
  obtain ⟨hoff, rfl⟩ | ⟨hon, h⟩ := fire_cases h
  · exact ⟨w, fire_disabled (hen.trans hoff) _⟩
  · rw [fire_enabled (hen.trans hon)]
    exact effect_withWire h w

end Sys2Proof.Machine
end

section
/-! PROOFS, family 10_state: no byte that TXBUF holds after reset reaches the wire (R138). A SEND needs INIT, so a SETLEN has run before
it; SL_SET starts to write the whole frame with the lock held, and until the last SL_WRITE no SEND reaches KICK. -/

namespace Sys2Proof.Machine

section
variable {c : Config} {s t u v : State} {a : Action} {k : Nat}

/-! ### The bytes of TXBUF that a command has written -/

/-- Index `k` belongs to the configured frame (R97), and a SETLEN that is writing the frame has come past it (R98). -/
def InFrame (c : Config) (s : State) (k : Nat) : Prop :=
  s.init = true ∧ k < c.frameLen s.lenCfg ∧ ∀ r : PortId, (s.port r).phase = .slWrite → k < (s.port r).j.toNat

/-- Index `k` belongs to the transfer in progress (R105). -/
def InTransfer (s : State) (k : Nat) : Prop := s.dmaState = .run ∧ k < s.dmaLen.toNat

/-- Index `k` of TXBUF holds a byte that a command has written since reset. -/
def Determined (c : Config) (s : State) (k : Nat) : Prop := InFrame c s k ∨ InTransfer s k

/-- Every step but reset leaves a port that is writing the idle pattern where it is, but for that port's own SL_WRITE. -/
theorem StepEffect.slWrite_port (h : StepEffect c s a t) (hi : Inv c s) {r : PortId} (hph : (s.port r).phase = .slWrite)
    (hreset : a ≠ .reset) (ha : a ≠ .slWrite r) : (t.port r).phase = .slWrite ∧ (t.port r).j = (s.port r).j := by
  have other : ∀ {p : PortId} {ph : Phase}, (s.port p).phase = ph → ph ≠ .slWrite → r ≠ p := by
    rintro p ph e hne rfl
    exact hne (e.symm.trans hph)
  have same : ∀ {u : State} {p : PortId} {q : Port}, u.ports = s.ports → s.hasPort p = true → r ≠ p →
      ((u.setPort p q).port r).phase = .slWrite ∧ ((u.setPort p q).port r).j = (s.port r).j := by
    intro u p q hu hp hne
    rw [setPort_port_of_ports hu hp, if_neg hne]
    exact ⟨hph, rfl⟩
  cases h with
  | reset => exact absurd rfl hreset
  | refuse | read | dmaEmit | dmaEnd | dmaIdle | chTake => exact ⟨hph, rfl⟩
  | memStore _ x v => obtain e | ⟨old, e⟩ := memStore_port s x v r <;> rw [e] <;> exact ⟨hph, rfl⟩
  | hostWrite _ _ p _ q hp _ _ hq =>
    by_cases e : r = p
    · subst e
      rw [setPort_port_same hp]
      cases hq with
      | pixBase | delay | drop => exact ⟨hph, rfl⟩
      | accept hacc | illegal hacc => simp [(hi.port r).idle_of_accepts hacc] at hph
    · exact same rfl hp e
  | slWriteDone p _ hp | slWriteGo p _ hp => exact same rfl hp fun e => ha (by rw [e])
  | lockAcq p hp hp' | lockTimeout p hp hp' | slSetDone p hp hp' | slSetGo p hp hp' | checkOk p hp hp' | checkInvalid p hp hp'
  | poll p hp hp' | pollGiveup p hp hp' | kick p hp hp' | evtTake p hp hp' | evtTimeout p hp hp' | tail p _ hp hp'
  | fill p _ _ _ hp hp' =>
    exact same rfl hp (other hp' nofun)

/-- A step that leaves INIT, LEN_CFG, the transfer and the ports that write the idle pattern determines no further byte. -/
theorem Determined.of_same (hd : Determined c t k) (hinit : t.init = s.init) (hlen : t.lenCfg = s.lenCfg)
    (hdma : t.dmaState = .run → s.dmaState = .run ∧ t.dmaLen = s.dmaLen)
    (hports : ∀ r, (s.port r).phase = .slWrite → (t.port r).phase = .slWrite ∧ (t.port r).j = (s.port r).j) :
    Determined c s k := by
  rcases hd with ⟨hi, hk, hw⟩ | ⟨hr, hk⟩
  · refine .inl ⟨hinit ▸ hi, hlen ▸ hk, fun r hph => ?_⟩
    obtain ⟨hph', hj⟩ := hports r hph
    exact hj ▸ hw r hph'
  · obtain ⟨hr', hlen'⟩ := hdma hr
    exact .inr ⟨hr', hlen' ▸ hk⟩

/-- With a port in a phase that has the lock, no other port writes the idle pattern (R39 d). -/
theorem Inv.slWrite_unique (hi : Inv c s) {p r : PortId} {ph : Phase} (hp : (s.port p).phase = ph) (hl : ph.holdsLock = true)
    (hr : (s.port r).phase = .slWrite) : r = p :=
  Option.some.inj ((hi.owner hr rfl).symm.trans (hi.owner hp hl))

/-- SL_SET (R97) starts a new frame at its first byte, so none of its bytes counts as written. -/
theorem determined_of_slSet {p : PortId} (hp : s.hasPort p = true) (hd : Determined c (slSet c p s) k) : Determined c s k := by
  simp only [slSet] at hd
  split at hd
  · next hz =>
    rcases hd with ⟨-, hk, -⟩ | hd
    · have hk : k < c.frameLen (setlenCount c (s.port p).nreq) := hk
      omega
    · exact .inr hd
  · rcases hd with ⟨-, -, hw⟩ | hd
    · have hw := hw p
      rw [setPort_port_of_ports (u := { s with lenCfg := setlenCount c (s.port p).nreq, init := true }) rfl hp, if_pos rfl] at hw
      exact absurd (hw rfl) (Nat.not_lt_zero k)
    · exact .inr hd

/-- SL_WRITE (R98) adds to the written bytes the one it writes. -/
theorem StepEffect.determined_of_slWrite {p : PortId} (h : StepEffect c s (.slWrite p) t) (hi : Inv c s)
    (hd : Determined c t k) (hk : k ≠ (s.port p).j.toNat) : Determined c s k := by
  have key : InFrame c t k → k < (s.port p).j.toNat := by
    rintro ⟨-, hlt, hw⟩
    cases h with
    | slWriteDone _ _ hp hph hj _ hz =>
      have hlt : k < c.frameLen s.lenCfg := hlt
      have hslw : _ ∧ (s.port p).j.toNat < c.frameLen s.lenCfg := hi.phaseOk hph
      have := toNat_succ hslw.2 (frameLen_lt c s.lenCfg)
      omega
    | slWriteGo _ buf hp hph hj hb hz =>
      have hslw : _ ∧ (s.port p).j.toNat < c.frameLen s.lenCfg := hi.phaseOk hph
      have := toNat_succ hslw.2 (frameLen_lt c s.lenCfg)
      have hw := hw p
      rw [setPort_port_of_ports (u := { s with txbuf := buf }) rfl hp, if_pos rfl] at hw
      have : k < ((s.port p).j + 1#32).toNat := hw hph
      omega
  obtain ⟨hph, hinit, hlen, hdma⟩ : (s.port p).phase = .slWrite ∧ t.init = s.init ∧ t.lenCfg = s.lenCfg ∧
      (InTransfer t k → InTransfer s k) := by
    cases h with
    | slWriteDone _ _ _ hph | slWriteGo _ _ _ hph => exact ⟨hph, rfl, rfl, id⟩
  rcases hd with hd | hd
  · refine .inl ⟨hinit ▸ hd.1, hlen ▸ hd.2.1, fun r hr => ?_⟩
    rw [hi.slWrite_unique hph rfl hr]
    exact key hd
  · exact .inr (hdma hd)

/-- KICK (R105) transfers the configured frame, which INIT and the lock say has been written. -/
theorem Inv.inFrame_of_kick (hi : Inv c s) {p : PortId} (hph : (s.port p).phase = .kick) (hk : k < c.frameLen s.lenCfg) :
    InFrame c s k := by
  obtain ⟨-, hinit, -⟩ : _ ∧ s.init = true ∧ _ := hi.phaseOk hph
  refine ⟨hinit, hk, fun r hr => ?_⟩
  have := hi.slWrite_unique hph rfl hr
  simp [this, hph] at hr

/-- Every step but reset determines no further byte of TXBUF but the one that SL_WRITE writes. -/
theorem determined_of_effect (hi : Inv c s) (hon : enabled s a = true) (h : effect c s a = .next t) (hreset : a ≠ .reset)
    (hd : Determined c t k) : Determined c s k ∨ ∃ p, a = .slWrite p ∧ k = (s.port p).j.toNat := by
  have he := effect_cases hon h
  by_cases hw : ∃ p, a = .slWrite p
  · obtain ⟨p, rfl⟩ := hw
    by_cases hk : k = (s.port p).j.toNat
    · exact .inr ⟨p, rfl, hk⟩
    · exact .inl (he.determined_of_slWrite hi hd hk)
  have hports : ∀ r, (s.port r).phase = .slWrite → (t.port r).phase = .slWrite ∧ (t.port r).j = (s.port r).j :=
    fun r hr => he.slWrite_port hi hr hreset fun e => hw ⟨r, e⟩
  left
  cases he with
  | reset => exact absurd rfl hreset
  | slWriteDone p | slWriteGo p => exact absurd ⟨p, rfl⟩ hw
  | slSetDone p hp | slSetGo p hp =>
    rw [← Host.Outcome.next.inj h] at hd
    exact determined_of_slSet hp hd
  | kick p _ hph =>
    rcases hd with ⟨hinit, hk, -⟩ | ⟨-, hk⟩
    · exact .inl (hi.inFrame_of_kick hph hk)
    · have hk : k < (BitVec.ofNat 32 (c.frameLen s.lenCfg)).toNat := hk
      rw [frameLen_toNat] at hk
      exact .inl (hi.inFrame_of_kick hph hk)
  | dmaEnd | dmaIdle => exact hd.of_same rfl rfl nofun hports
  | memStore _ x v =>
    obtain ⟨ports, mem, -, e⟩ := memStore_eq s x v
    rw [e] at hd hports
    exact hd.of_same rfl rfl (fun hr => ⟨hr, rfl⟩) hports
  | _ => exact hd.of_same rfl rfl (fun hr => ⟨hr, rfl⟩) hports

/-! ### Two machines that differ in the bytes of TXBUF -/

/-- `u` differs from `s` in bytes of TXBUF alone, and in none that a command has written. -/
structure Twins (s u : State) : Prop where
  sameElse : u = { s with txbuf := u.txbuf }
  size : u.txbuf.length = s.txbuf.length
  agree : ∀ k, Determined Config.chip s k → s.txbuf[k]? = u.txbuf[k]?

theorem StepEffect.slWrite_byte {p : PortId} (h : StepEffect c s (.slWrite p) t) :
    t.txbuf[(s.port p).j.toNat]? = some 0#8 := by
  cases h with
  | slWriteDone _ buf _ _ hj hb | slWriteGo _ buf _ _ hj hb =>
    show buf[_]? = _
    rw [hb, List.getElem?_set_self hj]

/-- One step taken by twins in the same way leaves twins. -/
theorem Twins.effect (hT : Twins s u) (hi : Inv Config.chip s) (hon : enabled s a = true)
    (ht : effect Config.chip s a = .next t) (hv : effect Config.chip u a = .next v) : Twins t v := by
  obtain ⟨b, hu⟩ : ∃ b, u = s.withData s.mem s.wire b := ⟨_, hT.sameElse⟩
  have honu : enabled u a = true := by rw [hu, enabled_withData_sameMem, hon]
  subst hu
  by_cases hreset : a = .reset
  · subst hreset
    have : t = v := Host.Outcome.next.inj (ht.symm.trans hv)
    exact this ▸ ⟨rfl, rfl, fun _ _ => rfl⟩
  have hdet := fun k => determined_of_effect (k := k) hi hon ht hreset
  by_cases hemit : a = .dmaEmit
  · subst hemit
    have htx : ∀ k, Determined Config.chip t k → s.txbuf[k]? = b[k]? := fun k hd => by
      obtain hd | ⟨p, e, -⟩ := hdet k hd
      · exact hT.agree k hd
      · cases e
    cases effect_cases hon ht with
    | dmaEmit x hr hlt hx =>
      cases effect_cases honu hv with
      | dmaEmit y _ _ hy =>
        have hxy : some x = some y := hx.symm.trans ((hT.agree _ (.inr ⟨hr, hlt⟩)).trans hy)
        cases hxy
        exact ⟨rfl, hT.size, htx⟩
  obtain ⟨g, i, vs, hw, hbuf, e⟩ := (effect_withBuffer Config.chip s hemit hreset).next ht
  obtain ⟨buf, hbuf', hv'⟩ := withTx_next ((e s.wire b).symm.trans hv)
  obtain ⟨hl, hk⟩ := txWriteAll_some hbuf
  obtain ⟨hl', hk'⟩ := txWriteAll_some hbuf'
  have hvt : v = { t with txbuf := buf } := by rw [hv', ← hw]; rfl
  refine ⟨by rw [hvt], by rw [hvt]; exact hl'.trans (hT.size.trans hl.symm), fun k hd => ?_⟩
  obtain hd | ⟨p, rfl, rfl⟩ := hdet k hd
  · rw [hvt]
    show t.txbuf[k]? = buf[k]?
    rw [hk k, hk' k, hT.agree k hd]
    rfl
  · exact (effect_cases hon ht).slWrite_byte.trans (effect_cases honu hv).slWrite_byte.symm

/-- One step of twins, whose next choice is the same, leaves twins. -/
theorem Twins.step (hT : Twins s u) (hi : Inv Config.chip s) (ht : step s = .next t) (hv : step u = .next v) : Twins t v := by
  obtain ⟨b, hu⟩ : ∃ b, u = s.withData s.mem s.wire b := ⟨_, hT.sameElse⟩
  subst hu
  obtain ⟨l, n, hs⟩ := consume_eq s
  have hT' : Twins (consume s) (consume (s.withData s.mem s.wire b)) := by
    rw [consume_withData, hs]
    exact ⟨rfl, hT.size, hT.agree⟩
  have hi' : Inv Config.chip (consume s) := by rw [hs]; exact hi
  have hen : enabled (consume (s.withData s.mem s.wire b)) (nextAction s) = enabled (consume s) (nextAction s) := by
    rw [hT'.sameElse]
    exact enabled_withData_sameMem _ _ _ _
  have hv : fire Config.chip (nextAction s) (consume (s.withData s.mem s.wire b)) = .next v := hv
  obtain ⟨hoff, rfl⟩ | ⟨hon, ht⟩ := fire_cases ht
  · rw [fire_disabled (hen.trans hoff)] at hv
    cases hv
    exact hT'
  · rw [fire_enabled (hen.trans hon)] at hv
    exact hT'.effect hi' hon ht hv

end

/-- Twins stay twins along a run. -/
theorem Twins.run {k : Nat} {s u t v : State} (hT : Twins s u) (hi : Inv Config.chip s)
    (ht : Host.Core.run Sys2Proof.core k s = .next t) (hv : Host.Core.run Sys2Proof.core k u = .next v) : Twins t v := by
  induction k generalizing s u with
  | zero => cases ht; cases hv; exact hT
  | succ k ih =>
    obtain ⟨s', hs, ht⟩ := run_succ ht
    obtain ⟨u', hu, hv⟩ := run_succ hv
    exact ih (hT.step hi hs hu) (stepKeepsInvariant s s' hi hs) ht hv

/-- Settles O60: after reset INIT is 0 and the DMA engine idle, so no byte is one that a command has written, and the two machines are
twins; twins they stay. -/
theorem resetBufferNeverReachesTheWire : Obligations.ResetBufferNeverReachesTheWire := by
  intro sched m k buf t u hm hbuf ht hu
  have hi := inv_started sched hm (txbufAtReset_length Config.chip 0)
  have hT : Twins { State.reset with sched := sched, mem := m } { State.reset with sched := sched, mem := m, txbuf := buf } := by
    refine ⟨rfl, hbuf.trans (txbufAtReset_length Config.chip 0).symm, fun j hd => ?_⟩
    rcases hd with ⟨hinit, -⟩ | ⟨hr, -⟩
    · cases hinit
    · cases hr
  exact (hT.run hi ht hu).sameElse

end Sys2Proof.Machine
end

section
/-! PROOFS, family 10_state: the register map (R42), the flag words (R26, R43), and the host's register accesses (R45, R54, R125). -/

namespace Sys2Proof.Machine

/-! ### The register map -/

theorem ofOffset_block (p : PortId) {k : Nat} (hk : k < 0x20) : Reg.ofOffset (0x20 * p.val + k) = portReg p k := by
  have hdiv : (0x20 * p.val + k) / 0x20 = p.val := by omega
  have hmod : (0x20 * p.val + k) % 0x20 = k := by omega
  simp [Reg.ofOffset, hdiv, hmod, p.isLt]

/-- A register is found at its offset. -/
theorem ofOffset_offset (r : Reg) : Reg.ofOffset r.offset = some r := by
  cases r with
  | cmd p => exact ofOffset_block p (k := 0x00) (by decide)
  | pixBase p => exact ofOffset_block p (k := 0x04) (by decide)
  | delay p => exact ofOffset_block p (k := 0x08) (by decide)
  | status p => exact ofOffset_block p (k := 0x0C) (by decide)
  | _ => rfl

theorem portReg_some {p : PortId} {k : Nat} {r : Reg} (h : portReg p k = some r) : r.offset = 0x20 * p.val + k ∧ k % 4 = 0 := by
  unfold portReg at h
  repeat' split at h
  all_goals cases h
  all_goals simp_all [Reg.offset]

theorem sharedReg_some {off : Nat} {r : Reg} (h : sharedReg off = some r) : r.offset = off ∧ off % 4 = 0 := by
  unfold sharedReg at h
  repeat' split at h
  all_goals cases h
  all_goals simp_all [Reg.offset]

/-- An offset that names a register is that register's, and a multiple of 4. -/
theorem ofOffset_some {off : Nat} {r : Reg} (h : Reg.ofOffset off = some r) : r.offset = off ∧ off % 4 = 0 := by
  unfold Reg.ofOffset at h
  split at h
  · obtain ⟨hoff, h4⟩ := portReg_some h
    simp only at hoff
    omega
  · exact sharedReg_some h

/-- Settles O4: the offsets are those of the table of R42, and the map from offsets to registers is inverted both ways. -/
theorem registerMapIsOneToOne : Obligations.RegisterMapIsOneToOne :=
  ⟨fun _ => ⟨rfl, rfl, rfl, rfl⟩, ⟨rfl, rfl, rfl, rfl, rfl, rfl, rfl⟩, ofOffset_offset, fun _ _ => ofOffset_some⟩

/-- The register a host access reaches (R54). -/
theorem target_iff (s : State) (x : HostAccess) (r : Reg) :
    x.target s = some r ↔ x.width = 32 ∧ r.offset = x.off ∧ r.present s = true := by
  unfold HostAccess.target
  constructor
  · intro h
    split at h
    · next hw =>
      split at h
      · next r' hr =>
        split at h
        · next hp => cases h; exact ⟨hw.1, (ofOffset_some hr).1, hp⟩
        · cases h
      · cases h
    · cases h
  · rintro ⟨hw, hoff, hp⟩
    have hr : Reg.ofOffset x.off = some r := hoff ▸ ofOffset_offset r
    rw [if_pos ⟨hw, (ofOffset_some hr).2⟩, hr]
    exact if_pos hp

/-! ### The flag words -/

/-- Which field each bit of STATUS_p belongs to (R26). -/
theorem statusWord_getLsbD (q : Port) (k : Nat) : q.statusWord.getLsbD k =
    if k = 0 then q.active else if k = 1 then q.done else if k < 5 then q.result.code.getLsbD (k - 2)
    else if k = 5 then q.ovr else if k = 6 then q.fatal else if k < 8 then false else q.phase.code.getLsbD (k - 8) := by
  simp only [Port.statusWord, BitVec.getLsbD_append, BitVec.getLsbD_ofBool]
  obtain hk | hk := Nat.lt_or_ge k 8
  · interval_cases k <;> simp
  · simp (disch := omega) only [if_neg]
    rw [show k - 1 - 1 - 3 - 1 - 1 - 1 = k - 8 by omega]
    split
    · rfl
    · rw [BitVec.getLsbD_of_ge q.phase.code _ (by omega), BitVec.getLsbD_zero]

/-- Which field each bit of HWSTAT belongs to (R43). -/
theorem hwstatWord_getLsbD (s : State) (k : Nat) : s.hwstatWord.getLsbD k =
    if k = 0 then s.busy else if k = 1 then s.evt else if k = 2 then s.irqPend else if k = 3 then s.init
    else if k < 6 then s.dmaState.code.getLsbD (k - 4) else if k < 8 then false else (lockCode s.lockOwner).getLsbD (k - 8) := by
  simp only [State.hwstatWord, BitVec.getLsbD_append, BitVec.getLsbD_ofBool]
  obtain hk | hk := Nat.lt_or_ge k 8
  · interval_cases k <;> simp
  · simp (disch := omega) only [if_neg]
    rw [show k - 1 - 1 - 1 - 1 - 2 - 2 = k - 8 by omega]
    split
    · rfl
    · rw [BitVec.getLsbD_of_ge (lockCode s.lockOwner) _ (by omega), BitVec.getLsbD_zero]

/-- A field of a word, from its bits. -/
theorem extractLsb'_eq_of_bits {n : Nat} {x : Word} {i : Nat} {f : BitVec n} (h : ∀ k, k < n → x.getLsbD (i + k) = f.getLsbD k) :
    x.extractLsb' i n = f := by
  refine BitVec.eq_of_getLsbD_eq fun k hk => ?_
  rw [BitVec.getLsbD_extractLsb', h k hk]
  simp [hk]

/-- Settles O32: each field of STATUS_p stands at its bits (R26), and a field's code is the one of R27 or R28. -/
theorem statusWordLayout : Obligations.StatusWordLayout := by
  intro q
  have hres : q.statusWord.extractLsb' 2 3 = q.result.code := extractLsb'_eq_of_bits fun k hk => by
    rw [statusWord_getLsbD]
    simp (disch := omega) only [if_neg, if_pos, Nat.add_sub_cancel_left]
  have hphase : q.statusWord.extractLsb' 8 4 = q.phase.code := extractLsb'_eq_of_bits fun k hk => by
    rw [statusWord_getLsbD]
    simp (disch := omega) only [if_neg, Nat.add_sub_cancel_left]
  have hzero : q.statusWord.extractLsb' 12 20 = 0#20 := extractLsb'_eq_of_bits fun k hk => by
    rw [statusWord_getLsbD]
    simp (disch := omega) only [if_neg, BitVec.getLsbD_of_ge, BitVec.getLsbD_zero]
  refine ⟨statusWord_getLsbD q 0, statusWord_getLsbD q 1, ?_, statusWord_getLsbD q 5, statusWord_getLsbD q 6,
    statusWord_getLsbD q 7, ?_, hzero⟩
  · rw [hres]
    cases q.result <;> rfl
  · rw [hphase]
    cases q.phase <;> rfl

/-! ### Register reads -/

/-- The access of a host context that no refusal has stopped takes place. -/
theorem step_host {s : State} {h : HostId} (hh : s.hostRuns h = true) (x : HostAccess) :
    step (chosen (.host h x) s) = hostAccess Config.chip h x s :=
  fire_enabled (a := .host h x) hh _

/-- A host's read of a register that is there and may be read answers the same state, with the value added to the reads made. -/
theorem step_rd {s : State} {h : HostId} {r : Reg} {v : Word} (hh : s.hostRuns h = true) (hp : r.present s = true)
    (hv : readReg Config.chip s r = some v) :
    step (chosen (rdAt h r.offset) s) = .next { s with reads := s.reads ++ [⟨h, r.offset, v⟩] } := by
  have ht : (⟨.read, r.offset, 32, 0#32⟩ : HostAccess).target s = some r := (target_iff s _ r).mpr ⟨rfl, rfl, hp⟩
  rw [rdAt, step_host hh]
  simp only [hostAccess, regRead, ht, hv]

/-- Settles O29: each of these registers is there, and a read of it gives its value. -/
theorem registerReadReturnsValue : Obligations.RegisterReadReturnsValue := by
  intro s h hh
  refine ⟨?_, step_rd (r := .lenCfg) hh rfl rfl, step_rd (r := .dmaPos) hh rfl rfl, step_rd (r := .dmaLen) hh rfl rfl⟩
  rintro p off rfl hp
  exact ⟨step_rd (r := .pixBase p) hh hp rfl, step_rd (r := .delay p) hh hp rfl, step_rd (r := .status p) hh hp rfl⟩

/-- Settles O33: a read of offset 0x204 gives HWSTAT, whose fields stand at their bits (R43). -/
theorem hwstatLayout : Obligations.HwstatLayout := by
  intro s h hh
  have hdma : s.hwstatWord.extractLsb' 4 2 = s.dmaState.code := extractLsb'_eq_of_bits fun k hk => by
    rw [hwstatWord_getLsbD]
    simp (disch := omega) only [if_neg, if_pos, Nat.add_sub_cancel_left]
  have hlock : s.hwstatWord.extractLsb' 8 4 = lockCode s.lockOwner := extractLsb'_eq_of_bits fun k hk => by
    rw [hwstatWord_getLsbD]
    simp (disch := omega) only [if_neg, Nat.add_sub_cancel_left]
  have hlow : s.hwstatWord.extractLsb' 6 2 = 0#2 := extractLsb'_eq_of_bits fun k hk => by
    rw [hwstatWord_getLsbD]
    simp (disch := omega) only [if_neg, if_pos, BitVec.getLsbD_zero]
  have hhigh : s.hwstatWord.extractLsb' 12 20 = 0#20 := extractLsb'_eq_of_bits fun k hk => by
    rw [hwstatWord_getLsbD]
    simp (disch := omega) only [if_neg, BitVec.getLsbD_of_ge, BitVec.getLsbD_zero]
  refine ⟨s.hwstatWord, step_rd (r := .hwstat) hh rfl rfl, hwstatWord_getLsbD s 0, hwstatWord_getLsbD s 1,
    hwstatWord_getLsbD s 2, hwstatWord_getLsbD s 3, ?_, hlow, ?_, hhigh⟩
  · rw [hdma]
    cases s.dmaState <;> rfl
  · rw [hlock]
    cases s.lockOwner with
    | none => rfl
    | some p =>
      have := p.isLt
      rw [lockCode, BitVec.toNat_ofNat]
      exact Nat.mod_eq_of_lt (by omega)

/-! ### The configuration registers -/

/-- PARAM0 (R44): both halves are counts of 16 bits. -/
theorem param0Word_toNat (c : Config) : (param0Word c).toNat = c.resetBytes * 65536 + c.maxLeds := by
  have hleds : c.maxLeds < 2 ^ 16 := by
    have := c.extraLeds.isLt
    unfold Config.maxLeds
    omega
  rw [param0Word, BitVec.toNat_append, BitVec.toNat_ofNat, Nat.mod_eq_of_lt hleds, ← Nat.shiftLeft_add_eq_or_of_lt hleds,
    Nat.shiftLeft_eq]
  rfl

/-- PARAM1 (R44): the four bytes of PAT. -/
theorem param1Word_bytes (c : Config) :
    (param1Word c).extractLsb' 0 8 = c.pat.p0 ∧ (param1Word c).extractLsb' 8 8 = c.pat.p1 ∧
    (param1Word c).extractLsb' 16 8 = c.pat.p2 ∧ (param1Word c).extractLsb' 24 8 = c.pat.p3 := by
  refine ⟨?_, ?_, ?_, ?_⟩
  all_goals
    refine extractLsb'_eq_of_bits fun k hk => ?_
    rw [param1Word]
    simp (disch := omega) only [BitVec.getLsbD_append, if_neg, if_pos]
    congr 1
    omega

/-- PARAM2 (R44): NPORTS, which 4 bits hold. -/
theorem param2Word_toNat (c : Config) : (param2Word c).toNat = c.nports := by
  have hports : c.nports < 2 ^ 4 := by
    have := c.extraPorts.isLt
    unfold Config.nports
    omega
  rw [param2Word, BitVec.toNat_append, BitVec.toNat_ofNat c.nports, Nat.mod_eq_of_lt hports]
  simp

/-- Settles O34: the reads give the three words, which say the configuration by value. -/
theorem paramRegisters : Obligations.ParamRegisters := by
  intro s h hh
  refine ⟨⟨_, step_rd (r := .param0) hh rfl rfl, param0Word_toNat _⟩,
    ⟨_, step_rd (r := .param1) hh rfl rfl, param1Word_bytes _⟩,
    ⟨_, step_rd (r := .param2) hh rfl rfl, param2Word_toNat _, ?_⟩⟩
  rw [param2Word_toNat]
  have := Config.chip.extraPorts.isLt
  unfold Config.nports
  omega

/-! ### Command writes -/

theorem decode_port {p : PortId} {w : Word} {i : Instr} (h : decode p w = .command i) : i.port = p := by
  unfold decode at h
  repeat' split at h
  all_goals cases h
  all_goals rfl

/-- A command on a port that takes none is dropped, whatever it is (R92). -/
theorem exec_of_not_accepts {s : State} {i : Instr} (hp : s.hasPort i.port = true) (ha : (s.port i.port).accepts ≠ true) :
    exec i s = .next (s.setPort i.port (s.port i.port).drop) := by
  cases i with
  | setlen p n => simp only [Instr.port] at hp ha; simp [exec, execSetlen, writeCommand, hp, ha, Instr.port]
  | send p n => simp only [Instr.port] at hp ha; simp [exec, execSend, writeCommand, hp, ha, Instr.port]

/-- Settles O10: the write reaches CMD_p, and there a port that takes the command runs it and one that does not drops it, as its meaning
says too. -/
theorem stepRunsDecodedCommand : Obligations.StepRunsDecodedCommand := by
  intro s h p w i hh hp hi
  have ht : (⟨.write, (Reg.cmd p).offset, 32, w⟩ : HostAccess).target s = some (.cmd p) :=
    (target_iff s _ _).mpr ⟨rfl, rfl, hp⟩
  rw [wr, wrAt, step_host hh]
  simp only [hostAccess, regWrite, ht, writeCmdReg]
  split
  · rw [hi]
  · next ha =>
    obtain rfl := decode_port hi
    exact (exec_of_not_accepts hp ha).symm

/-! ### Refused accesses -/

/-- The registers a host may write (R45). -/
def Reg.writable : Reg → Bool
  | .cmd _ | .pixBase _ | .delay _ => true
  | .status _ | .lenCfg | .hwstat | .dmaPos | .dmaLen | .param0 | .param1 | .param2 => false

/-- The registers a host may read (R45). -/
def Reg.readable : Reg → Bool
  | .cmd _ => false
  | .pixBase _ | .delay _ | .status _ | .lenCfg | .hwstat | .dmaPos | .dmaLen | .param0 | .param1 | .param2 => true

/-- A host access that reaches no register, or one that does not allow it, is refused (R54). -/
theorem hostAccess_refused {c : Config} {s : State} {h : HostId} {x : HostAccess}
    (hx : ∀ r, x.target s = some r → (x.kind = .read ∧ r.readable = false) ∨ (x.kind = .write ∧ r.writable = false)) :
    hostAccess c h x s = .next (s.refuse h x) := by
  unfold hostAccess
  cases ht : x.target s with
  | none =>
    cases x.kind with
    | read => simp only [regRead, ht]
    | write => simp only [regWrite, ht]
  | some r =>
    obtain ⟨hk, hr⟩ | ⟨hk, hr⟩ := hx r ht
    · cases r with
      | cmd p => simp only [hk, regRead, ht, readReg]
      | _ => cases hr
    · cases r with
      | cmd p | pixBase p | delay p => cases hr
      | _ => simp only [hk, regWrite, ht]

/-- A register at or above offset 0x200 is a shared one, which no host may write (R42, R45). -/
theorem writable_offset_lt {r : Reg} (h : r.writable = true) : r.offset < 0x200 := by
  cases r with
  | cmd p | pixBase p | delay p =>
    have := p.isLt
    simp only [Reg.offset]
    omega
  | _ => cases h

/-- Once an access of the context `h` is refused, that context takes no step and the others go on (R125, log entry 21). -/
theorem refuse_hostRuns (s : State) (h g : HostId) (x : HostAccess) :
    (s.refuse h x).hostRuns g = (s.hostRuns g && decide (h ≠ g)) := by
  simp [State.hostRuns]

/-- Settles O28: in each case the access reaches no register that allows it, and after its mark the guards say the rest. -/
theorem meaninglessAccessIsRefused : Obligations.MeaninglessAccessIsRefused := by
  intro s h x hh hcase
  have hx : ∀ r, x.target s = some r → (x.kind = .read ∧ r.readable = false) ∨ (x.kind = .write ∧ r.writable = false) := by
    intro r hr
    obtain ⟨hw, hoff, hp⟩ := (target_iff s x r).mp hr
    obtain hne | hne | hne | ⟨hk, p, e⟩ | ⟨hk, ⟨p, e⟩ | hge⟩ := hcase
    · exact absurd hw hne
    · exact absurd (ofOffset_some (hoff ▸ ofOffset_offset r)).2 hne
    · exact absurd hp (by rw [hne r hoff]; decide)
    · have : some r = some (Reg.cmd p) := by rw [← ofOffset_offset, ← ofOffset_offset, hoff, e]
      cases this
      exact .inl ⟨hk, rfl⟩
    · have : some r = some (Reg.status p) := by rw [← ofOffset_offset, ← ofOffset_offset, hoff, e]
      cases this
      exact .inr ⟨hk, rfl⟩
    · refine .inr ⟨hk, ?_⟩
      by_contra hne
      have := writable_offset_lt (by simpa using hne)
      omega
  have hstop : (s.refuse h x).hostRuns h = false := by simp [refuse_hostRuns]
  have hgo : ∀ g, g ≠ h → (s.refuse h x).hostRuns g = s.hostRuns g := fun g hg => by simp [refuse_hostRuns, hg.symm]
  refine ⟨s.refuse h x, ?_, rfl, fun b => fire_disabled (a := .host h b) hstop _,
    fun y v => fire_disabled (a := .memStore h y v) hstop _, ?_,
    fun g b y v hg => ⟨hgo g hg, hgo g hg⟩⟩
  · rw [step_host hh]
    exact hostAccess_refused hx
  · intro b hb
    cases b with
    | host | memStore | reset => cases hb
    | _ => rfl

end Sys2Proof.Machine
end

section
/-! PROOFS, family 10_state: what reset leaves (R48, R137), and which steps change TXBUF (R37), the wire log (R38) and the flags (R41). -/

namespace Sys2Proof.Machine

section
variable {c : Config} {s t u : State} {a : Action} {p r : PortId}

/-! ### Reset -/

theorem resetClose_of_closed {w : Wire} (h : w.isOpen = false) : w.resetClose = w := by simp [Wire.resetClose, h]

theorem resetClose_of_open (fs : List Frame) (f : Frame) :
    Wire.resetClose ⟨fs ++ [f], true⟩ = ⟨fs ++ [⟨f.bytes, true⟩], false⟩ := by
  simp [Wire.resetClose, onLastFrame_append]

theorem resetEvent_hwstatWord (c : Config) (s : State) : (resetEvent c s).hwstatWord = 0x00000F00#32 := by
  simp only [State.hwstatWord, resetEvent, State.resetWith, lockCode, DmaState.code]
  decide

/-! ### TXBUF -/

/-- Which steps change TXBUF: reset, and three steps of a port in a phase that has the lock (R37). -/
theorem StepEffect.txbuf_cases (h : StepEffect c s a t) :
    t.txbuf = s.txbuf ∨ a = .reset ∨ ∃ p, (s.port p).phase.holdsLock = true ∧
      ((∃ sel, a = .fill p sel) ∨ a = .tail p ∨ a = .slWrite p) := by
  cases h with
  | reset => exact .inr (.inl rfl)
  | slWriteDone p _ _ hph | slWriteGo p _ _ hph => exact .inr (.inr ⟨p, by rw [hph]; rfl, .inr (.inr rfl)⟩)
  | tail p _ _ hph => exact .inr (.inr ⟨p, by rw [hph]; rfl, .inr (.inl rfl)⟩)
  | fill p sel _ _ _ hph => exact .inr (.inr ⟨p, by rw [hph]; rfl, .inl ⟨sel, rfl⟩⟩)
  | memStore _ x v =>
    obtain ⟨ports, mem, -, e⟩ := memStore_eq s x v
    exact .inl (by rw [e])
  | _ => exact .inl rfl

/-! ### The wire log -/

/-- What R121 and R137 ask of the wire log over one step. -/
def WireGrows (w w' : Wire) : Prop :=
  w.frames.dropLast <+: w'.frames ∧ w.frames.length ≤ w'.frames.length ∧ (w.isOpen = false → w.frames <+: w'.frames) ∧
    ∀ f : Frame, w.frames.getLast? = some f → ∃ g : Frame, w'.frames[w.frames.length - 1]? = some g ∧ f.bytes <+: g.bytes

/-- Frames that come after all those there. -/
theorem WireGrows.of_append {w w' : Wire} {fs : List Frame} (h : w'.frames = w.frames ++ fs) : WireGrows w w' := by
  refine ⟨?_, ?_, fun _ => ?_, fun f hf => ⟨f, ?_, List.prefix_rfl⟩⟩
  · rw [h]; exact (List.dropLast_prefix _).trans (List.prefix_append _ _)
  · rw [h, List.length_append]; exact Nat.le_add_right _ _
  · rw [h]; exact List.prefix_append _ _
  · obtain ⟨gs, e⟩ := List.getLast?_eq_some_iff.mp hf
    simp [h, e]

/-- A change of the last frame, while it is open, that keeps its bytes and perhaps adds to them. -/
theorem WireGrows.of_lastFrame {w w' : Wire} {f : Frame → Frame} (hopen : w.isOpen = true)
    (h : w'.frames = onLastFrame f w.frames) (hf : ∀ x : Frame, x.bytes <+: (f x).bytes) : WireGrows w w' := by
  rcases List.eq_nil_or_concat w.frames with e | ⟨gs, g, e⟩
  · exact .of_append (fs := []) (by simp [h, e, onLastFrame])
  · have h' : w'.frames = gs ++ [f g] := by rw [h, e, List.concat_eq_append, onLastFrame_append]
    refine ⟨?_, ?_, fun hclosed => ?_, fun x hx => ⟨f g, ?_, ?_⟩⟩
    · simp [h', e]
    · simp [h', e]
    · simp [hopen] at hclosed
    · simp [h', e]
    · obtain rfl : g = x := by simpa [e] using hx
      exact hf g

/-- Only KICK adds a frame, only DMA_EMIT adds a byte, to the open frame, and reset marks the open frame truncated. -/
theorem StepEffect.wireGrows (h : StepEffect c s a t) (hi : Inv c s) : WireGrows s.wire t.wire := by
  have same : ∀ {w : Wire}, w.frames = s.wire.frames → WireGrows s.wire w := fun e =>
    .of_append (fs := []) (by rw [e, List.append_nil])
  cases h with
  | kick => exact .of_append rfl
  | dmaEmit b hr =>
    exact .of_lastFrame (hi.block.wire.1.mpr hr) rfl fun x => List.prefix_append _ _
  | reset =>
    by_cases ho : s.wire.isOpen = true
    · exact .of_lastFrame (f := fun f => { f with truncated := true }) ho
        (by simp [resetEvent, Wire.resetClose, ho]) fun x => List.prefix_rfl
    · exact same (congrArg Wire.frames (resetClose_of_closed (by simpa using ho)))
  | memStore _ x v =>
    obtain ⟨ports, mem, -, e⟩ := memStore_eq s x v
    exact same (by rw [e])
  | _ => exact same rfl

/-! ### The flags -/

/-- What a step may do to a flag: leave it, set it where `set` says so, clear it where `clear` says so. -/
def FlagChange (set clear : Prop) (old new : Bool) : Prop := new = old ∨ (new = true ∧ set) ∨ (new = false ∧ clear)

theorem FlagChange.set_of {S C : Prop} {old new : Bool} (h : FlagChange S C old new) (ho : old = false) (hn : new = true) : S := by
  obtain e | ⟨-, hs⟩ | ⟨e, -⟩ := h
  · simp [ho, hn] at e
  · exact hs
  · simp [hn] at e

theorem FlagChange.clear_of {S C : Prop} {old new : Bool} (h : FlagChange S C old new) (ho : old = true) (hn : new = false) :
    C := by
  obtain e | ⟨e, -⟩ | ⟨-, hc⟩ := h
  · simp [ho, hn] at e
  · simp [hn] at e
  · exact hc

theorem FlagChange.same {S C : Prop} {x : Bool} : FlagChange S C x x := .inl rfl
theorem FlagChange.sets {S C : Prop} {x : Bool} (h : S) : FlagChange S C x true := .inr (.inl ⟨rfl, h⟩)
theorem FlagChange.clears {S C : Prop} {x : Bool} (h : C) : FlagChange S C x false := .inr (.inr ⟨rfl, h⟩)

/-- What a step may do to BUSY, EVT, IRQ_PEND and INIT (R41). -/
structure BlockFlagsChange (a : Action) (s t : State) : Prop where
  busy : FlagChange (∃ p, a = .kick p) (a = .dmaIdle ∨ a = .reset) s.busy t.busy
  evt : FlagChange (a = .chTake) ((∃ p, a = .evtTake p) ∨ a = .reset) s.evt t.evt
  irqPend : FlagChange (a = .dmaEnd) (a = .chTake ∨ a = .reset) s.irqPend t.irqPend
  init : FlagChange (∃ p, a = .slSet p) (a = .reset) s.init t.init

/-- A write of CMD_p by some host context. -/
def IsCmdWrite (a : Action) (p : PortId) : Prop := ∃ h w, a = wr h (.cmd p) w

/-- What a step may do to DONE, OVR and FATAL of port `p` (R41). -/
structure PortFlagsChange (a : Action) (p : PortId) (q q' : Port) : Prop where
  done : FlagChange
    (IsCmdWrite a p ∨ a = .slSet p ∨ a = .slWrite p ∨ a = .check p ∨ a = .pollGiveup p ∨ a = .evtTake p ∨ a = .evtTimeout p)
    (IsCmdWrite a p ∨ a = .reset) q.done q'.done
  ovr : FlagChange (IsCmdWrite a p) (IsCmdWrite a p ∨ a = .reset) q.ovr q'.ovr
  fatal : FlagChange (a = .lockTimeout p) (a = .reset) q.fatal q'.fatal

theorem StepEffect.blockFlags (h : StepEffect c s a t) : BlockFlagsChange a s t := by
  cases h with
  | kick p => exact ⟨.sets ⟨p, rfl⟩, .same, .same, .same⟩
  | dmaIdle => exact ⟨.clears (.inl rfl), .same, .same, .same⟩
  | chTake => exact ⟨.same, .sets rfl, .clears (.inl rfl), .same⟩
  | evtTake p => exact ⟨.same, .clears (.inl ⟨p, rfl⟩), .same, .same⟩
  | dmaEnd => exact ⟨.same, .same, .sets rfl, .same⟩
  | slSetDone p | slSetGo p => exact ⟨.same, .same, .same, .sets ⟨p, rfl⟩⟩
  | reset => exact ⟨.clears (.inr rfl), .clears (.inr rfl), .clears (.inr rfl), .clears rfl⟩
  | memStore _ x v =>
    obtain ⟨ports, mem, -, e⟩ := memStore_eq s x v
    rw [e]
    exact ⟨.same, .same, .same, .same⟩
  | _ => exact ⟨.same, .same, .same, .same⟩

/-- A 32-bit write that reaches a register is the spec's `WR` of it (R73). -/
theorem eq_wr_of_target {h : HostId} {x : HostAccess} {g : Reg} (hk : x.kind = .write) (ht : x.target s = some g) :
    Action.host h x = wr h g x.value := by
  obtain ⟨hw, hoff, -⟩ := (target_iff s x g).mp ht
  cases x
  simp_all [wr, wrAt]

/-- Among a host's writes of a port's registers only those of CMD_p change DONE and OVR, and none changes FATAL. -/
theorem HostPortChange.flags {q q' : Port} {g : Reg} (h : HostPortChange p q g q') (hg : g = .cmd p → IsCmdWrite a p) :
    PortFlagsChange a p q q' := by
  cases h with
  | pixBase | delay => exact ⟨.same, .same, .same⟩
  | drop => exact ⟨.same, .sets (hg rfl), .same⟩
  | accept _ op n => cases op <;> exact ⟨.clears (.inl (hg rfl)), .clears (.inl (hg rfl)), .same⟩
  | illegal => exact ⟨.sets (.inl (hg rfl)), .clears (.inl (hg rfl)), .same⟩

/-- A port that ends its command sets DONE (R91). -/
theorem finish_flags {q : Port} {res : Result}
    (h : a = .slSet p ∨ a = .slWrite p ∨ a = .check p ∨ a = .pollGiveup p ∨ a = .evtTake p ∨ a = .evtTimeout p) :
    PortFlagsChange a p q (q.finish res) :=
  ⟨.sets (.inr h), .same, .same⟩

theorem StepEffect.portFlags (h : StepEffect c s a t) (hi : Inv c s) (r : PortId) :
    PortFlagsChange a r (s.port r) (t.port r) := by
  have same : ∀ {q : Port}, PortFlagsChange a r q q := ⟨.same, .same, .same⟩
  have one : ∀ {u : State} {p : PortId} {q : Port}, u.ports = s.ports → s.hasPort p = true →
      PortFlagsChange a p (s.port p) q → PortFlagsChange a r (s.port r) ((u.setPort p q).port r) := by
    intro u p q hu hp hq
    rw [setPort_port_of_ports hu hp]
    split
    · next e => exact e ▸ hq
    · exact same
  cases h with
  | refuse | read | dmaEmit | dmaEnd | dmaIdle | chTake => exact same
  | hostWrite g x p reg q hp hk ht hq =>
    exact one rfl hp (hq.flags fun e => ⟨g, x.value, e ▸ eq_wr_of_target hk ht⟩)
  | memStore _ x v => obtain e | ⟨old, e⟩ := memStore_port s x v r <;> rw [e] <;> exact ⟨.same, .same, .same⟩
  | lockTimeout p hp hph =>
    have hdone : (s.port p).done = false := by
      rw [← Bool.not_eq_true]
      exact fun hd => Phase.noConfusion (hph.symm.trans ((hi.port p).done hd))
    exact one rfl hp ⟨.inl hdone.symm, .same, .sets rfl⟩
  | slSetDone p hp => exact one rfl hp ⟨.sets (by simp), .same, .same⟩
  | slWriteDone p _ hp => exact one rfl hp ⟨.sets (by simp), .same, .same⟩
  | checkInvalid p hp => exact one rfl hp (finish_flags (by simp))
  | pollGiveup p hp => exact one rfl hp (finish_flags (by simp))
  | evtTake p hp => exact one rfl hp (finish_flags (by simp))
  | evtTimeout p hp => exact one rfl hp (finish_flags (by simp))
  | lockAcq p hp | slSetGo p hp | slWriteGo p _ hp | checkOk p hp | poll p hp | fill p _ _ _ hp | tail p _ hp | kick p hp =>
    exact one rfl hp ⟨.same, .same, .same⟩
  | reset =>
    rw [port_of_all_reset (s := resetEvent c s) (k := c.nports) rfl r]
    exact ⟨.clears (.inr rfl), .clears (.inr rfl), .clears rfl⟩

end

/-! ### The statements -/

/-- Settles O27: the next state is that of `resetEvent`, every port of which is as R48 says. -/
theorem resetStep : Obligations.ResetStep := by
  intro s
  have hport : ∀ p, (resetEvent Config.chip s).port p = Port.reset := port_of_all_reset (k := Config.chip.nports) rfl
  refine ⟨resetEvent Config.chip s, rfl, List.length_replicate, fun p => ?_, rfl, rfl, rfl, rfl, rfl, rfl, rfl, rfl, rfl,
    resetEvent_hwstatWord _ s, txbufAtReset_length _ _, resetClose_of_closed, fun fs f e => ?_, rfl, rfl, rfl, rfl⟩
  · rw [hport]
    decide
  · show s.wire.resetClose = _
    rw [e, resetClose_of_open]

/-- Settles O39: the size is part of the invariant, and the three steps that write TXBUF are of a port in a phase that has the lock. -/
theorem txbufWrittenOnlyUnderTheLock : Obligations.TxbufWrittenOnlyUnderTheLock := by
  intro s t hi h
  refine ⟨(stepKeepsInvariant s t hi h).block.txbuf.trans hi.block.txbuf.symm, fun hne => ?_⟩
  obtain ⟨l, k, rfl | ⟨-, he⟩⟩ := step_cases h
  · exact absurd rfl hne
  · obtain e | e | ⟨p, hl, ha⟩ := he.txbuf_cases
    · exact absurd e hne
    · exact .inl e
    · exact .inr ⟨p, (hi.port p).lock.mpr hl, ha⟩

/-- Settles O44: a step that holds leaves the wire log, and one that fires lets it grow. -/
theorem wireLogOnlyGrows : Obligations.WireLogOnlyGrows := by
  intro s t hi h
  obtain ⟨l, k, rfl | ⟨-, he⟩⟩ := step_cases h
  · exact WireGrows.of_append (fs := []) (List.append_nil _).symm
  · exact he.wireGrows hi

/-- Settles O37: a step that holds changes no flag, and one that fires changes those its effect names. -/
theorem flagsChangeOnlyInTheirSteps : Obligations.FlagsChangeOnlyInTheirSteps := by
  intro s t hi h
  obtain ⟨hb, hp⟩ : BlockFlagsChange (nextAction s) s t ∧ ∀ p, PortFlagsChange (nextAction s) p (s.port p) (t.port p) := by
    obtain ⟨l, k, rfl | ⟨-, he⟩⟩ := step_cases h
    · exact ⟨⟨.same, .same, .same, .same⟩, fun p => ⟨.same, .same, .same⟩⟩
    · obtain ⟨hbusy, hevt, hirq, hinit⟩ := he.blockFlags
      exact ⟨⟨hbusy, hevt, hirq, hinit⟩, he.portFlags hi⟩
  exact ⟨hb.busy.set_of, hb.busy.clear_of, hb.evt.set_of, hb.evt.clear_of, hb.irqPend.set_of, hb.irqPend.clear_of,
    hb.init.set_of, hb.init.clear_of, fun p => ⟨(hp p).done.set_of, (hp p).done.clear_of, (hp p).ovr.set_of,
      (hp p).ovr.clear_of, (hp p).fatal.set_of, (hp p).fatal.clear_of⟩⟩

end Sys2Proof.Machine
end

section
/-! PROOFS, family 20_memory: what the reads of a SEND return (R51, R61), the SEND stuck on a byte that cannot be read (R103), the
layout of an encoded pixel (R86, R87), and that no step stops the machine (R53). -/

namespace Sys2Proof.Machine

section
variable {c : Config} {s t : State} {a : Action} {p r : PortId} {q : Port}

/-! ### The reads of a SEND -/

/-- Where no store is remembered, a read returns what memory holds. -/
theorem memReads_of_stale_nil (s : State) (hq : q.stale = []) (x : Nat) : s.memReads q x = (s.mem.read x).toList := by
  unfold State.memReads
  cases s.mem.read x <;> simp [hq, cellsAt]

/-- A read of a byte that is there may return it. -/
theorem read_mem_memReads {x : Nat} {v : Byte} (h : s.mem.read x = some v) (q : Port) : v ∈ s.memReads q x := by
  simp [State.memReads, h]

/-- A read of a byte that is there may return an older one that the SEND remembers (R61). -/
theorem stale_mem_memReads {x : Nat} {v old : Byte} (h : s.mem.read x = some v) (hold : (x, old) ∈ q.stale) :
    old ∈ s.memReads q x := by
  simp only [State.memReads, h, cellsAt, List.mem_cons, List.mem_filterMap]
  exact .inr ⟨(x, old), hold, if_pos rfl⟩

/-- A read of a byte that is not there is not admitted (R51). -/
theorem memReads_of_unreadable {x : Nat} (h : s.mem.read x = none) (q : Port) : s.memReads q x = [] := by
  simp [State.memReads, h]

/-- A host store that replaces a byte is remembered by every port, one that is not there having no SEND to remember it for. -/
theorem memStore_port_of_read {x : Word} {old : Byte} (h : s.mem.read x.toNat = some old) (v : Byte) (p : PortId) :
    (s.memStore x v).port p = (s.port p).rememberStale x.toNat old := by
  simp only [State.memStore, h, State.port, List.getElem?_map]
  cases s.ports[p.val]? <;> rfl

/-- SEND on a port that takes commands is accepted (R90, R99). -/
theorem exec_send_of_accepts (hp : s.hasPort p = true) (ha : (s.port p).accepts = true) (n : Half) :
    exec (.send p n) s = .next (s.setPort p (Port.acceptOp .send n (s.port p).beginCommand)) := by
  simp [exec, execSend, writeCommand, hp, ha]

/-- The store of a host context that no refusal has stopped takes place. -/
theorem step_memStore {h : HostId} (hh : s.hostRuns h = true) (x : Word) (v : Byte) :
    step (chosen (.memStore h x v) s) = .next (s.memStore x v) :=
  fire_enabled (a := .memStore h x v) hh _

/-! ### A port whose own step is not the one taken -/

/-- The port whose sequencer takes a step, and the phase in which it takes it (R94, R99). -/
def Action.turn : Action → Option (PortId × Phase)
  | .lockAcq p | .lockTimeout p => some (p, .lockWait)
  | .slSet p => some (p, .slSet)
  | .slWrite p => some (p, .slWrite)
  | .check p => some (p, .check)
  | .poll p | .pollGiveup p => some (p, .poll)
  | .fill p _ => some (p, .fill)
  | .tail p => some (p, .tail)
  | .kick p => some (p, .kick)
  | .evtTake p | .evtTimeout p => some (p, .evtWait)
  | .host _ _ | .memStore _ _ _ | .dmaEmit | .dmaEnd | .dmaIdle | .chTake | .reset => none

/-- The command a port has in progress is as it was: only what the host writes without the sequencer (PIX_BASE, DELAY, OVR, and the bytes
that its stores leave behind) may differ. -/
def Port.SameProgress (q q' : Port) : Prop :=
  q' = { q with pixBase := q'.pixBase, delay := q'.delay, ovr := q'.ovr, stale := q'.stale }

theorem Port.SameProgress.phase {q' : Port} (h : q.SameProgress q') : q'.phase = q.phase := by rw [h]
theorem Port.SameProgress.base {q' : Port} (h : q.SameProgress q') : q'.base = q.base := by rw [h]
theorem Port.SameProgress.i {q' : Port} (h : q.SameProgress q') : q'.i = q.i := by rw [h]

/-- A host's write of a register of a port that takes no command leaves the one in progress as it was (R92, R110). -/
theorem HostPortChange.sameProgress {q' : Port} {g : Reg} (h : HostPortChange p q g q') (ha : q.accepts = false) :
    q.SameProgress q' := by
  cases h with
  | pixBase | delay | drop => rfl
  | accept h | illegal h => simp [ha] at h

/-- A port with a command in progress takes no other (R92). -/
theorem Inv.accepts_of_isActive (hi : Inv c s) (hr : (s.port r).phase.isActive = true) : (s.port r).accepts = false := by
  simp [Port.accepts, (hi.port r).active, hr]

/-- The command in progress on a port moves on by its own sequencer's step alone, and by reset. -/
theorem StepEffect.sameProgress (h : StepEffect c s a t) (hi : Inv c s) (hreset : a ≠ .reset)
    (hr : (s.port r).phase.isActive = true) (hturn : a.turn ≠ some (r, (s.port r).phase)) :
    (s.port r).SameProgress (t.port r) := by
  have beside : ∀ {u : State} {p : PortId} {q : Port}, a.turn = some (p, (s.port p).phase) → u.ports = s.ports →
      s.hasPort p = true → (s.port r).SameProgress ((u.setPort p q).port r) := by
    intro u p q ha hu hp
    have hne : r ≠ p := fun e => hturn (e ▸ ha)
    rw [setPort_port_of_ports hu hp, if_neg hne]
    rfl
  cases h with
  | reset => exact absurd rfl hreset
  | refuse | read | dmaEmit | dmaEnd | dmaIdle | chTake => rfl
  | memStore _ x v => obtain e | ⟨old, e⟩ := memStore_port s x v r <;> rw [e] <;> rfl
  | hostWrite _ _ p _ q hp _ _ hq =>
    rw [setPort_port hp]
    split
    · next e => exact (e ▸ hq).sameProgress (hi.accepts_of_isActive hr)
    · rfl
  | lockAcq p hp hph | lockTimeout p hp hph | slSetDone p hp hph | slSetGo p hp hph | checkOk p hp hph | checkInvalid p hp hph
  | poll p hp hph | pollGiveup p hp hph | kick p hp hph | evtTake p hp hph | evtTimeout p hp hph
  | slWriteDone p _ hp hph | slWriteGo p _ hp hph | tail p _ hp hph | fill p _ _ _ hp hph =>
    exact beside (by rw [hph]; rfl) rfl hp

/-! ### A byte that cannot be read -/

/-- No step makes a byte readable (R51). -/
theorem StepEffect.unreadable (h : StepEffect c s a t) {x : Nat} (hx : s.mem.read x = none) : t.mem.read x = none := by
  by_cases hstore : ∃ g y v, a = .memStore g y v
  · obtain ⟨g, y, v, rfl⟩ := hstore
    cases h
    rw [memStore_read, hx]
    exact ite_self _
  · rw [h.mem_eq fun g y v e => hstore ⟨g, y, v, e⟩, hx]

/-- FILL does not fire while the byte it is to read is not there (R51, R103). -/
theorem StepEffect.turn_ne_fill (h : StepEffect c s a t) (hx : s.mem.read (s.port r).pixelAddr = none) :
    a.turn ≠ some (r, .fill) := by
  intro e
  cases h with
  | fill p sel v _ _ _ hv =>
    obtain rfl : p = r := congrArg Prod.fst (Option.some.inj e)
    simp [memReads_of_unreadable hx] at hv
  | _ => simp [Action.turn] at e

/-! ### Every step answers a next state -/

/-- A step that writes TXBUF answers a next state when its writes are in range. -/
theorem withTx_of_some {buf : Option (List Byte)} (h : ∃ b, buf = some b) (s : State) : ∃ t, s.withTx buf = .next t := by
  obtain ⟨b, rfl⟩ := h
  exact ⟨_, rfl⟩

/-- The configured frame lies in TXBUF (R7, R39 c). -/
theorem Inv.frameLen_le (hi : Inv c s) : c.frameLen s.lenCfg ≤ s.txbuf.length :=
  (frameLen_le_txbufSize hi.block.len).trans_eq hi.block.txbuf.symm

/-- The pixels of a checked SEND lie in the configured frame (R100). -/
theorem pixels_le_frameLen {n len : Half} (h : n.toNat ≤ len.toNat) : 12 * n.toNat ≤ c.frameLen len := by
  unfold Config.frameLen
  omega

/-- SL_WRITE writes inside the configured frame (R98). -/
theorem slWrite_next (hi : Inv c s) (hph : (s.port p).phase = .slWrite) : ∃ t, slWrite c p s = .next t := by
  obtain ⟨-, hj⟩ : _ ∧ (s.port p).j.toNat < c.frameLen s.lenCfg := hi.phaseOk hph
  exact withTx_of_some ⟨_, txWrite_some (hj.trans_le hi.frameLen_le) _⟩ _

/-- FILL writes the pixel of the byte it has read, one of the SEND's pixels (R103). -/
theorem fill_next (hi : Inv c s) (hph : (s.port p).phase = .fill) (sel : Nat) : ∃ t, fill c p sel s = .next t := by
  obtain ⟨-, -, hn, -, hlt⟩ : _ ∧ _ ∧ (s.port p).n.toNat ≤ s.lenCfg.toNat ∧ _ ∧
    (s.port p).i.toNat < 3 * (s.port p).n.toNat := hi.phaseOk hph
  have hframe := (pixels_le_frameLen hn).trans hi.frameLen_le
  unfold fill
  split
  · exact ⟨_, rfl⟩
  · refine withTx_of_some ?_ _
    unfold fillTx
    split
    · refine txWriteAll_isSome ?_
      rw [encPixel_length]
      omega
    · exact ⟨_, rfl⟩

/-- TAIL writes up to the end of the configured frame (R104). -/
theorem tail_next (hi : Inv c s) (hph : (s.port p).phase = .tail) : ∃ t, tail c p s = .next t := by
  obtain ⟨-, -, hn, -⟩ : _ ∧ _ ∧ (s.port p).n.toNat ≤ s.lenCfg.toNat ∧ _ := hi.phaseOk hph
  refine withTx_of_some (txWriteAll_isSome ?_) _
  rw [List.length_replicate, Nat.add_sub_cancel' (pixels_le_frameLen hn)]
  exact hi.frameLen_le

/-- DMA_EMIT reads below DMA_LEN, which is in TXBUF (R39 b, R112). -/
theorem dmaEmit_next (hi : Inv c s) (hlt : s.dmaPos.toNat < s.dmaLen.toNat) : ∃ t, dmaEmit s = .next t := by
  have hpos : s.dmaPos.toNat < s.txbuf.length := hlt.trans_le (hi.block.dma.2.trans_eq hi.block.txbuf.symm)
  exact ⟨_, by rw [dmaEmit, txRead, List.getElem?_eq_getElem hpos]⟩

/-- An enabled step answers a next state: the steps that use TXBUF do so in range (R53), and no other can stop. -/
theorem effect_next (hi : Inv c s) (ha : enabled s a = true) : ∃ t, effect c s a = .next t := by
  cases a with
  | host h x => exact hostAccess_next c h x s
  | slWrite p => exact slWrite_next hi ((inPhase_iff s p _).mp ha).2
  | fill p sel =>
    obtain ⟨hin, -⟩ := (Bool.and_eq_true _ _).mp ha
    exact fill_next hi ((inPhase_iff s p _).mp hin).2 sel
  | tail p => exact tail_next hi ((inPhase_iff s p _).mp ha).2
  | dmaEmit =>
    obtain ⟨-, hlt⟩ := (Bool.and_eq_true _ _).mp ha
    exact dmaEmit_next hi (of_decide_eq_true hlt)
  | _ => exact ⟨_, rfl⟩

/-- A step that holds answers a next state too. -/
theorem fire_next (hi : Inv c s) (a : Action) : ∃ t, fire c a s = .next t := by
  by_cases ha : enabled s a = true
  · rw [fire_enabled ha]
    exact effect_next hi ha
  · exact ⟨s, fire_disabled (by simpa using ha) c⟩

/-- Using up a choice keeps the invariant, which says nothing of the schedule. -/
theorem consume_keeps_inv (hi : Inv c s) : Inv c (consume s) := by
  obtain ⟨l, k, e⟩ := consume_eq s
  rw [e]
  exact hi

/-! ### The layout of an encoded pixel -/

/-- Byte `m` of an encoded byte is the pattern of slice `m`, the most significant first (R86). -/
theorem encByte_getElem? (tab : Patterns) (x : Byte) {m : Nat} (hm : m < 4) :
    (encByte tab x)[m]? = some (patternOf tab (BitVec.ofNat 2 (x.toNat / 4 ^ (3 - m)))) := by
  have slice : ∀ k, x.extractLsb' (2 * k) 2 = BitVec.ofNat 2 (x.toNat / 4 ^ k) := fun k => by
    rw [BitVec.extractLsb', Nat.shiftRight_eq_div_pow, Nat.pow_mul]
  match m, hm with
  | 0, _ => exact congrArg (fun y => some (patternOf tab y)) (slice 3)
  | 1, _ => exact congrArg (fun y => some (patternOf tab y)) (slice 2)
  | 2, _ => exact congrArg (fun y => some (patternOf tab y)) (slice 1)
  | 3, _ => exact congrArg (fun y => some (patternOf tab y)) (slice 0)

/-- The four bytes of each colour of an encoded pixel are that colour's encoding: green, then red, then blue (R87). -/
theorem encPixel_getElem? (tab : Patterns) (x : Rgb) {k m : Nat} {colour : Byte} (hm : m < 4)
    (hk : k = 0 ∧ colour = x.g ∨ k = 1 ∧ colour = x.r ∨ k = 2 ∧ colour = x.b) :
    (encPixel tab x)[4 * k + m]? = (encByte tab colour)[m]? := by
  have hg : (encByte tab x.g).length = 4 := encByte_length tab x.g
  have hgr : (encByte tab x.g ++ encByte tab x.r).length = 8 := rfl
  have hr : (encByte tab x.r).length = 4 := encByte_length tab x.r
  unfold encPixel
  obtain ⟨rfl, rfl⟩ | ⟨rfl, rfl⟩ | ⟨rfl, rfl⟩ := hk
  · rw [List.append_assoc, List.getElem?_append_left (by omega)]
    congr 1; omega
  · rw [List.getElem?_append_left (by omega), List.getElem?_append_right (by omega)]
    congr 1; omega
  · rw [List.getElem?_append_right (by omega)]
    congr 1; omega

end

/-! ### The statements -/

/-- Settles O35: acceptance forgets the older bytes, and a later store is remembered by the SEND in progress. -/
theorem storesAfterAcceptanceMayBeUnseen : Obligations.StoresAfterAcceptanceMayBeUnseen := by
  constructor
  · intro s p n x hp ha
    refine ⟨_, exec_send_of_accepts hp ha n, ?_⟩
    rw [setPort_port_same hp]
    exact memReads_of_stale_nil _ (Port.acceptSend_stale ..) x
  · intro s h p x new old hh hop hold
    have hport : (s.memStore x new).port p = { s.port p with stale := (x.toNat, old) :: (s.port p).stale } :=
      (memStore_port_of_read hold new p).trans (if_pos hop)
    have hnew : (s.memStore x new).mem.read x.toNat = some new := by simp [memStore_read, hold]
    refine ⟨_, step_memStore hh x new, read_mem_memReads hnew _, stale_mem_memReads hnew ?_, fun y hy => ?_⟩
    · rw [hport]
      exact List.mem_cons_self
    · rw [memStore_read, if_neg hy]

/-- Settles O20: the stuck port's own step is FILL, which cannot fire; no other step moves its SEND on, no step makes the byte readable,
and the invariant gives a port in FILL the lock. -/
theorem unreadablePixelLeavesPortStuck : Obligations.UnreadablePixelLeavesPortStuck := by
  intro s t p hi hph hx h hreset
  have hact : (s.port p).phase.isActive = true := by rw [hph]; rfl
  obtain ⟨hport, hmem⟩ : (s.port p).SameProgress (t.port p) ∧ t.mem.read (s.port p).pixelAddr = none := by
    obtain ⟨l, k, rfl | ⟨-, he⟩⟩ := step_cases h
    · exact ⟨rfl, hx⟩
    · have hturn : (nextAction s).turn ≠ some (p, (s.port p).phase) := hph ▸ he.turn_ne_fill hx
      exact ⟨he.sameProgress hi hreset hact hturn, he.unreadable hx⟩
  have hph' : (t.port p).phase = .fill := hport.phase.trans hph
  exact ⟨hph', hport.base, hport.i, by rw [hport.base, hport.i]; exact hmem, (stepKeepsInvariant s t hi h).owner hph' rfl⟩

/-- Settles O53: the chosen step holds, or it is enabled and answers a next state. -/
theorem stepsNeverStop : Obligations.StepsNeverStop := fun s hi => fire_next (consume_keeps_inv hi) (nextAction s)

/-- Settles O48: the bytes of a colour stand at its place, and each is the pattern of its slice. -/
theorem encodedPixelLayout : Obligations.EncodedPixelLayout := fun tab x =>
  ⟨encPixel_length tab x, fun _ _ colour hm hk => (encPixel_getElem? tab x hm hk).trans (encByte_getElem? tab colour hm)⟩

end Sys2Proof.Machine
end

section
/-! PROOFS, family 30_encoding: the fields of a command word (R67, R69), and the decoder and the encoder as inverses (R70, R71, R73). -/

namespace Sys2Proof

/-! ### The fields of a command word -/

/-- A word is its three fields, ARG, RSV and OP (R67). -/
theorem fields_append (w : Word) : argField w ++ (rsvField w ++ opField w) = w := by
  have hlow : rsvField w ++ opField w = w.extractLsb' 0 16 := BitVec.extractLsb'_append_extractLsb'_eq_extractLsb' rfl
  have hall : argField w ++ w.extractLsb' 0 16 = w.extractLsb' 0 32 := BitVec.extractLsb'_append_extractLsb'_eq_extractLsb' rfl
  rw [hlow, hall, BitVec.extractLsb'_eq_self]

theorem encode_eq_append (i : Instr) : encode i = i.count ++ (0#12 ++ opCode i) := by
  rw [← fields_append (encode i), argField_encode, rsvField_encode, opField_encode]

/-- A mask acts on each field apart. -/
theorem and_append_fields (w : Word) (a : Half) (r : BitVec 12) (o : BitVec 4) :
    w &&& (a ++ (r ++ o)) = (argField w &&& a) ++ ((rsvField w &&& r) ++ (opField w &&& o)) := by
  rw [← BitVec.and_append, ← BitVec.and_append, fields_append]

/-- The RSV mask of the opcode table. -/
theorem and_rsvMask (w : Word) : w &&& 0x0000FFF0#32 = 0#16 ++ (rsvField w ++ 0#4) := by
  refine (and_append_fields w 0#16 (BitVec.allOnes 12) 0#4).trans ?_
  rw [BitVec.and_zero, BitVec.and_allOnes, BitVec.and_zero]

/-- The OP mask of the opcode table. -/
theorem and_opMask (w : Word) : w &&& 0x0000000F#32 = 0#16 ++ (0#12 ++ opField w) := by
  refine (and_append_fields w 0#16 0#12 (BitVec.allOnes 4)).trans ?_
  rw [BitVec.and_zero, BitVec.and_zero, BitVec.and_allOnes]

/-- The mask of a command's row of the opcode table. -/
theorem and_rowMask (w : Word) : w &&& 0x0000FFFF#32 = 0#16 ++ (rsvField w ++ opField w) := by
  refine (and_append_fields w 0#16 (BitVec.allOnes 12) (BitVec.allOnes 4)).trans ?_
  rw [BitVec.and_zero, BitVec.and_allOnes, BitVec.and_allOnes]

theorem rsvField_eq_zero_iff (w : Word) : rsvField w = 0#12 ↔ w &&& 0x0000FFF0#32 = 0#32 := by
  rw [and_rsvMask, ← BitVec.append_left_inj 0#4, ← BitVec.append_right_inj 0#16]
  rfl

theorem opField_eq_iff (w : Word) (op : BitVec 4) : opField w = op ↔ w &&& 0x0000000F#32 = 0#16 ++ (0#12 ++ op) := by
  rw [and_opMask, BitVec.append_right_inj, BitVec.append_right_inj]

/-- A word that matches a row of the opcode table has RSV 0 and the row's OP. -/
theorem fields_of_row {w : Word} {op : BitVec 4} (h : w &&& 0x0000FFFF#32 = 0#16 ++ (0#12 ++ op)) :
    rsvField w = 0#12 ∧ opField w = op := by
  rw [and_rowMask, BitVec.append_right_inj] at h
  constructor
  · rw [← BitVec.extractLsb'_append_eq_left (a := rsvField w) (b := opField w), h, BitVec.extractLsb'_append_eq_left]
  · rw [← BitVec.extractLsb'_append_eq_right (a := rsvField w) (b := opField w), h, BitVec.extractLsb'_append_eq_right]

/-- The ARG field is the word divided by 2^16 (R69). -/
theorem argField_eq_ofNat (w : Word) : argField w = BitVec.ofNat 16 (w.toNat / 65536) :=
  congrArg (BitVec.ofNat 16) (Nat.shiftRight_eq_div_pow w.toNat 16)

/-! ### The decoder -/

/-- The words that decode to a command, by their fields. -/
theorem decode_eq_command_iff (p : PortId) (w : Word) (i : Instr) : decode p w = .command i ↔
    rsvField w = 0#12 ∧ opField w = opCode i ∧ argField w = i.count ∧ i.port = p := by
  constructor
  · intro h
    unfold decode at h
    split at h
    · cases h
    · next hrsv =>
      refine ⟨not_not.mp hrsv, ?_⟩
      split at h
      · next hop => cases h; exact ⟨hop, rfl, rfl⟩
      · split at h
        · next hop => cases h; exact ⟨hop, rfl, rfl⟩
        · cases h
  · rintro ⟨hrsv, hop, harg, rfl⟩
    cases i with
    | setlen p n => simp [decode, hrsv, hop, harg, opCode, Instr.port, Instr.count]
    | send p n => simp [decode, hrsv, hop, harg, opCode, Instr.port, Instr.count]

/-- Settles O3: a word decodes to a command exactly when its fields are the ones that encoding gives, and the fields are the word. -/
theorem decodeEncodeAgree : Obligations.DecodeEncodeAgree := by
  constructor
  · intro i
    exact (decode_eq_command_iff _ _ i).mpr ⟨rsvField_encode i, opField_encode i, argField_encode i, rfl⟩
  · intro p w i h
    obtain ⟨hrsv, hop, harg, hport⟩ := (decode_eq_command_iff p w i).mp h
    refine ⟨?_, hport⟩
    rw [encode_eq_append, ← harg, ← hrsv, ← hop, fields_append]

theorem decode_of_rsvField_ne {w : Word} (h : rsvField w ≠ 0#12) (p : PortId) : decode p w = .illegal .reservedBits :=
  if_pos h

theorem decode_of_opField_ne {w : Word} (hrsv : rsvField w = 0#12) (h1 : opField w ≠ 0x1#4) (h2 : opField w ≠ 0x2#4) (p : PortId) :
    decode p w = .illegal .reservedOp := by
  simp [decode, hrsv, h1, h2]

/-- Settles O2: the masks of the opcode table read the fields RSV and OP, on whose values the decoder decides. -/
theorem decodeFollowsOpcodeTable : Obligations.DecodeFollowsOpcodeTable := by
  intro p w
  refine ⟨fun hrsv => ?_, fun hrow => ?_, fun hrow => ?_, fun hrsv h1 h2 => ?_⟩
  · exact decode_of_rsvField_ne (mt (rsvField_eq_zero_iff w).mp hrsv) p
  · obtain ⟨hrsv, hop⟩ := fields_of_row (op := 0x1#4) hrow
    exact (decode_eq_command_iff p w _).mpr ⟨hrsv, hop, argField_eq_ofNat w, rfl⟩
  · obtain ⟨hrsv, hop⟩ := fields_of_row (op := 0x2#4) hrow
    exact (decode_eq_command_iff p w _).mpr ⟨hrsv, hop, argField_eq_ofNat w, rfl⟩
  · exact decode_of_opField_ne ((rsvField_eq_zero_iff w).mpr hrsv) (mt (opField_eq_iff w 0x1#4).mp h1)
      (mt (opField_eq_iff w 0x2#4).mp h2) p

/-- Settles O1: eight closed facts, each the value of the decoder on one word. -/
theorem sampleCommandWordsDecode : Obligations.SampleCommandWordsDecode := by
  unfold Obligations.SampleCommandWordsDecode
  decide

end Sys2Proof
end

section
/-! PROOFS, family 41_datapath: HSV2RGB_D (R78 to R83, R88) by its levels, the converter parameter (R77), and the test-only decoder as the
encoder's inverse (R89). -/

namespace Sys2Proof.Machine

/-! ### The hue's sector and offset -/

theorem hueScaled_eq (hue : Byte) : hueScaled hue = 64 * hueSector hue + hueOffset hue := (Nat.div_add_mod _ 64).symm

theorem hueOffset_lt (hue : Byte) : hueOffset hue < 64 := Nat.mod_lt _ (by decide)

/-- The scaled hue reaches 64 at hue 86 and 128 at hue 171. -/
theorem hueSector_eq (hue : Byte) : hueSector hue = if hue.toNat ≤ 85 then 0 else if hue.toNat ≤ 170 then 1 else 2 := by
  unfold hueSector hueScaled
  split
  · omega
  · split <;> omega

theorem hueSector_lt (hue : Byte) : hueSector hue < 3 := by
  rw [hueSector_eq]
  split
  · decide
  · split <;> decide

/-! ### The levels of HSV2RGB_D -/

section
variable (hue sat val : Byte)

theorem baseLevel_le : baseLevel sat val ≤ val.toNat :=
  Nat.div_le_of_le_mul ((Nat.mul_le_mul_left _ (Nat.sub_le 255 _)).trans_eq (Nat.mul_comm _ _))

/-- The amplitude never underflows (R88). -/
theorem baseLevel_add_amplitude : baseLevel sat val + amplitude sat val = val.toNat :=
  Nat.add_sub_cancel' (baseLevel_le sat val)

theorem baseLevel_of_sat_zero : baseLevel 0#8 val = val.toNat := Nat.mul_div_cancel _ (by decide)

theorem baseLevel_of_sat_full : baseLevel 255#8 val = 0 := Nat.zero_div 255

/-- A level above the base by a part of the amplitude lies between the base and the value. -/
theorem partLevel_mem_Icc {k : Nat} (hk : k ≤ 64) :
    baseLevel sat val + amplitude sat val * k / 64 ∈ Set.Icc (baseLevel sat val) val.toNat := by
  have hpart : amplitude sat val * k / 64 ≤ amplitude sat val :=
    Nat.div_le_of_le_mul ((Nat.mul_le_mul_left _ hk).trans_eq (Nat.mul_comm _ _))
  exact ⟨Nat.le_add_right _ _, (Nat.add_le_add_left hpart _).trans_eq (baseLevel_add_amplitude sat val)⟩

/-- The two parts of the amplitude sum to it before the truncating divisions, which lose at most one together. -/
theorem riseLevel_add_fallLevel :
    riseLevel hue sat val + fallLevel hue sat val = 2 * baseLevel sat val + amplitude sat val ∨
      riseLevel hue sat val + fallLevel hue sat val + 1 = 2 * baseLevel sat val + amplitude sat val := by
  have hsum : amplitude sat val * hueOffset hue + amplitude sat val * (64 - hueOffset hue) = amplitude sat val * 64 := by
    rw [← Nat.mul_add, Nat.add_sub_cancel' (hueOffset_lt hue).le]
  unfold riseLevel fallLevel
  omega

/-- What holds of the three levels holds of every channel, whatever the sector (R82). -/
theorem channels_forall {P : Nat → Prop} {rise fall base : Nat} (hr : P rise) (hf : P fall) (hb : P base) (sec : Nat) :
    P (channels sec rise fall base).1 ∧ P (channels sec rise fall base).2.1 ∧ P (channels sec rise fall base).2.2 := by
  unfold channels
  split
  · exact ⟨hf, hr, hb⟩
  · split
    · exact ⟨hb, hf, hr⟩
    · exact ⟨hr, hb, hf⟩

/-- Every channel lies between the base level and the value, before it is cut to 8 bits. -/
theorem channels_mem_Icc (sec : Nat) :
    let x := channels sec (riseLevel hue sat val) (fallLevel hue sat val) (baseLevel sat val)
    x.1 ∈ Set.Icc (baseLevel sat val) val.toNat ∧ x.2.1 ∈ Set.Icc (baseLevel sat val) val.toNat ∧
      x.2.2 ∈ Set.Icc (baseLevel sat val) val.toNat :=
  channels_forall (P := (· ∈ Set.Icc (baseLevel sat val) val.toNat)) (partLevel_mem_Icc sat val (hueOffset_lt hue).le)
    (partLevel_mem_Icc sat val (Nat.sub_le 64 _)) ⟨le_rfl, baseLevel_le sat val⟩ sec

/-- The channels fit in 8 bits, so the bytes of HSV2RGB_D are exact. -/
theorem hsv2rgbD_toNat :
    ((hsv2rgbD hue sat val).r.toNat, (hsv2rgbD hue sat val).g.toNat, (hsv2rgbD hue sat val).b.toNat) =
      channels (hueSector hue) (riseLevel hue sat val) (fallLevel hue sat val) (baseLevel sat val) := by
  obtain ⟨⟨-, hr⟩, ⟨-, hg⟩, ⟨-, hb⟩⟩ := channels_mem_Icc hue sat val (hueSector hue)
  have fits {n : Nat} (h : n ≤ val.toNat) : (BitVec.ofNat 8 n).toNat = n := Nat.mod_eq_of_lt (h.trans_lt val.isLt)
  exact Prod.ext (fits hr) (Prod.ext (fits hg) (fits hb))

theorem hsv2rgbD_mem_Icc :
    (hsv2rgbD hue sat val).r.toNat ∈ Set.Icc (baseLevel sat val) val.toNat ∧
      (hsv2rgbD hue sat val).g.toNat ∈ Set.Icc (baseLevel sat val) val.toNat ∧
      (hsv2rgbD hue sat val).b.toNat ∈ Set.Icc (baseLevel sat val) val.toNat := by
  have h := channels_mem_Icc hue sat val (hueSector hue)
  rwa [← hsv2rgbD_toNat] at h

/-- With no amplitude above the base, the range is one value: a gray. -/
theorem hsv2rgbD_of_baseLevel_eq (h : baseLevel sat val = val.toNat) : hsv2rgbD hue sat val = ⟨val, val, val⟩ := by
  have gray {ch : Byte} (hch : ch.toNat ∈ Set.Icc (baseLevel sat val) val.toNat) : ch = val :=
    BitVec.eq_of_toNat_eq (hch.2.antisymm (h.symm.trans_le hch.1))
  obtain ⟨hr, hg, hb⟩ := hsv2rgbD_mem_Icc hue sat val
  exact (Rgb.mk.injEq ..).mpr ⟨gray hr, gray hg, gray hb⟩

end

/-! ### The converter of a configuration -/

/-- P4 of R77. -/
theorem convert_white (c : Config) (hue : Byte) : convert c hue 0#8 255#8 = ⟨255#8, 255#8, 255#8⟩ := by
  unfold convert Config.hsv2rgb
  exact if_pos ⟨rfl, rfl⟩

/-- P5 of R77: the given converter's answer is kept only where it is red-dominant. -/
theorem convert_red_dominant (c : Config) :
    (convert c 0#8 255#8 255#8).g < (convert c 0#8 255#8 255#8).r ∧
      (convert c 0#8 255#8 255#8).b < (convert c 0#8 255#8 255#8).r := by
  unfold convert Config.hsv2rgb
  rw [if_neg (by decide)]
  split
  next => decide
  next hgiven => exact not_not.mp fun h => hgiven ⟨rfl, rfl, rfl, h⟩

/-! ### The decoder -/

theorem pat_distinct (c : Config) : c.pat.distinct = true := by
  unfold Config.pat
  split
  next h => exact h
  next => decide

/-- With distinct patterns a slice's pattern names the slice. -/
theorem sliceOf_patternOf {tab : Patterns} (h : tab.distinct = true) (v : BitVec 2) :
    sliceOf tab (patternOf tab v) = some v.toNat := by
  simp only [Patterns.distinct, Bool.and_eq_true, bne_iff_ne] at h
  obtain ⟨⟨⟨⟨⟨h01, h02⟩, h03⟩, h12⟩, h13⟩, h23⟩ := h
  obtain rfl | rfl | rfl | rfl : v = 0#2 ∨ v = 1#2 ∨ v = 2#2 ∨ v = 3#2 := by revert v; decide
  · simp [sliceOf, patternOf]
  · simp [sliceOf, patternOf, h01.symm]
  · simp [sliceOf, patternOf, h02.symm, h12.symm]
  · simp [sliceOf, patternOf, h03.symm, h13.symm, h23.symm]

/-- A byte is its four slices in base 4, the most significant first. -/
theorem toNat_eq_slices (x : Byte) :
    (x.extractLsb' 6 2).toNat * 64 + (x.extractLsb' 4 2).toNat * 16 + (x.extractLsb' 2 2).toNat * 4 +
      (x.extractLsb' 0 2).toNat = x.toNat := by
  simp only [BitVec.extractLsb'_toNat, Nat.shiftRight_eq_div_pow]
  omega

theorem decByte_encByte {tab : Patterns} (h : tab.distinct = true) (x : Byte) : decByte tab (encByte tab x) = some x := by
  simp only [encByte, decByte, sliceOf_patternOf h, toNat_eq_slices, BitVec.ofNat_toNat, BitVec.setWidth_eq]

/-! ### The statements -/

/-- Settles O47: each clause is a fact about the levels or about the channels, in the model's own names. -/
theorem referenceConverterRange : Obligations.ReferenceConverterRange := by
  intro hue sat val x h base amp off rise fall hx hh hoff hbase hamp hrise hfall
  obtain rfl : h = hueScaled hue := hh
  obtain rfl : off = hueOffset hue := hoff
  obtain rfl : base = baseLevel sat val := hbase
  obtain rfl : amp = amplitude sat val := hamp
  obtain rfl : rise = riseLevel hue sat val := hrise
  obtain rfl : fall = fallLevel hue sat val := hfall
  subst hx
  have sector {k : Nat} (hk : hueSector hue = k) := hk ▸ hsv2rgbD_toNat hue sat val
  refine ⟨fun hk => ?_, fun hk => ?_, fun hk => ?_, hueSector_lt hue, fun ch hch => ?_,
    riseLevel_add_fallLevel hue sat val, fun hs => ?_, fun hv => ?_, fun hs => ?_, ?_, ?_, ?_⟩
  · simpa [channels] using sector hk
  · simpa [channels] using sector hk
  · simpa [channels] using sector hk
  · obtain ⟨hr, hg, hb⟩ := hsv2rgbD_mem_Icc hue sat val
    obtain rfl | rfl | rfl := hch
    exacts [hr, hg, hb]
  · exact hsv2rgbD_of_baseLevel_eq hue sat val (hs ▸ baseLevel_of_sat_zero val)
  · subst hv
    exact hsv2rgbD_of_baseLevel_eq hue sat 0#8 (Nat.le_zero.mp (baseLevel_le sat 0#8))
  · exact hs ▸ baseLevel_of_sat_full val
  · have := hue.isLt
    omega
  · exact Nat.mul_le_mul (Nat.le_of_lt_succ val.isLt) (Nat.sub_le 255 _)
  · have hbound : amplitude sat val ≤ 255 := (Nat.sub_le _ _).trans (Nat.le_of_lt_succ val.isLt)
    exact Nat.mul_le_mul_right 64 hbound

/-- Settles O45: the accessor of the parameter answers with P4 and P5 whatever converter is given. -/
theorem converterProperties : Obligations.ConverterProperties := ⟨convert_white _, convert_red_dominant _⟩

/-- Settles O49: every configuration's patterns are distinct. -/
theorem encodedByteDecodes : Obligations.EncodedByteDecodes := decByte_encByte (pat_distinct _)

/-- Settles O46: the sector by cases of the hue. -/
theorem hueSectors : Obligations.HueSectors := by
  intro hue
  refine ⟨hueSector_lt hue, hueOffset_lt hue, hueScaled_eq hue, ?_⟩
  rw [hueSector_eq]
  split
  · omega
  · split <;> omega

end Sys2Proof.Machine
end

section
/-! PROOFS, family 42_commands: what a host's write of a port's register does (R90, R92, R93, R110), and the frame of the two
commands. -/

namespace Sys2Proof.Machine

/-! ### Acceptance -/

/-- OP_p of the command in progress (R29, R90). -/
def commandOp : Instr → Op
  | .setlen _ _ => .setlen
  | .send _ _ => .send

section
variable {s : State} {h : HostId} {p : PortId} {r : Reg} {i : Instr}

theorem accepts_iff (q : Port) : q.accepts = true ↔ q.active = false ∧ q.fatal = false := by simp [Port.accepts]

theorem not_accepts_iff (q : Port) : q.accepts ≠ true ↔ q.active = true ∨ q.fatal = true := by
  rw [Ne, accepts_iff]
  cases q.active <;> simp

/-- A command on a port that takes commands is accepted (R90). -/
theorem exec_of_accepts (hp : s.hasPort i.port = true) (ha : (s.port i.port).accepts = true) :
    exec i s = .next (s.setPort i.port (Port.acceptOp (commandOp i) i.count (s.port i.port).beginCommand)) := by
  cases i with
  | setlen p n => simp_all [exec, execSetlen, writeCommand, Instr.port, commandOp, Instr.count]
  | send p n => exact exec_send_of_accepts hp ha n

theorem illegalCommand_of_accepts (hp : s.hasPort p = true) (ha : (s.port p).accepts = true) (w : Word) :
    illegalCommand p w s = .next (s.setPort p ((s.port p).beginCommand.finish .errIllegal)) := by
  simp [illegalCommand, writeCommand, hp, ha]

/-! ### Register writes -/

/-- A running host context's write of a register that is there reaches it. -/
theorem step_wr (hh : s.hostRuns h = true) (hp : r.present s = true) (v : Word) :
    step (chosen (wr h r v) s) = regWrite h ⟨.write, r.offset, 32, v⟩ s ∧
      (⟨.write, r.offset, 32, v⟩ : HostAccess).target s = some r :=
  ⟨step_host hh _, (target_iff s _ r).mpr ⟨rfl, rfl, hp⟩⟩

/-- A write of CMD_p (R90). -/
theorem step_wr_cmd (hh : s.hostRuns h = true) (hp : s.hasPort p = true) (w : Word) :
    step (chosen (wr h (.cmd p) w) s) = writeCmdReg p w s := by
  obtain ⟨hstep, ht⟩ := step_wr (r := .cmd p) hh hp w
  rw [hstep, regWrite, ht]

/-- A command that a port takes is executed (R90). -/
theorem writeCmdReg_of_command {w : Word} (ha : (s.port p).accepts = true) (hd : decode p w = .command i) :
    writeCmdReg p w s = exec i s := by
  rw [writeCmdReg, if_pos ha, hd]

/-- An illegal word that a port takes ends as one (R93). -/
theorem writeCmdReg_of_illegal {w : Word} {why : Illegal} (ha : (s.port p).accepts = true) (hd : decode p w = .illegal why) :
    writeCmdReg p w s = illegalCommand p w s := by
  rw [writeCmdReg, if_pos ha, hd]

/-- A reserved word is illegal (R70, R71). -/
theorem decode_reserved {w : Word}
    (hw : w &&& 0x0000FFF0#32 ≠ 0#32 ∨ (w &&& 0x0000000F#32 ≠ 1#32 ∧ w &&& 0x0000000F#32 ≠ 2#32)) (p : PortId) :
    ∃ why, decode p w = .illegal why := by
  obtain ⟨reservedBits, -, -, reservedOp⟩ := decodeFollowsOpcodeTable p w
  by_cases hrsv : w &&& 0x0000FFF0#32 = 0#32
  · obtain ⟨h1, h2⟩ := hw.resolve_left (not_not.mpr hrsv)
    exact ⟨_, reservedOp hrsv h1 h2⟩
  · exact ⟨_, reservedBits hrsv⟩

/-! ### The frame of a command -/

/-- What a command may change of its port: STATUS_p but for RESULT and FATAL, OP_p, NREQ_p, BASE_p, and the bytes left over by
stores. -/
def Port.CommandChanges (q q' : Port) : Prop :=
  q' = { q with ovr := q'.ovr, done := q'.done, active := q'.active, phase := q'.phase, op := q'.op, nreq := q'.nreq,
                base := q'.base, stale := q'.stale }

/-- A command answers a next state; on a port that is there it changes that port, and a SETLEN leaves it BASE_p. -/
theorem exec_changes_port (hp : s.hasPort i.port = true) :
    ∃ q, exec i s = .next (s.setPort i.port q) ∧ (s.port i.port).CommandChanges q ∧
      (commandOp i = .setlen → q.base = (s.port i.port).base ∧ q.stale = (s.port i.port).stale) := by
  by_cases ha : (s.port i.port).accepts = true
  · refine ⟨_, exec_of_accepts hp ha, ?_⟩
    cases i with
    | setlen => exact ⟨rfl, fun _ => ⟨rfl, rfl⟩⟩
    | send => exact ⟨rfl, nofun⟩
  · exact ⟨_, exec_of_not_accepts hp ha, rfl, fun _ => ⟨rfl, rfl⟩⟩

theorem exec_next (i : Instr) (s : State) : ∃ t, exec i s = .next t := by
  cases i <;> exact ⟨_, rfl⟩

end

/-! ### The statements -/

/-- Settles O5: this is the acceptance of a SETLEN. -/
theorem setlenIsAccepted : Obligations.SetlenIsAccepted := fun _ p n hp hact hfatal =>
  exec_of_accepts (i := .setlen p n) hp ((accepts_iff _).mpr ⟨hact, hfatal⟩)

/-- Settles O6: this is the acceptance of a SEND. -/
theorem sendIsAccepted : Obligations.SendIsAccepted := fun _ p n hp hact hfatal =>
  exec_of_accepts (i := .send p n) hp ((accepts_iff _).mpr ⟨hact, hfatal⟩)

/-- Settles O31: the write reaches the register. -/
theorem operandRegisterWrites : Obligations.OperandRegisterWrites := by
  intro s h p v hh hp
  obtain ⟨hbase, htb⟩ := step_wr (r := .pixBase p) hh hp v
  obtain ⟨hdelay, htd⟩ := step_wr (r := .delay p) hh hp v
  exact ⟨by rw [hbase, regWrite, htb], by rw [hdelay, regWrite, htd]⟩

/-- Settles O7: a port that takes the word does as its decoding says, and one that does not drops it before decoding. -/
theorem commandWriteAcceptsOrDrops : Obligations.CommandWriteAcceptsOrDrops := by
  intro s h p w hh hp
  rw [step_wr_cmd hh hp]
  refine ⟨fun hact hfatal => ?_, fun hbusy => if_neg ((not_accepts_iff _).mpr hbusy)⟩
  have ha := (accepts_iff _).mpr ⟨hact, hfatal⟩
  cases hd : decode p w with
  | illegal => exact (writeCmdReg_of_illegal ha hd).trans (illegalCommand_of_accepts hp ha w)
  | command i =>
    rw [writeCmdReg_of_command ha hd]
    obtain rfl := decode_port hd
    cases i with
    | setlen => exact exec_of_accepts hp ha
    | send => exact exec_of_accepts hp ha

/-- Settles O8: the word is illegal, which the port ends at once; of STATUS_p only FATAL is the old field, and it is 0. -/
theorem illegalWordEndsAtOnce : Obligations.IllegalWordEndsAtOnce := by
  intro s h p w hh hp hact hfatal hw
  obtain ⟨why, hd⟩ := decode_reserved hw p
  have ha := (accepts_iff _).mpr ⟨hact, hfatal⟩
  refine ⟨_, rfl, ?_, ?_⟩
  · rw [step_wr_cmd hh hp, writeCmdReg_of_illegal ha hd]
    exact illegalCommand_of_accepts hp ha w
  · simp only [Port.statusWord, hfatal]
    decide

/-- Settles O9: all a command does is to replace its port by one that differs in the fields named. -/
theorem commandFrame : Obligations.CommandFrame := by
  intro i s
  obtain ⟨t, ht⟩ := exec_next i s
  refine ⟨t, ht, fun hp => ?_⟩
  obtain ⟨q, e, hq, hbase⟩ := exec_changes_port (i := i) hp
  obtain rfl : t = s.setPort i.port q := Host.Outcome.next.inj (ht.symm.trans e)
  rw [setPort_port_same hp]
  refine ⟨rfl, setPort_length _ _ _, fun r hr => setPort_port_other hr _ _, fun _ => rfl, fun _ => rfl, ?_, ?_, ?_, ?_, ?_, ?_,
    ?_, ?_, ?_, fun ⟨n, hi⟩ => hbase (by rw [hi]; rfl)⟩
  all_goals rw [hq]

end Sys2Proof.Machine
end

section
/-! PROOFS, family 42_commands: the steps of the port sequencers (R95 to R107), each from the states in which the port is in
its phase. -/

namespace Sys2Proof.Machine

section
variable {c : Config} {s : State} {a : Action} {p r : PortId} {q : Port} {ph : Phase}

/-- An enabled step takes effect. -/
theorem step_of_enabled (h : enabled s a = true) : step (chosen a s) = effect Config.chip s a := fire_enabled h _

theorem inPhase_of (hp : s.hasPort p = true) (hph : (s.port p).phase = ph) : inPhase s p ph = true :=
  (inPhase_iff s p ph).mpr ⟨hp, hph⟩

/-! ### Runs of writes of TXBUF -/

theorem txWriteAll_cons {buf : List Byte} {i : Nat} (h : i < buf.length) (v : Byte) (vs : List Byte) :
    txWriteAll buf i (v :: vs) = txWriteAll (buf.set i v) (i + 1) vs := by
  simp only [txWriteAll, txWrite_some h]

/-- A run of `n` writes in range: it succeeds, the written indices hold the bytes, and the others stay. -/
theorem txWriteAll_in_range {vs buf : List Byte} {i n : Nat} (hn : vs.length = n) (h : i + n ≤ buf.length) :
    ∃ buf', txWriteAll buf i vs = some buf' ∧ buf'.length = buf.length ∧ (∀ j, j < n → buf'[i + j]? = vs[j]?) ∧
      ∀ m, m < i ∨ i + n ≤ m → buf'[m]? = buf[m]? := by
  subst hn
  obtain ⟨buf', hbuf⟩ := txWriteAll_isSome h
  obtain ⟨hsize, hget⟩ := txWriteAll_some hbuf
  refine ⟨buf', hbuf, hsize, fun j hj => ?_, fun m hm => ?_⟩
  · rw [hget, if_pos (by omega), Nat.add_sub_cancel_left]
  · rw [hget, if_neg (by omega)]

/-- Zeros written to the indices from `lo` up to `hi`, of which there may be none. -/
theorem txWriteAll_zeros {buf : List Byte} {hi : Nat} (lo : Nat) (h : hi ≤ buf.length) :
    ∃ buf', txWriteAll buf lo (List.replicate (hi - lo) 0#8) = some buf' ∧ buf'.length = buf.length ∧
      (∀ k, lo ≤ k → k < hi → buf'[k]? = some 0#8) ∧ ∀ k, k < lo ∨ hi ≤ k → buf'[k]? = buf[k]? := by
  obtain hlt | hle := Nat.lt_or_ge hi lo
  · rw [Nat.sub_eq_zero_of_le hlt.le]
    exact ⟨buf, rfl, rfl, fun k hlo hhi => by omega, fun _ _ => rfl⟩
  · obtain ⟨buf', hbuf, hsize, hin, hout⟩ := txWriteAll_in_range (buf := buf) (i := lo)
      (List.length_replicate (n := hi - lo) (a := 0#8)) (by omega)
    rw [Nat.add_sub_cancel' hle] at hout
    refine ⟨buf', hbuf, hsize, fun k hlo hhi => ?_, hout⟩
    obtain ⟨j, rfl⟩ := Nat.exists_eq_add_of_le hlo
    rw [hin j (by omega), List.getElem?_replicate, if_pos (by omega)]

/-! ### SETLEN's steps by branch -/

theorem slSet_done {len : Half} (hlen : setlenCount c (s.port r).nreq = len) (hz : c.frameLen len = 0) : slSet c r s =
    State.setPort { s with lenCfg := len, init := true, lockOwner := none } r (Port.finish .ok { s.port r with j := 0#32 }) := by
  subst hlen
  exact if_pos hz

theorem slSet_go {len : Half} (hlen : setlenCount c (s.port r).nreq = len) (hz : c.frameLen len ≠ 0) : slSet c r s =
    State.setPort { s with lenCfg := len, init := true } r { s.port r with j := 0#32, phase := .slWrite } := by
  subst hlen
  exact if_neg hz

theorem slWrite_done {j : Word} (hj : (s.port r).j = j) (hz : (j + 1#32).toNat = c.frameLen s.lenCfg) : slWrite c r s =
    (s.freeLock.setPort r (Port.finish .ok { s.port r with j := (s.port r).j + 1#32 })).withTx (txWrite s.txbuf j.toNat 0#8) := by
  subst hj
  exact congrArg (State.withTx · _) (if_pos hz)

theorem slWrite_go {j : Word} (hj : (s.port r).j = j) (hz : (j + 1#32).toNat ≠ c.frameLen s.lenCfg) : slWrite c r s =
    (s.setPort r { s.port r with j := (s.port r).j + 1#32 }).withTx (txWrite s.txbuf j.toNat 0#8) := by
  subst hj
  exact congrArg (State.withTx · _) (if_neg hz)

/-! ### SEND's counts and FILL -/

theorem sendCount_toNat (n len : Half) : (sendCount n len).toNat = min n.toNat len.toNat := by
  unfold sendCount
  split <;> omega

/-- FILL (R103), when it reads the byte `v`. -/
theorem step_fill {sel : Nat} {v : Byte} (hp : s.hasPort p = true) (hph : (s.port p).phase = .fill)
    (hv : (s.memReads (s.port p) (s.port p).pixelAddr)[sel]? = some v) :
    step (chosen (.fill p sel) s) =
      (s.setPort p ((s.port p).afterFill v)).withTx (fillTx Config.chip (s.port p) v s.txbuf) := by
  obtain ⟨hsel, -⟩ := List.getElem?_eq_some_iff.mp hv
  rw [step_of_enabled (a := .fill p sel) (by simp [enabled, inPhase_of hp hph, hsel])]
  simp only [effect, fill, hv]

/-- What FILL does to a port with a byte left to read, its counter by value. -/
theorem afterFill_eq (hph : q.phase = .fill) (hk : q.i.toNat < 3 * q.n.toNat) (v : Byte) : q.afterFill v =
    { q with pxH := if q.i.toNat % 3 = 0 then v else q.pxH, pxS := if q.i.toNat % 3 = 1 then v else q.pxS, i := q.i + 1#32,
             phase := if q.i.toNat + 1 = 3 * q.n.toNat then .tail else .fill } := by
  have hi : (q.i + 1#32).toNat = q.i.toNat + 1 := toNat_succ hk (by have := q.n.isLt; omega)
  rw [Port.afterFill, hi, hph]

end

/-! ### The buffer lock -/

/-- Settles O11: LOCK_ACQ is enabled exactly while the lock is free. -/
theorem lockIsAcquiredWhenFree : Obligations.LockIsAcquiredWhenFree := by
  intro s p hp hph
  refine ⟨fun hfree => ?_, fun hheld => ?_⟩
  · exact step_of_enabled (a := .lockAcq p) (by simp [enabled, inPhase_of hp hph, hfree])
  · obtain ⟨owner, howner⟩ := Option.ne_none_iff_exists'.mp hheld
    exact disabledStepHolds s (.lockAcq p) (by simp [enabled, howner])

/-- Settles O12: LOCK_TIMEOUT is enabled exactly while the lock is held. -/
theorem lockTimeoutIsFatal : Obligations.LockTimeoutIsFatal := by
  intro s p hp hph
  refine ⟨fun hheld => ?_, fun hfree => ?_⟩
  · obtain ⟨owner, howner⟩ := Option.ne_none_iff_exists'.mp hheld
    exact step_of_enabled (a := .lockTimeout p) (by simp [enabled, inPhase_of hp hph, howner])
  · exact disabledStepHolds s (.lockTimeout p) (by simp [enabled, hfree])

/-! ### SETLEN's steps -/

/-- Settles O14: the two branches of SL_SET are those of the frame length. -/
theorem setLengthStep : Obligations.SetLengthStep := by
  intro s p hp hph
  refine ⟨setlenCount Config.chip (s.port p).nreq, setlenCount_toNat _ _, ?_⟩
  rw [step_of_enabled (a := .slSet p) (inPhase_of hp hph)]
  by_cases hz : Config.chip.frameLen (setlenCount Config.chip (s.port p).nreq) = 0
  · exact (congrArg Host.Outcome.next (slSet_done rfl hz)).trans (if_pos hz).symm
  · exact (congrArg Host.Outcome.next (slSet_go rfl hz)).trans (if_neg hz).symm

/-- Settles O15: J_p is below the frame length, so counting it up does not wrap. -/
theorem idlePatternStep : Obligations.IdlePatternStep := by
  intro s p hp hph hj htx
  have hj' : ((s.port p).j + 1#32).toNat = (s.port p).j.toNat + 1 := toNat_succ hj (frameLen_lt _ _)
  rw [step_of_enabled (a := .slWrite p) (inPhase_of hp hph), effect]
  by_cases hz : (s.port p).j.toNat + 1 = Config.chip.frameLen s.lenCfg
  · rw [slWrite_done rfl (hj'.trans hz), txWrite_some htx]
    exact (if_pos hz).symm
  · rw [slWrite_go rfl (hj' ▸ hz), txWrite_some htx]
    exact (if_neg hz).symm

/-! ### SEND's steps -/

/-- Settles O16: the two branches of CHECK are those of INIT. -/
theorem bufferCheckStep : Obligations.BufferCheckStep := by
  intro s p hp hph
  rw [step_of_enabled (a := .check p) (inPhase_of hp hph)]
  refine ⟨fun hinit => ?_, fun hinit => ⟨sendCount (s.port p).nreq s.lenCfg, sendCount_toNat _ _, ?_⟩⟩
  · exact congrArg Host.Outcome.next (if_neg (by simp [hinit]))
  · exact congrArg Host.Outcome.next (if_pos hinit)

/-- Settles O17: POLL is enabled exactly while BUSY is 0. -/
theorem busyPollStep : Obligations.BusyPollStep := by
  intro s p hp hph
  refine ⟨fun hidle => ?_, fun hbusy => ?_⟩
  · rw [step_of_enabled (a := .poll p) (by simp [enabled, inPhase_of hp hph, hidle])]
    simp only [effect, poll, BitVec.toNat_eq, BitVec.toNat_ofNat, Nat.zero_mod]
  · exact disabledStepHolds s (.poll p) (by simp [enabled, hbusy])

/-- Settles O18: POLL_GIVEUP is enabled exactly while BUSY is 1. -/
theorem pollGiveupStep : Obligations.PollGiveupStep := by
  intro s p hp hph
  refine ⟨fun hbusy => ?_, fun hidle => ?_⟩
  · exact step_of_enabled (a := .pollGiveup p) (by simp [enabled, inPhase_of hp hph, hbusy])
  · exact disabledStepHolds s (.pollGiveup p) (by simp [enabled, hidle])

/-- Settles O19: the byte read goes to its latch, or with the two latches it makes a pixel, whose bytes are a run of writes. -/
theorem fillStep : Obligations.FillStep := by
  rintro s p sel v q k rfl rfl hp hph hk hv
  rw [step_fill hp hph hv, afterFill_eq hph hk]
  refine ⟨fun hpix => ?_, fun hpix hroom => ?_⟩
  · rw [fillTx, if_neg hpix]
    rfl
  · obtain ⟨buf, hbuf, hsize, hin, hout⟩ := txWriteAll_in_range
      (encPixel_length Config.chip.pat (convert Config.chip (s.port p).pxH (s.port p).pxS v)) hroom
    refine ⟨buf, ?_, hsize, hin, hout⟩
    rw [fillTx, if_pos hpix, hbuf]
    simp only [hpix]
    rfl

/-- Settles O21: the zeros are one run of writes, from the end of the pixels to the end of the frame. -/
theorem tailStep : Obligations.TailStep := by
  intro s p hp hph hroom
  obtain ⟨buf, hbuf, hsize, hin, hout⟩ := txWriteAll_zeros (12 * (s.port p).n.toNat) hroom
  refine ⟨buf, ?_, hsize, hin, hout⟩
  rw [step_of_enabled (a := .tail p) (inPhase_of hp hph)]
  simp only [effect, tail, Config.frameLen, hbuf]
  rfl

/-- Settles O22: KICK latches the frame length, which 32 bits hold; and a port in KICK has found the DMA engine idle (R101). -/
theorem kickStep : Obligations.KickStep := by
  intro s p hp hph
  refine ⟨BitVec.ofNat 32 (Config.chip.frameLen s.lenCfg), frameLen_toNat _ _,
    step_of_enabled (a := .kick p) (inPhase_of hp hph), fun hi => ?_⟩
  obtain ⟨-, -, -, hbusy⟩ : _ ∧ _ ∧ _ ∧ s.busy = false := hi.phaseOk hph
  refine ⟨hbusy, ?_⟩
  by_contra hdma
  simp [hi.block.busy.mpr hdma] at hbusy

/-- Settles O23: EVT_TAKE is enabled exactly while EVT is 1, and clears it. -/
theorem eventTakeStep : Obligations.EventTakeStep := by
  have hold : ∀ (s : State) (q : PortId), s.evt = false → step (chosen (.evtTake q) s) = .next s := fun s q he =>
    disabledStepHolds s (.evtTake q) (by simp [enabled, he])
  intro s p hp hph
  refine ⟨fun he => ⟨_, ?_, rfl, fun q => hold _ q rfl⟩, hold s p⟩
  exact step_of_enabled (a := .evtTake p) (by simp [enabled, inPhase_of hp hph, he])

/-- Settles O24: EVT_TIMEOUT is enabled exactly while EVT is 0. -/
theorem eventTimeoutStep : Obligations.EventTimeoutStep := by
  intro s p hp hph
  refine ⟨fun he => ?_, fun he => ?_⟩
  · exact step_of_enabled (a := .evtTimeout p) (by simp [enabled, inPhase_of hp hph, he])
  · exact disabledStepHolds s (.evtTimeout p) (by simp [enabled, he])

end Sys2Proof.Machine
end

section
/-! PROOFS, family 42_commands: what lasts of an ended command (R111), and the diagrams that a port's phase follows (R94, R99). -/

namespace Sys2Proof.Machine

section
variable {c : Config} {s t : State} {a : Action} {p r : PortId} {q q' : Port}

/-! ### Reads, and the result of an ended command -/

/-- A host's read changes the reads made or the refusal marks (R111). -/
theorem regRead_eq (c : Config) (h : HostId) (x : HostAccess) (s : State) :
    ∃ l m, regRead c h x s = { s with reads := l, refusals := m } := by
  unfold regRead
  split
  · exact ⟨_, _, rfl⟩
  · split
    · exact ⟨_, _, rfl⟩
    · exact ⟨_, _, rfl⟩

/-- A host's write of another register than CMD_p leaves DONE and RESULT. -/
theorem HostPortChange.keeps_result {g : Reg} (h : HostPortChange p q g q') (hg : g ≠ .cmd p) :
    q'.done = q.done ∧ q'.result = q.result := by
  cases h with
  | pixBase | delay => exact ⟨rfl, rfl⟩
  | drop | accept | illegal => exact absurd rfl hg

/-- A port that shows DONE has no command in progress, so the block leaves it as it is (R91, R111). -/
theorem StepEffect.keeps_result (h : StepEffect c s a t) (hi : Inv c s) (hreset : a ≠ .reset)
    (hcmd : ∀ g w, a ≠ wr g (.cmd r) w) (hdone : (s.port r).done = true) :
    (t.port r).done = (s.port r).done ∧ (t.port r).result = (s.port r).result := by
  by_cases hb : a.ofBlock = true
  · rw [h.port_eq_of_not_isActive hb (by rw [(hi.port r).done hdone]; rfl)]
    exact ⟨rfl, rfl⟩
  · cases h with
    | refuse | read => exact ⟨rfl, rfl⟩
    | hostWrite g x p reg q hp hk ht hq =>
      rw [setPort_port hp]
      split
      · next e =>
        subst e
        exact hq.keeps_result fun e => hcmd g x.value (e ▸ eq_wr_of_target hk ht)
      · exact ⟨rfl, rfl⟩
    | memStore _ x v => obtain e | ⟨old, e⟩ := memStore_port s x v r <;> rw [e] <;> exact ⟨rfl, rfl⟩
    | reset => exact absurd rfl hreset
    | _ => exact absurd rfl hb

/-! ### The phase of a port -/

/-- The arrows of the diagrams of the two commands (R94, R99), with acceptance (R90) and the lock timeout (R96). -/
def phaseArrows : List (Phase × Phase) :=
  [(.idle, .lockWait), (.lockWait, .slSet), (.lockWait, .check), (.lockWait, .fatal), (.slSet, .slWrite), (.slSet, .idle),
   (.slWrite, .idle), (.check, .poll), (.check, .idle), (.poll, .fill), (.poll, .tail), (.poll, .idle), (.fill, .tail),
   (.tail, .kick), (.kick, .evtWait), (.evtWait, .idle)]

/-- A port's phase stays or moves along an arrow. -/
def Port.PhaseMoves (q q' : Port) : Prop := q'.phase = q.phase ∨ (q.phase, q'.phase) ∈ phaseArrows

/-- From the phase the port was in, the phase it has come to is one an arrow leads to. -/
theorem Port.PhaseMoves.along {x y : Phase} (hq : q.phase = x) (hq' : q'.phase = y) (h : (x, y) ∈ phaseArrows) :
    q.PhaseMoves q' :=
  .inr (by rw [hq, hq']; exact h)

/-- A host's write of a register accepts a command, or leaves the phase: a port that takes a command is in IDLE. -/
theorem PortOk.phaseMoves (h : PortOk c s p q) {g : Reg} (hc : HostPortChange p q g q') : q.PhaseMoves q' := by
  cases hc with
  | pixBase | delay | drop => exact .inl rfl
  | accept ha op n => cases op <;> exact .along (h.idle_of_accepts ha) rfl (by simp [phaseArrows])
  | illegal ha => exact .inl (h.idle_of_accepts ha).symm

theorem StepEffect.phaseMoves (h : StepEffect c s a t) (hi : Inv c s) (hreset : a ≠ .reset) (r : PortId) :
    (s.port r).PhaseMoves (t.port r) := by
  have one : ∀ {u : State} {p : PortId} {q : Port}, u.ports = s.ports → s.hasPort p = true → (s.port p).PhaseMoves q →
      (s.port r).PhaseMoves ((u.setPort p q).port r) := by
    intro u p q hu hp hq
    rw [setPort_port_of_ports hu hp]
    split
    · next e => exact e ▸ hq
    · exact .inl rfl
  cases h with
  | reset => exact absurd rfl hreset
  | refuse | read | dmaEmit | dmaEnd | dmaIdle | chTake => exact .inl rfl
  | memStore _ x v => obtain e | ⟨old, e⟩ := memStore_port s x v r <;> rw [e] <;> exact .inl rfl
  | hostWrite _ _ p _ _ hp _ _ hq => exact one rfl hp ((hi.port p).phaseMoves hq)
  | slWriteGo _ _ hp => exact one rfl hp (.inl rfl)
  | lockAcq p hp hph =>
    refine one rfl hp ?_
    by_cases hop : (s.port p).op = some .send
    · exact .along hph (if_pos hop) (by decide)
    · exact .along hph (if_neg hop) (by decide)
  | poll p hp hph =>
    refine one rfl hp ?_
    by_cases hn : (s.port p).n = 0#16
    · exact .along hph (if_pos hn) (by decide)
    · exact .along hph (if_neg hn) (by decide)
  | fill p _ _ _ hp hph =>
    refine one rfl hp ?_
    by_cases hlast : ((s.port p).i + 1#32).toNat = 3 * (s.port p).n.toNat
    · exact .along hph (if_pos hlast) (by decide)
    · exact .inl (if_neg hlast)
  | lockTimeout _ hp hph | slSetDone _ hp hph | slSetGo _ hp hph | slWriteDone _ _ hp hph | checkOk _ hp hph
  | checkInvalid _ hp hph | pollGiveup _ hp hph | tail _ _ hp hph | kick _ hp hph | evtTake _ hp hph
  | evtTimeout _ hp hph =>
    exact one rfl hp (.along hph rfl (by simp [phaseArrows]))

end

/-! ### The statements -/

/-- Settles O30: a read changes no state of the block; and a step that holds changes nothing, while one that fires leaves a port that
shows DONE its result. -/
theorem readsChangeNothingAndResultsLast : Obligations.ReadsChangeNothingAndResultsLast := by
  constructor
  · intro s t h x hk ht
    rw [step_chosen] at ht
    obtain ⟨-, rfl⟩ | ⟨-, ht⟩ := fire_cases ht
    · rfl
    · simp only [effect, hostAccess, hk] at ht
      obtain ⟨l, m, e⟩ := regRead_eq Config.chip h x s
      rw [← Host.Outcome.next.inj ht, e]
  · intro s t p hi ht hdone hreset hcmd
    obtain ⟨l, k, rfl | ⟨-, he⟩⟩ := step_cases ht
    · exact ⟨hdone, rfl⟩
    · obtain ⟨hd, hr⟩ := he.keeps_result hi hreset hcmd hdone
      exact ⟨hd.trans hdone, hr⟩

/-- Settles O38: a step that holds leaves every phase, and one that fires moves at most its own port's, along an arrow. -/
theorem phasesFollowTheDiagrams : Obligations.PhasesFollowTheDiagrams := by
  intro s t p hi ht hne
  by_cases hreset : nextAction s = .reset
  · exact .inl hreset
  · obtain ⟨l, k, rfl | ⟨-, he⟩⟩ := step_cases ht
    · exact absurd rfl hne
    · exact .inr ((he.phaseMoves hi hreset p).resolve_left hne)

end Sys2Proof.Machine
end

section
/-! PROOFS, family 42_commands: no step reads DELAY_p (R109). Each step of a port is a function of that port that passes DELAY on as
it is, so it does the same whatever DELAY_p holds. -/

namespace Sys2Proof.Machine

/-! ### Replacing one port -/

section
variable (s : State) (p r : PortId) (q q' : Port)

theorem setPort_setPort : (s.setPort p q).setPort p q' = s.setPort p q' := by
  simp [State.setPort]

theorem setPort_comm (h : r ≠ p) : (s.setPort p q).setPort r q' = (s.setPort r q').setPort p q := by
  simp only [State.setPort, List.set_comm _ _ fun e : p.val = r.val => h (Fin.ext e.symm)]

theorem setPort_of_absent (h : s.hasPort p = false) : s.setPort p q = s := by
  rw [State.setPort, List.set_eq_of_length_le]
  rw [← Nat.not_lt, ← hasPort_iff, h]
  exact Bool.false_ne_true

theorem setPort_port_self : s.setPort p (s.port p) = s := by
  cases h : s.hasPort p with
  | false => exact setPort_of_absent s p _ h
  | true =>
    have hlt := (hasPort_iff s p).mp h
    simp [State.setPort, State.port, hlt]

end

section
variable {c : Config} {s t : State} {a : Action} {p r : PortId}

/-- No step but reset makes a port or takes one away (R134). -/
theorem StepEffect.hasPort_eq (h : StepEffect c s a t) (hreset : a ≠ .reset) (r : PortId) : t.hasPort r = s.hasPort r := by
  cases h with
  | reset => exact absurd rfl hreset
  | refuse | read | dmaEmit | dmaEnd | dmaIdle | chTake => rfl
  | memStore _ x v =>
    unfold State.memStore
    split
    · rfl
    · simp [State.hasPort]
  | _ => exact setPort_hasPort _ _ _ _

/-! ### The state with another DELAY -/

/-- The port with another value in DELAY. -/
def Port.withDelay (q : Port) (d : Word) : Port := { q with delay := d }

/-- The state with another value in DELAY_p. -/
def State.withDelay (s : State) (p : PortId) (d : Word) : State := s.setPort p ((s.port p).withDelay d)

/-- A function of a port that neither reads DELAY nor changes it. -/
def PassesDelay (g : Port → Port) : Prop := ∀ q d, g (q.withDelay d) = (g q).withDelay d

@[simp] theorem withDelay_hasPort (d : Word) : (s.withDelay p d).hasPort r = s.hasPort r := setPort_hasPort _ _ _ _

/-- What is read of a port without its DELAY is the same. -/
theorem withDelay_port {α : Type} (hp : s.hasPort p = true) (d : Word) (r : PortId) {f : Port → α}
    (hf : ∀ q e, f (Port.withDelay q e) = f q) : f ((s.withDelay p d).port r) = f (s.port r) := by
  unfold State.withDelay
  rw [setPort_port hp]
  split
  · next e => rw [e, hf]
  · rfl

theorem withDelay_delay (hp : s.hasPort p = true) (d : Word) : ((s.withDelay p d).port p).delay = d := by
  rw [State.withDelay, setPort_port_same hp]
  rfl

/-- What a SEND's next read may return is the same. -/
theorem withDelay_memReads (hp : s.hasPort p = true) (d : Word) (r : PortId) :
    (s.withDelay p d).memReads ((s.withDelay p d).port r) ((s.withDelay p d).port r).pixelAddr =
      s.memReads (s.port r) (s.port r).pixelAddr :=
  withDelay_port hp d r (f := fun q => s.memReads q q.pixelAddr) fun _ _ => rfl

theorem withDelay_self (s : State) (p : PortId) : s.withDelay p (s.port p).delay = s := setPort_port_self s p

theorem withDelay_withDelay (hp : s.hasPort p = true) (d e : Word) : (s.withDelay p d).withDelay p e = s.withDelay p e := by
  simp only [State.withDelay, setPort_port_same hp, setPort_setPort]
  rfl

theorem setPort_withDelay_other (hr : r ≠ p) (q : Port) (d : Word) :
    (s.withDelay p d).setPort r q = (s.setPort r q).withDelay p d := by
  unfold State.withDelay
  rw [setPort_port_other (Ne.symm hr), setPort_comm _ _ _ _ _ hr]

/-- A step of a port that passes DELAY on does the same with another DELAY_p, of that port or another. -/
theorem setPort_withDelay (hp : s.hasPort p = true) (r : PortId) {g : Port → Port} (hg : PassesDelay g) (d : Word) :
    (s.withDelay p d).setPort r (g ((s.withDelay p d).port r)) = (s.setPort r (g (s.port r))).withDelay p d := by
  by_cases hr : r = p
  · subst hr
    simp only [State.withDelay, setPort_port_same hp, setPort_setPort]
    rw [hg]
  · rw [show (s.withDelay p d).port r = s.port r from setPort_port_other hr s _, setPort_withDelay_other hr]

/-- In the state `s` the operation `f` does the same whatever DELAY_p holds. -/
def ReadsNoDelay (f : State → Out) (s : State) (p : PortId) : Prop :=
  ∃ (t : State) (b : Option (List Byte)), ∀ d, f (s.withDelay p d) = (t.withDelay p d).withTx b

theorem ReadsNoDelay.of_next {f : State → Out} (h : ∃ t : State, ∀ d, f (s.withDelay p d) = .next (t.withDelay p d)) :
    ReadsNoDelay f s p := by
  obtain ⟨t, e⟩ := h
  exact ⟨t, some t.txbuf, e⟩

/-- A step of port `r` beside which it changes the rest of the state, to `u`, and perhaps TXBUF, to `b`. -/
theorem ReadsNoDelay.of_port {f : State → Out} {u : State} {g : Port → Port} {b : Option (List Byte)} (hp : u.hasPort p = true)
    (r : PortId) (hg : PassesDelay g)
    (h : ∀ d, f (s.withDelay p d) = ((u.withDelay p d).setPort r (g ((u.withDelay p d).port r))).withTx b) :
    ReadsNoDelay f s p :=
  ⟨u.setPort r (g (u.port r)), b, fun d => by rw [h, setPort_withDelay hp r hg]⟩

/-! ### Host accesses -/

theorem withDelay_target (x : HostAccess) (d : Word) : x.target (s.withDelay p d) = x.target s := by
  have hpresent : ∀ g : Reg, g.present (s.withDelay p d) = g.present s := fun g => by
    unfold Reg.present
    cases g.port? with
    | none => rfl
    | some r => exact withDelay_hasPort d
  simp only [HostAccess.target, hpresent]

theorem withDelay_readReg (hp : s.hasPort p = true) {g : Reg} (hg : g ≠ .delay p) (d : Word) :
    readReg c (s.withDelay p d) g = readReg c s g := by
  cases g with
  | delay r =>
    have hr : r ≠ p := fun e => hg (e ▸ rfl)
    simp only [readReg, State.withDelay, setPort_port_other hr]
  | pixBase r => exact withDelay_port hp d r (f := fun q => some q.pixBase) fun _ _ => rfl
  | status r => exact withDelay_port hp d r (f := fun q => some q.statusWord) fun _ _ => rfl
  | _ => rfl

theorem writeCommand_withDelay (hp : s.hasPort p = true) (r : PortId) (w : Word) {g : Port → Port} (hg : PassesDelay g)
    (d : Word) : writeCommand r w g (s.withDelay p d) = (writeCommand r w g s).withDelay p d := by
  unfold writeCommand
  rw [withDelay_hasPort, withDelay_port hp d r (f := Port.accepts) fun _ _ => rfl]
  split
  · split
    · exact setPort_withDelay hp r (g := fun q => g q.beginCommand) (fun q e => hg q.beginCommand e) d
    · exact setPort_withDelay hp r (g := Port.drop) (fun _ _ => rfl) d
  · rfl

theorem exec_withDelay (hp : s.hasPort p = true) (i : Instr) :
    ∃ t : State, ∀ d, exec i (s.withDelay p d) = .next (t.withDelay p d) := by
  cases i with
  | setlen r n => exact ⟨_, fun d => congrArg _ (writeCommand_withDelay hp r _ (fun _ _ => rfl) d)⟩
  | send r n => exact ⟨_, fun d => congrArg _ (writeCommand_withDelay hp r _ (fun _ _ => rfl) d)⟩

theorem writeCmdReg_withDelay (hp : s.hasPort p = true) (r : PortId) (w : Word) :
    ∃ t : State, ∀ d, writeCmdReg r w (s.withDelay p d) = .next (t.withDelay p d) := by
  have haccepts : ∀ d, ((s.withDelay p d).port r).accepts = (s.port r).accepts := fun d =>
    withDelay_port hp d r (f := Port.accepts) fun _ _ => rfl
  simp only [writeCmdReg, haccepts]
  split
  · cases decode r w with
    | command i => exact exec_withDelay hp i
    | illegal => exact ⟨_, fun d => congrArg _ (writeCommand_withDelay hp r w (fun _ _ => rfl) d)⟩
  · exact ⟨_, fun d => congrArg _ (setPort_withDelay hp r (g := Port.drop) (fun _ _ => rfl) d)⟩

/-- A host access of any register but DELAY_p. -/
theorem hostAccess_withDelay (hp : s.hasPort p = true) (h : HostId) {x : HostAccess} (hx : x.target s ≠ some (.delay p)) :
    ∃ t : State, ∀ d, hostAccess c h x (s.withDelay p d) = .next (t.withDelay p d) := by
  simp only [hostAccess, regRead, regWrite, withDelay_target]
  cases x.kind with
  | read =>
    cases ht : x.target s with
    | none => exact ⟨s.refuse h x, fun _ => rfl⟩
    | some g =>
      simp only [withDelay_readReg hp fun e => hx (e ▸ ht)]
      cases readReg c s g with
      | none => exact ⟨s.refuse h x, fun _ => rfl⟩
      | some v => exact ⟨{ s with reads := s.reads ++ [⟨h, x.off, v⟩] }, fun _ => rfl⟩
  | write =>
    cases ht : x.target s with
    | none => exact ⟨s.refuse h x, fun _ => rfl⟩
    | some g =>
      cases g with
      | cmd r => exact writeCmdReg_withDelay hp r x.value
      | pixBase r =>
        have hg : PassesDelay fun q => { q with pixBase := x.value } := fun _ _ => rfl
        exact ⟨_, fun d => congrArg _ (setPort_withDelay hp r hg d)⟩
      | delay r =>
        have hr : r ≠ p := fun e => hx (e ▸ ht)
        refine ⟨s.setPort r { s.port r with delay := x.value }, fun d => congrArg Host.Outcome.next ?_⟩
        rw [← setPort_withDelay_other hr, State.withDelay, setPort_port_other hr]
      | _ => exact ⟨s.refuse h x, fun _ => rfl⟩

theorem memStore_withDelay (x : Word) (v : Byte) (d : Word) :
    (s.withDelay p d).memStore x v = (s.memStore x v).withDelay p d := by
  cases hold : s.mem.read x.toNat with
  | none => simp only [State.memStore, State.withDelay, setPort_mem, hold]
  | some old =>
    have hq : PassesDelay (Port.rememberStale x.toNat old) := fun q e => by
      unfold Port.rememberStale Port.withDelay
      split <;> rfl
    rw [State.withDelay, State.withDelay, memStore_port_of_read hold, ← hq]
    simp only [State.memStore, setPort_mem, hold]
    simp only [State.setPort, List.map_set]

/-! ### Every step -/

theorem enabled_withDelay (hp : s.hasPort p = true) (d : Word) (a : Action) : enabled (s.withDelay p d) a = enabled s a := by
  have hphase : ∀ r, ((s.withDelay p d).port r).phase = (s.port r).phase := fun r =>
    withDelay_port hp d r (f := Port.phase) fun _ _ => rfl
  cases a <;> simp only [enabled, inPhase, withDelay_hasPort, hphase, withDelay_memReads hp] <;> rfl

/-- SL_SET (R97). -/
theorem slSet_withDelay (hp : s.hasPort p = true) (r : PortId) : ReadsNoDelay (fun s => .next (slSet c r s)) s p := by
  have hlen : ∀ d, setlenCount c ((s.withDelay p d).port r).nreq = setlenCount c (s.port r).nreq := fun d =>
    withDelay_port hp d r (f := fun q => setlenCount c q.nreq) fun _ _ => rfl
  by_cases hz : c.frameLen (setlenCount c (s.port r).nreq) = 0
  · exact .of_port (u := { s with lenCfg := setlenCount c (s.port r).nreq, init := true, lockOwner := none })
      (g := fun q => Port.finish .ok { q with j := 0#32 }) (b := some s.txbuf) hp r (fun _ _ => rfl)
      fun d => congrArg Host.Outcome.next (slSet_done (hlen d) hz)
  · exact .of_port (u := { s with lenCfg := setlenCount c (s.port r).nreq, init := true })
      (g := fun q => { q with j := 0#32, phase := .slWrite }) (b := some s.txbuf) hp r (fun _ _ => rfl)
      fun d => congrArg Host.Outcome.next (slSet_go (hlen d) hz)

/-- SL_WRITE (R98). -/
theorem slWrite_withDelay (hp : s.hasPort p = true) (r : PortId) : ReadsNoDelay (slWrite c r) s p := by
  have hj : ∀ d, ((s.withDelay p d).port r).j = (s.port r).j := fun d => withDelay_port hp d r (f := Port.j) fun _ _ => rfl
  by_cases hz : ((s.port r).j + 1#32).toNat = c.frameLen s.lenCfg
  · exact .of_port (u := s.freeLock) (g := fun q => Port.finish .ok { q with j := q.j + 1#32 })
      (b := txWrite s.txbuf (s.port r).j.toNat 0#8) hp r (fun _ _ => rfl) fun d => slWrite_done (hj d) hz
  · exact .of_port (u := s) (g := fun q => { q with j := q.j + 1#32 }) (b := txWrite s.txbuf (s.port r).j.toNat 0#8) hp r
      (fun _ _ => rfl) fun d => slWrite_go (hj d) hz

/-- CHECK (R100). -/
theorem check_withDelay (hp : s.hasPort p = true) (r : PortId) : ReadsNoDelay (fun s => .next (check r s)) s p := by
  by_cases hinit : s.init = true
  · exact .of_port (u := s) (g := fun q => { q with n := sendCount q.nreq s.lenCfg, i := 0#32, phase := .poll })
      (b := some s.txbuf) hp r (fun _ _ => rfl) fun d => congrArg Host.Outcome.next (if_pos hinit)
  · exact .of_port (u := s.freeLock) (g := Port.finish .errInvalid) (b := some s.txbuf) hp r (fun _ _ => rfl)
      fun d => congrArg Host.Outcome.next (if_neg hinit)

/-- FILL (R103). -/
theorem fill_withDelay (hp : s.hasPort p = true) (r : PortId) (sel : Nat) : ReadsNoDelay (fill c r sel) s p := by
  have hreads := fun d => withDelay_memReads hp d r
  cases hv : (s.memReads (s.port r) (s.port r).pixelAddr)[sel]? with
  | none => exact .of_next ⟨s, fun d => by simp only [fill, hreads, hv]⟩
  | some v =>
    have hbuf : ∀ d, fillTx c ((s.withDelay p d).port r) v s.txbuf = fillTx c (s.port r) v s.txbuf := fun d =>
      withDelay_port hp d r (f := fun q => fillTx c q v s.txbuf) fun _ _ => rfl
    refine .of_port (u := s) (g := (Port.afterFill · v)) (b := fillTx c (s.port r) v s.txbuf) hp r (fun _ _ => rfl) fun d => ?_
    simp only [fill, hreads, hv]
    exact congrArg (State.withTx _) (hbuf d)

/-- TAIL (R104). -/
theorem tail_withDelay (hp : s.hasPort p = true) (r : PortId) : ReadsNoDelay (tail c r) s p := by
  have hbuf : ∀ d, txWriteAll s.txbuf (12 * ((s.withDelay p d).port r).n.toNat)
      (List.replicate (c.frameLen s.lenCfg - 12 * ((s.withDelay p d).port r).n.toNat) 0#8) = _ := fun d =>
    withDelay_port hp d r (f := fun q => txWriteAll s.txbuf (12 * q.n.toNat)
      (List.replicate (c.frameLen s.lenCfg - 12 * q.n.toNat) 0#8)) fun _ _ => rfl
  exact .of_port (u := s) (g := fun q => { q with phase := .kick }) hp r (fun _ _ => rfl)
    fun d => congrArg (State.withTx _) (hbuf d)

/-- DMA_EMIT (R112), which is no step of a port. -/
theorem dmaEmit_withDelay : ReadsNoDelay dmaEmit s p := by
  cases hb : txRead s.txbuf s.dmaPos.toNat with
  | none =>
    refine ⟨s, none, fun d => ?_⟩
    simp only [dmaEmit, State.withDelay, setPort_txbuf, setPort_dmaPos, hb]
    rfl
  | some b =>
    refine .of_next ⟨{ s with wire := s.wire.emit b, dmaPos := s.dmaPos + 1#32 }, fun d => ?_⟩
    simp only [dmaEmit, State.withDelay, setPort_txbuf, setPort_dmaPos, hb]
    rfl

theorem effect_withDelay (hp : s.hasPort p = true) (hreset : a ≠ .reset)
    (hdelay : ∀ h x, a = .host h x → x.target s ≠ some (.delay p)) : ReadsNoDelay (effect c · a) s p := by
  cases a with
  | reset => exact absurd rfl hreset
  | host h x => exact .of_next (hostAccess_withDelay hp h (hdelay h x rfl))
  | memStore h x v => exact .of_next ⟨_, fun d => congrArg _ (memStore_withDelay x v d)⟩
  | dmaEnd => exact .of_next ⟨dmaEnd s, fun _ => rfl⟩
  | dmaIdle => exact .of_next ⟨dmaIdle s, fun _ => rfl⟩
  | chTake => exact .of_next ⟨chTake s, fun _ => rfl⟩
  | dmaEmit => exact dmaEmit_withDelay
  | lockAcq r =>
    exact .of_port (u := s.takeLock r) (g := fun q => { q with phase := if q.op = some .send then .check else .slSet })
      (b := some s.txbuf) hp r (fun _ _ => rfl) fun _ => rfl
  | lockTimeout r => exact .of_port (u := s) (g := Port.goFatal) (b := some s.txbuf) hp r (fun _ _ => rfl) fun _ => rfl
  | slSet r => exact slSet_withDelay hp r
  | slWrite r => exact slWrite_withDelay hp r
  | check r => exact check_withDelay hp r
  | poll r =>
    exact .of_port (u := s) (g := fun q => { q with phase := if q.n = 0#16 then .tail else .fill }) (b := some s.txbuf) hp r
      (fun _ _ => rfl) fun _ => rfl
  | pollGiveup r =>
    exact .of_port (u := s.freeLock) (g := Port.finish .errBusy) (b := some s.txbuf) hp r (fun _ _ => rfl) fun _ => rfl
  | fill r sel => exact fill_withDelay hp r sel
  | tail r => exact tail_withDelay hp r
  | kick r =>
    exact .of_port (g := fun q => { q with phase := .evtWait }) (b := some s.txbuf)
      (u := { s with dmaPos := 0#32, dmaLen := BitVec.ofNat 32 (c.frameLen s.lenCfg), dmaState := .run, busy := true,
                     wire := s.wire.openFrame, lockOwner := none }) hp r (fun _ _ => rfl) fun _ => rfl
  | evtTake r =>
    exact .of_port (u := s.clearEvt) (g := Port.finish .ok) (b := some s.txbuf) hp r (fun _ _ => rfl) fun _ => rfl
  | evtTimeout r =>
    exact .of_port (u := s) (g := Port.finish .errTimeout) (b := some s.txbuf) hp r (fun _ _ => rfl) fun _ => rfl

end

/-- Settles O42: on a port that is there, a step that fires does the same with every value of DELAY_p, its own among them; one that is
not there has no DELAY_p. -/
theorem delayIsReadByNoStep : Obligations.DelayIsReadByNoStep := by
  intro s t a p d hreset hdelay ht
  rw [step_chosen] at ht ⊢
  change (t.port p).delay = (s.port p).delay ∧ fire Config.chip a (s.withDelay p d) = .next (t.withDelay p d)
  have hport : t.hasPort p = s.hasPort p := by
    obtain ⟨-, rfl⟩ | ⟨hon, heff⟩ := fire_cases ht
    · rfl
    · exact (effect_cases hon heff).hasPort_eq hreset p
  cases hp : s.hasPort p with
  | false =>
    rw [State.withDelay, setPort_of_absent s p _ hp, State.withDelay, setPort_of_absent t p _ (hport.trans hp)]
    exact ⟨by rw [port_of_absent hp, port_of_absent (hport.trans hp)], ht⟩
  | true =>
    obtain ⟨hoff, rfl⟩ | ⟨hon, heff⟩ := fire_cases ht
    · exact ⟨rfl, fire_disabled ((enabled_withDelay hp d a).trans hoff) _⟩
    · have htarget : ∀ h x, a = .host h x → x.target s ≠ some (.delay p) := fun h x ha hx => by
        obtain ⟨-, hoff, -⟩ := (target_iff s x _).mp hx
        exact hdelay h x ha hoff.symm
      obtain ⟨u, b, e⟩ := effect_withDelay (c := Config.chip) hp hreset htarget
      obtain ⟨buf, rfl, rfl⟩ := withTx_next ((e (s.port p).delay).symm.trans ((withDelay_self s p).symm ▸ heff))
      have hu : u.hasPort p = true := (withDelay_hasPort _).symm.trans (hport.trans hp)
      refine ⟨withDelay_delay hu _, ?_⟩
      rw [fire_enabled ((enabled_withDelay hp d a).trans hon)]
      refine (e d).trans ?_
      rw [← withDelay_withDelay hu (s.port p).delay d]
      rfl

end Sys2Proof.Machine
end

section
/-! PROOFS, family 42_commands: the two commands run to their ends (R94, R99, R108). A run is put together from the steps of
the sequencer, each applied where the port is as the step before left it. -/

namespace Sys2Proof.Machine

/-! ### Runs of given steps -/

/-- The steps `acts`, chosen one after the other, lead from `s` to `t`, whatever the schedule holds after them. -/
def RunsTo (acts : List Action) (s t : State) : Prop :=
  ∀ rest : List Action,
    Host.Core.run Sys2Proof.core acts.length { s with sched := acts ++ rest } = .next { t with sched := rest }

/-- The step `a` leads from `s` to `t`, whatever the schedule holds after it. -/
def StepsTo (a : Action) (s t : State) : Prop := ∀ l, step (chosen a { s with sched := l }) = .next { t with sched := l }

section
variable {s t u : State} {a : Action} {acts acts' : List Action}

theorem RunsTo.refl (s : State) : RunsTo [] s s := fun _ => rfl

/-- A run goes on from the state it has come to. -/
theorem run_add {k m : Nat} {s u : State} (h : Host.Core.run Sys2Proof.core k s = .next u) :
    Host.Core.run Sys2Proof.core (k + m) s = Host.Core.run Sys2Proof.core m u := by
  induction k generalizing s with
  | zero =>
    cases h
    rw [Nat.zero_add]
  | succ k ih =>
    obtain ⟨v, hv, h⟩ := run_succ h
    have hstep : Sys2Proof.core.step s = .next v := hv
    rw [Nat.succ_add]
    simp only [Host.Core.run, hstep]
    exact ih h

theorem RunsTo.append (h : RunsTo acts s u) (hr : RunsTo acts' u t) : RunsTo (acts ++ acts') s t := fun rest => by
  rw [List.length_append, List.append_assoc, run_add (h _)]
  exact hr rest

theorem StepsTo.runsTo (h : StepsTo a s t) : RunsTo [a] s t := fun rest => by
  have hstep : Sys2Proof.core.step { s with sched := a :: rest } = .next { t with sched := rest } := h rest
  simp only [List.length_singleton, List.singleton_append, Host.Core.run, hstep]

theorem RunsTo.cons (h : StepsTo a s u) (hr : RunsTo acts u t) : RunsTo (a :: acts) s t := h.runsTo.append hr

end

section
variable {s : State} {h : HostId} {p : PortId} {q q' : Port} {a : Action} {buf : List Byte}

/-! ### The first two steps of a command -/

/-- The command's word is accepted on an idle port (R90). -/
theorem stepsTo_issue {i : Instr} (hi : Inv Config.chip s) (hh : s.hostRuns h = true) (hp : s.hasPort i.port = true)
    (hidle : (s.port i.port).phase = .idle) :
    StepsTo (issue h i) s (s.setPort i.port (Port.acceptOp (commandOp i) i.count (s.port i.port).beginCommand)) := fun l => by
  have hok := hi.port i.port
  have ha : (s.port i.port).accepts = true :=
    (accepts_iff _).mpr ⟨by rw [hok.active, hidle]; rfl, by rw [← Bool.not_eq_true, hok.fatal, hidle]; exact nofun⟩
  rw [issue, stepRunsDecodedCommand { s with sched := l } h i.port (encode i) i hh hp (decodeEncodeAgree.1 i)]
  exact exec_of_accepts (s := { s with sched := l }) hp ha

/-- What a step rule says, applied where port `p` has just become `q`, holds of the state with any schedule after it. -/
theorem stepsTo_of_rule {f : State → State} (hp : s.hasPort p = true)
    (hf : ∀ l, f { s with sched := l } = { f s with sched := l })
    (h : ∀ l, (State.setPort { s with sched := l } p q).hasPort p = true →
      (State.setPort { s with sched := l } p q).port p = q →
      step (chosen a (State.setPort { s with sched := l } p q)) =
        .next (((f { s with sched := l }).setPort p q).setPort p q')) :
    StepsTo a (s.setPort p q) ((f s).setPort p q') := fun l => by
  refine (h l ((setPort_hasPort _ p p q).trans hp) (setPort_port_same (s := { s with sched := l }) hp q)).trans ?_
  rw [setPort_setPort, hf]
  rfl

theorem stepsTo_lockAcq (hp : s.hasPort p = true) (hph : q.phase = .lockWait) (hfree : s.lockOwner = none) :
    StepsTo (.lockAcq p) (s.setPort p q)
      (State.setPort { s with lockOwner := some p } p { q with phase := if q.op = some .send then .check else .slSet }) :=
  stepsTo_of_rule (f := fun s => { s with lockOwner := some p }) hp (fun _ => rfl) fun _ hup hq => by
    have h := (lockIsAcquiredWhenFree _ p hup (by rw [hq, hph])).1 hfree
    rwa [hq] at h

/-! ### SETLEN -/

theorem stepsTo_slSet_done (hp : s.hasPort p = true) (hph : q.phase = .slSet)
    (hz : Config.chip.frameLen (setlenCount Config.chip q.nreq) = 0) :
    StepsTo (.slSet p) (s.setPort p q)
      (State.setPort { s with lenCfg := setlenCount Config.chip q.nreq, init := true, lockOwner := none } p
        (Port.finish .ok { q with j := 0#32 })) :=
  stepsTo_of_rule (f := fun s => { s with lenCfg := setlenCount Config.chip q.nreq, init := true, lockOwner := none }) hp
    (fun _ => rfl) fun _ hup hq => by
      rw [step_of_enabled (a := .slSet p) (inPhase_of hup (by rw [hq, hph])), effect, slSet_done (by rw [hq]) hz, hq]
      rfl

theorem stepsTo_slSet_go (hp : s.hasPort p = true) (hph : q.phase = .slSet)
    (hz : Config.chip.frameLen (setlenCount Config.chip q.nreq) ≠ 0) :
    StepsTo (.slSet p) (s.setPort p q)
      (State.setPort { s with lenCfg := setlenCount Config.chip q.nreq, init := true } p
        { q with j := 0#32, phase := .slWrite }) :=
  stepsTo_of_rule (f := fun s => { s with lenCfg := setlenCount Config.chip q.nreq, init := true }) hp
    (fun _ => rfl) fun _ hup hq => by
      rw [step_of_enabled (a := .slSet p) (inPhase_of hup (by rw [hq, hph])), effect, slSet_go (by rw [hq]) hz, hq]
      rfl

theorem stepsTo_slWrite_done (hp : s.hasPort p = true) (hph : q.phase = .slWrite)
    (hj : q.j.toNat + 1 = Config.chip.frameLen s.lenCfg) (hroom : Config.chip.frameLen s.lenCfg ≤ s.txbuf.length) :
    StepsTo (.slWrite p) (s.setPort p q)
      (State.setPort { s with txbuf := s.txbuf.set q.j.toNat 0#8, lockOwner := none } p
        (Port.finish .ok { q with j := q.j + 1#32 })) :=
  stepsTo_of_rule (f := fun s => { s with txbuf := s.txbuf.set q.j.toNat 0#8, lockOwner := none }) hp
    (fun _ => rfl) fun _ hup hq => by
    have h := idlePatternStep _ p hup (by rw [hq, hph])
    rw [hq] at h
    exact (h (Nat.lt_of_succ_le hj.le) (Nat.lt_of_succ_le (hj.le.trans hroom))).trans (if_pos hj)

theorem stepsTo_slWrite_go (hp : s.hasPort p = true) (hph : q.phase = .slWrite)
    (hj : q.j.toNat + 1 < Config.chip.frameLen s.lenCfg) (hroom : Config.chip.frameLen s.lenCfg ≤ s.txbuf.length) :
    StepsTo (.slWrite p) (s.setPort p q)
      (State.setPort { s with txbuf := s.txbuf.set q.j.toNat 0#8 } p { q with j := q.j + 1#32 }) :=
  stepsTo_of_rule (f := fun s => { s with txbuf := s.txbuf.set q.j.toNat 0#8 }) hp (fun _ => rfl) fun _ hup hq => by
    have h := idlePatternStep _ p hup (by rw [hq, hph])
    rw [hq] at h
    exact (h (Nat.lt_of_succ_lt hj) ((Nat.lt_of_succ_lt hj).trans_le hroom)).trans (if_neg hj.ne)

/-- The SL_WRITE steps from J_p on to the end of the frame (R98): they zero the rest of it. -/
theorem runsTo_slWrite {m : Nat} (hp : s.hasPort p = true) (hph : q.phase = .slWrite)
    (hm : q.j.toNat + (m + 1) = Config.chip.frameLen s.lenCfg) (hroom : Config.chip.frameLen s.lenCfg ≤ s.txbuf.length)
    (hbuf : txWriteAll s.txbuf q.j.toNat (List.replicate (m + 1) 0#8) = some buf) :
    RunsTo (List.replicate (m + 1) (.slWrite p)) (s.setPort p q)
      (State.setPort { s with txbuf := buf, lockOwner := none } p
        (Port.finish .ok { q with j := BitVec.ofNat 32 (Config.chip.frameLen s.lenCfg) })) := by
  induction m generalizing s q with
  | zero =>
    have hj : (q.j + 1#32).toNat = q.j.toNat + 1 := toNat_succ (by omega) (frameLen_lt Config.chip s.lenCfg)
    have hlast : q.j + 1#32 = BitVec.ofNat 32 (Config.chip.frameLen s.lenCfg) :=
      BitVec.eq_of_toNat_eq (by rw [hj, frameLen_toNat]; omega)
    rw [List.replicate_succ, txWriteAll_cons (by omega)] at hbuf
    cases hbuf
    rw [← hlast]
    exact (stepsTo_slWrite_done hp hph (by omega) hroom).runsTo
  | succ m ih =>
    have hj : (q.j + 1#32).toNat = q.j.toNat + 1 := toNat_succ (by omega) (frameLen_lt Config.chip s.lenCfg)
    rw [List.replicate_succ, txWriteAll_cons (by omega), ← hj] at hbuf
    refine .cons (stepsTo_slWrite_go hp hph (by omega) hroom) ?_
    refine ih (s := { s with txbuf := s.txbuf.set q.j.toNat 0#8 }) (q := { q with j := q.j + 1#32 }) hp hph ?_ ?_ hbuf
    · simp only [hj]
      omega
    · exact hroom.trans_eq List.length_set.symm

/-- SL_SET and the SL_WRITE steps (R97, R98), of which an empty frame has none: they end the command and zero the frame. -/
theorem runsTo_slSet {len : Half} (hp : s.hasPort p = true) (hph : q.phase = .slSet)
    (hlen : setlenCount Config.chip q.nreq = len) (hroom : Config.chip.frameLen len ≤ s.txbuf.length)
    (hbuf : txWriteAll s.txbuf 0 (List.replicate (Config.chip.frameLen len) 0#8) = some buf) :
    RunsTo (.slSet p :: List.replicate (Config.chip.frameLen len) (.slWrite p)) (s.setPort p q)
      (State.setPort { s with lenCfg := len, init := true, txbuf := buf, lockOwner := none } p
        (Port.finish .ok { q with j := BitVec.ofNat 32 (Config.chip.frameLen len) })) := by
  subst hlen
  cases hm : Config.chip.frameLen (setlenCount Config.chip q.nreq) with
  | zero =>
    rw [hm] at hbuf
    cases hbuf
    exact (stepsTo_slSet_done hp hph hm).runsTo
  | succ m =>
    have hrun := runsTo_slWrite (m := m) (p := p) (q := { q with j := 0#32, phase := .slWrite }) (buf := buf)
      (s := { s with lenCfg := setlenCount Config.chip q.nreq, init := true }) hp rfl (by simp [hm]) hroom (hm ▸ hbuf)
    rw [hm] at hrun
    exact .cons (stepsTo_slSet_go hp hph (by omega)) hrun

end

/-- Settles O54: acceptance, the lock, SL_SET and the zeros of the frame, one after the other. -/
theorem setlenRunsToOk : Obligations.SetlenRunsToOk := by
  rintro s h p n rest len frame acts hi hh hp hidle hfree rfl rfl rfl
  have hlen : (setlenCount Config.chip n).toNat = min n.toNat Config.chip.maxLeds := setlenCount_toNat _ _
  have hframe : Config.chip.frameLen (setlenCount Config.chip n) =
      12 * min n.toNat Config.chip.maxLeds + Config.chip.resetBytes := by
    rw [Config.frameLen, hlen]
  have hroom : Config.chip.frameLen (setlenCount Config.chip n) ≤ s.txbuf.length := by
    rw [hi.block.txbuf]
    exact frameLen_le_txbufSize (by omega)
  obtain ⟨buf, hbuf, hsize, hin, hout⟩ := txWriteAll_zeros 0 hroom
  have hrun : RunsTo _ s _ := (stepsTo_issue (i := .setlen p n) hi hh hp hidle).runsTo.append <|
    .cons (stepsTo_lockAcq hp rfl hfree) (runsTo_slSet (s := { s with lockOwner := some p }) hp rfl rfl hroom hbuf)
  rw [← hframe]
  refine ⟨_, hrun rest, hlen, ?_, ?_, fun r hr => setPort_port_other hr _ _, setPort_length _ _ _, hsize,
    fun k hk => hin k (Nat.zero_le k) hk, fun k hk => hout k (.inr hk)⟩
  · rw [hfree]
    rfl
  · exact setPort_port_same hp _

end Sys2Proof.Machine
end

section
/-! PROOFS, family 42_commands: SEND run to KICK (R99, R108), by induction on the pixels. -/

namespace Sys2Proof.Machine

section
variable {s : State} {p : PortId} {q q' : Port} {px : Nat → Byte} {buf : List Byte}

/-! ### SEND's steps in a run -/

theorem stepsTo_check (hp : s.hasPort p = true) (hph : q.phase = .check) (hinit : s.init = true) :
    StepsTo (.check p) (s.setPort p q) (s.setPort p { q with n := sendCount q.nreq s.lenCfg, i := 0#32, phase := .poll }) :=
  stepsTo_of_rule (f := fun s => s) hp (fun _ => rfl) fun _ hup hq => by
    rw [step_of_enabled (a := .check p) (inPhase_of hup (by rw [hq, hph])), effect, check, hq]
    exact congrArg Host.Outcome.next (if_pos hinit)

theorem stepsTo_poll (hp : s.hasPort p = true) (hph : q.phase = .poll) (hbusy : s.busy = false) :
    StepsTo (.poll p) (s.setPort p q) (s.setPort p { q with phase := if q.n.toNat = 0 then .tail else .fill }) :=
  stepsTo_of_rule (f := fun s => s) hp (fun _ => rfl) fun _ hup hq => by
    have h := (busyPollStep _ p hup (by rw [hq, hph])).1 hbusy
    rwa [hq] at h

theorem stepsTo_fill {v : Byte} (hp : s.hasPort p = true) (hph : q.phase = .fill) (hv : s.mem.read q.pixelAddr = some v)
    (hbuf : fillTx Config.chip q v s.txbuf = some buf) :
    StepsTo (.fill p 0) (s.setPort p q) (State.setPort { s with txbuf := buf } p (q.afterFill v)) :=
  stepsTo_of_rule (f := fun s => { s with txbuf := buf }) hp (fun _ => rfl) fun l hup hq => by
    have hread : (State.memReads (State.setPort { s with sched := l } p q) q q.pixelAddr)[0]? = some v := by
      simp [State.memReads, hv]
    rw [step_fill hup (by rw [hq, hph]) (by rw [hq]; exact hread), hq]
    exact congrArg (State.withTx _) hbuf

/-- TAIL (R104) zeroes the frame from the end of the pixels on. -/
theorem stepsTo_tail (hp : s.hasPort p = true) (hph : q.phase = .tail)
    (hbuf : txWriteAll s.txbuf (12 * q.n.toNat) (List.replicate (Config.chip.frameLen s.lenCfg - 12 * q.n.toNat) 0#8) =
      some buf) :
    StepsTo (.tail p) (s.setPort p q) (State.setPort { s with txbuf := buf } p { q with phase := .kick }) :=
  stepsTo_of_rule (f := fun s => { s with txbuf := buf }) hp (fun _ => rfl) fun l hup hq => by
    rw [step_of_enabled (a := .tail p) (inPhase_of hup (by rw [hq, hph])), effect, tail, hq]
    exact congrArg (State.withTx _) hbuf

/-- The state in which a transfer of the frame has just started (R105). -/
def State.kicked (c : Config) (s : State) : State :=
  { s with dmaPos := 0#32, dmaLen := BitVec.ofNat 32 (c.frameLen s.lenCfg), dmaState := .run, busy := true,
           wire := s.wire.openFrame, lockOwner := none }

theorem stepsTo_kick (hp : s.hasPort p = true) (hph : q.phase = .kick) :
    StepsTo (.kick p) (s.setPort p q) ((s.kicked Config.chip).setPort p { q with phase := .evtWait }) :=
  stepsTo_of_rule (f := State.kicked Config.chip) hp (fun _ => rfl) fun l hup hq => by
    rw [step_of_enabled (a := .kick p) (inPhase_of hup (by rw [hq, hph])), effect, kick, hq]
    rfl

/-! ### One pixel -/

/-- A FILL that is not the last one leaves the port in FILL, one byte further on. -/
theorem afterFill_goes_on {k : Nat} (hph : q.phase = .fill) (hi : q.i.toNat = k) (hk : k + 1 < 3 * q.n.toNat) (v : Byte) :
    (q.afterFill v).phase = .fill ∧ (q.afterFill v).i.toNat = k + 1 := by
  have hi' : (q.i + 1#32).toNat = k + 1 := by
    rw [← hi]
    exact toNat_succ (k := 3 * q.n.toNat) (by omega) (by have := q.n.isLt; omega)
  exact ⟨by rw [Port.afterFill_phase, hi', if_neg hk.ne, hph], hi'⟩

/-- The encoding of pixel `i`, whose hue, saturation and value are three of the bytes `px` (R103). -/
def pixelBytes (px : Nat → Byte) (i : Nat) : List Byte :=
  encPixel Config.chip.pat (convert Config.chip (px (3 * i)) (px (3 * i + 1)) (px (3 * i + 2)))

/-- The port after the three FILLs of pixel `x`. -/
def Port.afterPixel (q : Port) (px : Nat → Byte) (x : Nat) : Port :=
  ((q.afterFill (px (3 * x))).afterFill (px (3 * x + 1))).afterFill (px (3 * x + 2))

/-- The three FILLs of pixel `x` write its encoding and go on to the next pixel, or to TAIL after the last one. -/
theorem runsTo_pixel {x : Nat} (hp : s.hasPort p = true) (hph : q.phase = .fill) (hi : q.i.toNat = 3 * x) (hx : x < q.n.toNat)
    (hread : ∀ k, k < 3 * q.n.toNat → s.mem.read (q.base.toNat + k) = some (px k))
    (hbuf : txWriteAll s.txbuf (12 * x) (pixelBytes px x) = some buf) :
    RunsTo (List.replicate 3 (.fill p 0)) (s.setPort p q) (State.setPort { s with txbuf := buf } p (q.afterPixel px x)) ∧
      (q.afterPixel px x).i.toNat = 3 * (x + 1) ∧
      (q.afterPixel px x).phase = if x + 1 = q.n.toNat then .tail else .fill := by
  obtain ⟨hph1, hi1⟩ := afterFill_goes_on hph hi (by omega) (px (3 * x))
  obtain ⟨hph2, hi2⟩ := afterFill_goes_on hph1 hi1 (show 3 * x + 1 + 1 < 3 * q.n.toNat by omega) (px (3 * x + 1))
  have hi3 : (q.afterPixel px x).i.toNat = 3 * (x + 1) := by
    rw [Port.afterPixel, Port.afterFill_i, toNat_succ (k := 3 * q.n.toNat) (by omega) (by have := q.n.isLt; omega), hi2]
    rfl
  refine ⟨?_, hi3, ?_⟩
  · have hread' : ∀ (r : Port) k, r.base = q.base → r.i.toNat = k → k < 3 * q.n.toNat →
        s.mem.read r.pixelAddr = some (px k) := by
      rintro r k hb rfl hk
      rw [Port.pixelAddr, hb, hread _ hk]
    have htx : fillTx Config.chip ((q.afterFill (px (3 * x))).afterFill (px (3 * x + 1))) (px (3 * x + 2)) s.txbuf =
        some buf := by
      rw [fillTx, hi2, if_pos (by omega), show (3 * x + 1 + 1) / 3 = x by omega]
      simp only [Port.afterFill_pxH, Port.afterFill_pxS, hi1, hi]
      rwa [if_neg (by omega), if_pos (by omega), if_pos (by omega)]
    refine .cons (stepsTo_fill (v := px (3 * x)) hp hph (hread' _ _ rfl hi (by omega)) ?_) <|
      .cons (stepsTo_fill (v := px (3 * x + 1)) hp hph1 (hread' _ _ rfl hi1 (by omega)) ?_) <|
      (stepsTo_fill (v := px (3 * x + 2)) hp hph2 (hread' _ _ rfl hi2 (by omega)) htx).runsTo
    · exact if_neg (by omega)
    · exact if_neg (by omega)
  · rw [Port.afterPixel, Port.afterFill_phase, hph2]
    change (if (q.afterPixel px x).i.toNat = 3 * q.n.toNat then _ else _) = _
    rw [hi3]
    by_cases hlast : x + 1 = q.n.toNat
    · rw [if_pos hlast, if_pos (by omega)]
    · rw [if_neg hlast, if_neg (by omega)]

/-! ### All pixels -/

/-- What the FILLs of the first `m` pixels have come to, from port `q` and TXBUF `old`: port `q'` and TXBUF `buf`. -/
structure Filled (px : Nat → Byte) (q : Port) (old : List Byte) (m : Nat) (q' : Port) (buf : List Byte) : Prop where
  port : q' = { q with i := q'.i, pxH := q'.pxH, pxS := q'.pxS, phase := q'.phase }
  count : q'.i.toNat = 3 * m
  phase : q'.phase = if m = q.n.toNat then .tail else .fill
  size : buf.length = old.length
  pixels : ∀ i j, i < m → j < 12 → buf[12 * i + j]? = (pixelBytes px i)[j]?
  beyond : ∀ k, 12 * m ≤ k → buf[k]? = old[k]?

theorem afterPixel_port (q : Port) (px : Nat → Byte) (x : Nat) : q.afterPixel px x =
    { q with i := (q.afterPixel px x).i, pxH := (q.afterPixel px x).pxH, pxS := (q.afterPixel px x).pxS,
             phase := (q.afterPixel px x).phase } := rfl

/-- The FILLs of one more pixel. -/
theorem Filled.pixel {m : Nat} {old : List Byte} (h : Filled px q old m q' s.txbuf) (hp : s.hasPort p = true)
    (hm : m < q.n.toNat) (hread : ∀ k, k < 3 * q.n.toNat → s.mem.read (q.base.toNat + k) = some (px k))
    (hroom : 12 * q.n.toNat ≤ old.length) :
    ∃ q'' buf, RunsTo (List.replicate 3 (.fill p 0)) (s.setPort p q') (State.setPort { s with txbuf := buf } p q'') ∧
      Filled px q old (m + 1) q'' buf := by
  have hn : q'.n = q.n := by rw [h.port]
  have hbase : q'.base = q.base := by rw [h.port]
  obtain ⟨buf, hbuf, hsize, hin, hout⟩ := txWriteAll_in_range (buf := s.txbuf) (i := 12 * m) (encPixel_length Config.chip.pat _)
    (by rw [h.size]; omega)
  obtain ⟨hrun, hcount, hphase⟩ := runsTo_pixel (p := p) hp (h.phase.trans (if_neg hm.ne)) h.count (hn ▸ hm)
    (by rw [hn, hbase]; exact hread) hbuf
  refine ⟨_, buf, hrun, ?_, hcount, hn ▸ hphase, hsize.trans h.size, fun i j hi hj => ?_, fun k hk => ?_⟩
  · rw [afterPixel_port, h.port]
  · obtain rfl | hlt := Nat.eq_or_lt_of_le (Nat.le_of_lt_succ hi)
    · exact hin j hj
    · rw [hout _ (.inl (by omega)), h.pixels i j hlt hj]
  · rw [hout k (.inr (by omega)), h.beyond k (by omega)]

/-- The FILLs of a SEND from its first byte on, up to any number of pixels. -/
theorem runsTo_fill (hp : s.hasPort p = true) (hph : q.phase = if q.n.toNat = 0 then .tail else .fill) (hi : q.i = 0#32)
    (hread : ∀ k, k < 3 * q.n.toNat → s.mem.read (q.base.toNat + k) = some (px k)) (hroom : 12 * q.n.toNat ≤ s.txbuf.length)
    {m : Nat} (hm : m ≤ q.n.toNat) :
    ∃ q' buf, RunsTo (List.replicate (3 * m) (.fill p 0)) (s.setPort p q) (State.setPort { s with txbuf := buf } p q') ∧
      Filled px q s.txbuf m q' buf := by
  induction m with
  | zero =>
    exact ⟨q, s.txbuf, .refl _, rfl, by rw [hi]; rfl, hph.trans (by simp [eq_comm]), rfl,
      fun i _ hlt => absurd hlt (Nat.not_lt_zero i), fun _ _ => rfl⟩
  | succ m ih =>
    obtain ⟨q', buf, hrun, hfilled⟩ := ih (Nat.le_of_succ_le hm)
    obtain ⟨q'', buf', hrun', hfilled'⟩ := hfilled.pixel (s := { s with txbuf := buf }) (p := p) hp hm hread hroom
    rw [Nat.mul_succ, List.replicate_add]
    exact ⟨q'', buf', hrun.append hrun', hfilled'⟩

/-- Port `q` where POLL of a SEND of `n` pixels has found the engine idle (R90, R100, R101). -/
def sendPort (q : Port) (n len : Half) : Port :=
  { Port.acceptOp .send n q.beginCommand with
    n := sendCount n len, i := 0#32, phase := if (sendCount n len).toNat = 0 then .tail else .fill }

end

/-- Settles O55: acceptance, the lock, CHECK, POLL, the pixels, TAIL and KICK, one after the other. -/
theorem sendFillsBufferAndStarts : Obligations.SendFillsBufferAndStarts := by
  rintro s h p n px rest count frame acts hi hh hp hidle hfree hinit hbusy rfl rfl hread rfl
  have hcount : (sendCount n s.lenCfg).toNat = min n.toNat s.lenCfg.toNat := sendCount_toNat _ _
  rw [← hcount] at hread ⊢
  have hpixels : 12 * (sendCount n s.lenCfg).toNat ≤ Config.chip.frameLen s.lenCfg := pixels_le_frameLen (sendCount_le _ _)
  have hroom := hi.frameLen_le
  have hstart : RunsTo [issue h (.send p n), .lockAcq p, .check p, .poll p] s
      (State.setPort { s with lockOwner := some p } p (sendPort (s.port p) n s.lenCfg)) :=
    (stepsTo_issue (i := .send p n) hi hh hp hidle).runsTo.append <| .cons (stepsTo_lockAcq hp rfl hfree) <|
      .cons (stepsTo_check (s := { s with lockOwner := some p }) hp rfl hinit) <|
      (stepsTo_poll (s := { s with lockOwner := some p }) hp rfl hbusy).runsTo
  obtain ⟨q, old, hfills, hq⟩ := runsTo_fill (s := { s with lockOwner := some p }) (p := p)
    (q := sendPort (s.port p) n s.lenCfg) hp rfl rfl hread (hpixels.trans hroom) (Nat.le_refl _)
  have hn : q.n = sendCount n s.lenCfg := by rw [hq.port]; rfl
  obtain ⟨buf, hbuf, hsize, hin, hout⟩ := txWriteAll_zeros (12 * q.n.toNat) (hq.size ▸ hroom)
  have hend : RunsTo [.tail p, .kick p] (State.setPort { s with lockOwner := some p, txbuf := old } p q)
      (State.setPort (State.kicked Config.chip { s with lockOwner := some p, txbuf := buf }) p { q with phase := .evtWait }) :=
    .cons (stepsTo_tail (s := { s with lockOwner := some p, txbuf := old }) hp (hq.phase.trans (if_pos rfl)) hbuf)
      (stepsTo_kick (s := { s with lockOwner := some p, txbuf := buf }) hp rfl).runsTo
  rw [hn] at hin hout
  have hport := setPort_port_same (s := State.kicked Config.chip { s with lockOwner := some p, txbuf := buf }) hp
    { q with phase := .evtWait }
  refine ⟨_, hstart.append (hfills.append hend) rest, ?_, frameLen_toNat _ _, congrArg Port.phase hport, ?_, ?_,
    fun r hr => setPort_port_other hr _ _, hsize.trans hq.size, fun i j hi hj => ?_, hin, fun k hk => ?_⟩
  · rw [hfree]
    rfl
  · refine (congrArg Port.active hport).trans ?_
    rw [hq.port]
    rfl
  · refine (congrArg (fun q => q.n.toNat) hport).trans ?_
    rw [hn]
  · exact (hout _ (.inl (by omega))).trans (hq.pixels i j hi hj)
  · exact (hout k (.inr hk)).trans (hq.beyond k (hpixels.trans hk))

end Sys2Proof.Machine
end

section
/-! PROOFS, family 43_dma_and_events: the steps of the DMA engine and of the completion handler (R112 to R116), and what any step
does to a transfer (R118, R122): it either leaves the engine and the wire log as they are or is one of five that are named. -/

namespace Sys2Proof.Machine

/-! ### The steps of the engine and of the completion handler -/

/-- Settles O25: the guard holds, the byte is read, and `emit` changes the last frame. -/
theorem dmaEmitStep : Obligations.DmaEmitStep := by
  intro s b fs f hrun hlt hb hframes
  rw [step_of_enabled (a := .dmaEmit) (by simp [enabled, hrun, hlt]), effect, dmaEmit, hb]
  simp only [Wire.emit, hframes, onLastFrame_append]

/-- Settles O26: each of the three steps takes its effect where its guard holds, and CH_TAKE holds where nothing is pending. -/
theorem transferEndSteps : Obligations.TransferEndSteps := by
  refine fun s => ⟨fun hrun hlast => ?_, fun hdrain => ?_, fun hpend => ?_, fun hpend => ?_⟩
  · exact step_of_enabled (a := .dmaEnd) (by simp [enabled, hrun, hlast])
  · exact step_of_enabled (a := .dmaIdle) (by simp [enabled, hdrain])
  · exact step_of_enabled (a := .chTake) hpend
  · exact fire_disabled (a := .chTake) hpend _

section
variable {c : Config} {s t u : State} {a : Action} {p : PortId}

/-! ### What a step does to a transfer -/

/-- The steps that change DMA_STATE, DMA_POS, DMA_LEN or the wire log. -/
def Action.movesTransfer : Action → Bool
  | .kick _ | .dmaEmit | .dmaEnd | .dmaIdle | .reset => true
  | .host _ _ | .memStore _ _ _ | .lockAcq _ | .lockTimeout _ | .slSet _ | .slWrite _ | .check _ | .poll _ | .pollGiveup _
  | .fill _ _ | .tail _ | .evtTake _ | .evtTimeout _ | .chTake => false

/-- The engine's registers and the wire log are the same in both states. -/
structure SameTransfer (s t : State) : Prop where
  state : t.dmaState = s.dmaState
  pos : t.dmaPos = s.dmaPos
  len : t.dmaLen = s.dmaLen
  wire : t.wire = s.wire

theorem SameTransfer.refl (s : State) : SameTransfer s s := ⟨rfl, rfl, rfl, rfl⟩

theorem SameTransfer.trans (h : SameTransfer s t) (h' : SameTransfer t u) : SameTransfer s u :=
  ⟨h'.state.trans h.state, h'.pos.trans h.pos, h'.len.trans h.len, h'.wire.trans h.wire⟩

/-- Everything the step `a` from `s` to `t` can do to a transfer. -/
inductive TransferStep (s t : State) : Action → Prop where
  | same {a : Action} (ha : a.movesTransfer = false) (h : SameTransfer s t) : TransferStep s t a
  | kick (p : PortId) (hph : (s.port p).phase = .kick) (hpos : t.dmaPos = 0#32) (hwire : t.wire = s.wire.openFrame) :
      TransferStep s t (.kick p)
  | dmaEmit (b : Byte) (hr : s.dmaState = .run) (hlt : s.dmaPos.toNat < s.dmaLen.toNat) (hb : s.txbuf[s.dmaPos.toNat]? = some b)
      (ht : t = { s with wire := s.wire.emit b, dmaPos := s.dmaPos + 1#32 }) : TransferStep s t .dmaEmit
  | dmaEnd (hr : s.dmaState = .run) (hlast : s.dmaPos = s.dmaLen) (hlen : t.dmaLen = s.dmaLen) (hdrain : t.dmaState = .drain) :
      TransferStep s t .dmaEnd
  | dmaIdle (hd : s.dmaState = .drain) (hidle : t.dmaState = .idle) : TransferStep s t .dmaIdle
  | reset (hidle : t.dmaState = .idle) : TransferStep s t .reset

theorem StepEffect.transferStep (h : StepEffect c s a t) : TransferStep s t a := by
  cases h with
  | kick p hp hph => exact .kick p hph rfl rfl
  | dmaEmit b hr hlt hb => exact .dmaEmit b hr hlt hb rfl
  | dmaEnd hr hlast => exact .dmaEnd hr hlast rfl rfl
  | dmaIdle hd => exact .dmaIdle hd rfl
  | reset => exact .reset rfl
  | memStore _ x v =>
    obtain ⟨ports, mem, -, e⟩ := memStore_eq s x v
    rw [e]
    exact .same rfl ⟨rfl, rfl, rfl, rfl⟩
  | _ => exact .same rfl ⟨rfl, rfl, rfl, rfl⟩

/-- The DMA engine is idle while a SEND fills TXBUF and until its KICK (R101, R104, R105). -/
theorem Inv.engine_idle (hi : Inv c s)
    (hph : (s.port p).phase = .fill ∨ (s.port p).phase = .tail ∨ (s.port p).phase = .kick) : s.dmaState = .idle := by
  obtain ⟨-, ⟨hbusy, -⟩, hfills, -⟩ := hi
  by_contra hne
  exact Bool.false_ne_true ((hfills p hph).symm.trans (hbusy.mpr hne))

/-! ### A transfer lasts until its DMA_END -/

/-- R118: only its DMA_END, after the last byte, and reset take a transfer out of RUN. -/
theorem TransferStep.lasts (h : TransferStep s t a) (hi : Inv c s) (hrun : s.dmaState = .run) (hreset : a ≠ .reset) :
    t.dmaLen = s.dmaLen ∧ (t.dmaState = .run ∨ (a = .dmaEnd ∧ s.dmaPos = s.dmaLen ∧ t.dmaState = .drain)) := by
  cases h with
  | same ha h => exact ⟨h.len, .inl (h.state.trans hrun)⟩
  | kick p hph => simp [hi.engine_idle (.inr (.inr hph))] at hrun
  | dmaEmit b _ _ _ ht => exact ⟨by rw [ht], .inl (by rw [ht, hrun])⟩
  | dmaEnd _ hlast hlen hdrain => exact ⟨hlen, .inr ⟨rfl, hlast, hdrain⟩⟩
  | dmaIdle hd => simp [hd] at hrun
  | reset => exact absurd rfl hreset

/-- Settles O43: a step that holds leaves the engine, and one that fires is one of the cases of R118. -/
theorem transfersAreNotCancelled : Obligations.TransfersAreNotCancelled := by
  intro s t hi hrun h hreset
  obtain ⟨l, k, rfl | ⟨-, he⟩⟩ := step_cases h
  · exact ⟨rfl, .inl hrun⟩
  · exact he.transferStep.lasts hi hrun hreset

/-! ### What is on the wire is what TXBUF holds -/

/-- R122: while a transfer runs, its frame is the part of TXBUF that has been read. -/
def FrameIsBuffer (s : State) : Prop :=
  s.dmaState = .run → s.wire.frames.getLast?.map (fun f => f.bytes) = some (s.txbuf.take s.dmaPos.toNat)

/-- While a transfer runs, no step but reset and SL_WRITE changes TXBUF (R122): FILL and TAIL wait for an idle engine. -/
theorem StepEffect.txbuf_of_run (h : StepEffect c s a t) (hi : Inv c s) (hrun : s.dmaState = .run) (hreset : a ≠ .reset)
    (hslw : ∀ p, a ≠ .slWrite p) : t.txbuf = s.txbuf := by
  obtain e | e | ⟨p, -, ⟨sel, rfl⟩ | rfl | rfl⟩ := h.txbuf_cases
  · exact e
  · exact absurd e hreset
  · cases h with
    | fill _ _ _ _ _ hph => simp [hi.engine_idle (.inl hph)] at hrun
  · cases h with
    | tail _ _ _ hph => simp [hi.engine_idle (.inr (.inl hph))] at hrun
  · exact absurd rfl (hslw p)

theorem StepEffect.frameIsBuffer (h : StepEffect c s a t) (hi : Inv c s) (hs : FrameIsBuffer s) (hslw : ∀ p, a ≠ .slWrite p) :
    FrameIsBuffer t := by
  intro hrun
  cases h.transferStep with
  | same ha hsame =>
    have hrun' : s.dmaState = .run := hsame.state.symm.trans hrun
    rw [hsame.wire, hsame.pos, h.txbuf_of_run hi hrun' (by rintro rfl; cases ha) hslw]
    exact hs hrun'
  | kick p _ hpos hwire => simp [hpos, hwire]
  | dmaEmit b hr hlt hb ht =>
    obtain ⟨f, hf, hbytes⟩ := Option.map_eq_some_iff.mp (hs hr)
    simp [ht, hf, hbytes, toNat_succ hlt s.dmaLen.isLt, List.take_add_one, hb]
  | dmaEnd _ _ _ hdrain => simp [hdrain] at hrun
  | dmaIdle _ hidle | reset hidle => simp [hidle] at hrun

/-- Settles O57: a step that holds changes neither TXBUF nor the frame; of those that fire, KICK opens an empty frame, DMA_EMIT adds
the next byte of TXBUF, and the others change neither while the transfer runs. -/
theorem frameIsBufferUnlessSetlenRuns : Obligations.FrameIsBufferUnlessSetlenRuns := by
  intro s t hi hs h hslw
  obtain ⟨l, k, rfl | ⟨-, he⟩⟩ := step_cases h
  · exact hs
  · exact he.frameIsBuffer hi hs hslw

end

end Sys2Proof.Machine
end

section
/-! PROOFS, family 43_dma_and_events: a transfer run to its end (R121), by induction on the bytes emitted. -/

namespace Sys2Proof.Machine

section
variable {s : State}

/-! ### The bytes of the transfer -/

/-- The transfer of `s`, whose frame is the one after `fs`, when `k` bytes have been emitted (R112). -/
def State.emitted (s : State) (fs : List Frame) (k : Nat) : State :=
  { s with dmaPos := BitVec.ofNat 32 k, wire := ⟨fs ++ [⟨s.txbuf.take k, false⟩], true⟩ }

theorem stepsTo_dmaEmit {fs : List Frame} {k : Nat} (hrun : s.dmaState = .run) (hk : k < s.dmaLen.toNat)
    (hroom : s.dmaLen.toNat ≤ s.txbuf.length) : StepsTo .dmaEmit (s.emitted fs k) (s.emitted fs (k + 1)) := fun l => by
  have hpos : (BitVec.ofNat 32 k).toNat = k := Nat.mod_eq_of_lt (hk.trans s.dmaLen.isLt)
  have hb : s.txbuf[k]? = some s.txbuf[k] := List.getElem?_eq_getElem (hk.trans_le hroom)
  rw [dmaEmitStep { s.emitted fs k with sched := l } s.txbuf[k] fs ⟨s.txbuf.take k, false⟩ hrun (hpos.trans_lt hk)
    ((congrArg (txRead s.txbuf) hpos).trans hb) rfl]
  simp only [State.emitted, List.take_add_one, hb, Option.toList_some, BitVec.ofNat_add]

theorem runsTo_dmaEmit (fs : List Frame) {k : Nat} (hrun : s.dmaState = .run) (hk : k ≤ s.dmaLen.toNat)
    (hroom : s.dmaLen.toNat ≤ s.txbuf.length) : RunsTo (List.replicate k .dmaEmit) (s.emitted fs 0) (s.emitted fs k) := by
  induction k with
  | zero => exact .refl _
  | succ k ih =>
    rw [List.replicate_succ']
    exact (ih (Nat.le_of_succ_le hk)).append (stepsTo_dmaEmit hrun hk hroom).runsTo

/-! ### The end of the transfer -/

theorem stepsTo_dmaEnd (hrun : s.dmaState = .run) (hlast : s.dmaPos = s.dmaLen) : StepsTo .dmaEnd s (dmaEnd s) := fun l =>
  (transferEndSteps { s with sched := l }).1 hrun hlast

theorem stepsTo_dmaIdle (hdrain : s.dmaState = .drain) : StepsTo .dmaIdle s (dmaIdle s) := fun l =>
  (transferEndSteps { s with sched := l }).2.1 hdrain

theorem stepsTo_chTake (hpend : s.irqPend = true) : StepsTo .chTake s (chTake s) := fun l =>
  (transferEndSteps { s with sched := l }).2.2.1 hpend

end

/-- Settles O56: the bytes, then DMA_END, and the interrupt and the busy flag in either order. -/
theorem transferPutsBufferOnWire : Obligations.TransferPutsBufferOnWire := by
  intro s fs rest acts hrun hpos hroom hwire hacts
  have hstart : s.emitted fs 0 = s := by
    rw [State.emitted, List.take_zero, ← hwire, ← hpos]
  have hbytes := runsTo_dmaEmit fs hrun (Nat.le_refl _) hroom
  rw [hstart] at hbytes
  have hend := stepsTo_dmaEnd (s := s.emitted fs s.dmaLen.toNat) hrun (by simp [State.emitted])
  have hdone : RunsTo acts s (dmaIdle (chTake (dmaEnd (s.emitted fs s.dmaLen.toNat)))) := by
    obtain rfl | rfl := hacts
    · exact hbytes.append (.cons hend (.cons (stepsTo_chTake rfl) (stepsTo_dmaIdle rfl).runsTo))
    · exact hbytes.append (.cons hend (.cons (stepsTo_dmaIdle rfl) (stepsTo_chTake rfl).runsTo))
  rw [hdone rest]
  simp [dmaIdle, chTake, dmaEnd, State.emitted, Wire.closeFrame]

end Sys2Proof.Machine
end

section
/-! PROOFS, family 43_dma_and_events: in a weakly fair run every transfer ends (R120). The engine's steps that are left come down with
every step that moves the transfer, and while none does, the engine's next step stays enabled. -/

namespace Sys2Proof.Machine

section
variable {c : Config} {s t : State} {a : Action}

/-! ### The steps left of a transfer -/

/-- How many steps the DMA engine has to take until it is idle (R112 to R114). -/
def State.engineStepsLeft (s : State) : Nat :=
  match s.dmaState with
  | .run => s.dmaLen.toNat - s.dmaPos.toNat + 2
  | .drain => 1
  | .idle => 0

theorem engineStepsLeft_of_idle (h : s.dmaState = .idle) : s.engineStepsLeft = 0 := by rw [State.engineStepsLeft, h]

theorem engineStepsLeft_of_drain (h : s.dmaState = .drain) : s.engineStepsLeft = 1 := by rw [State.engineStepsLeft, h]

theorem engineStepsLeft_of_run (h : s.dmaState = .run) : s.engineStepsLeft = s.dmaLen.toNat - s.dmaPos.toNat + 2 := by
  rw [State.engineStepsLeft, h]

theorem engineStepsLeft_pos (h : s.dmaState ≠ .idle) : 0 < s.engineStepsLeft := by
  unfold State.engineStepsLeft
  split <;> simp_all

theorem SameTransfer.engineStepsLeft_eq (h : SameTransfer s t) : t.engineStepsLeft = s.engineStepsLeft := by
  simp only [State.engineStepsLeft, h.state, h.pos, h.len]

/-- A step either brings a transfer nearer to its end or leaves it as it is. -/
theorem TransferStep.descends (h : TransferStep s t a) (hi : Inv c s) (hs : s.dmaState ≠ .idle) :
    t.engineStepsLeft < s.engineStepsLeft ∨ (a.movesTransfer = false ∧ SameTransfer s t) := by
  cases h with
  | same ha h => exact .inr ⟨ha, h⟩
  | kick p hph => exact absurd (hi.engine_idle (.inr (.inr hph))) hs
  | dmaEmit b hr hlt _ ht =>
    have hpos := toNat_succ hlt s.dmaLen.isLt
    rw [engineStepsLeft_of_run hr, engineStepsLeft_of_run (by rw [ht, hr])]
    simp only [ht, hpos]
    omega
  | dmaEnd hr _ _ hdrain =>
    rw [engineStepsLeft_of_run hr, engineStepsLeft_of_drain hdrain]
    omega
  | dmaIdle _ hidle | reset hidle =>
    rw [engineStepsLeft_of_idle hidle]
    exact .inl (engineStepsLeft_pos hs)

/-! ### The engine's next step -/

/-- An engine that is not idle has a step that moves the transfer, enabled as long as nothing else has moved it. -/
theorem Inv.engine_ready (hi : Inv c s) (hs : s.dmaState ≠ .idle) :
    ∃ a : Action, a.ofBlock = true ∧ a.kind.movesTransfer = true ∧ ∀ t, SameTransfer s t → enabled t a.kind = true := by
  cases hst : s.dmaState with
  | idle => exact absurd hst hs
  | drain => exact ⟨.dmaIdle, rfl, rfl, fun t h => by simp [Action.kind, enabled, h.state, hst]⟩
  | run =>
    obtain hlt | hlast := Nat.lt_or_eq_of_le hi.block.dma.1
    · exact ⟨.dmaEmit, rfl, rfl, fun t h => by simp [Action.kind, enabled, h.state, h.pos, h.len, hst, hlt]⟩
    · exact ⟨.dmaEnd, rfl, rfl, fun t h => by simp [Action.kind, enabled, h.state, h.pos, h.len, hst, BitVec.eq_of_toNat_eq hlast]⟩

theorem movesTransfer_kind (a : Action) : a.kind.movesTransfer = a.movesTransfer := by cases a <;> rfl

end

/-! ### Runs -/

section
variable {c : Config} {acts : Nat → Action} {r : Nat → State} {k : Nat}

/-- Every state of a run from one that meets the invariant meets it. -/
theorem IsRun.keeps_inv (hr : IsRun c acts r) (hi : Inv c (r 0)) (k : Nat) : Inv c (r k) := by
  induction k with
  | zero => exact hi
  | succ k ih =>
    obtain ⟨-, e⟩ | ⟨hon, he⟩ := fire_cases (hr k)
    · exact e ▸ ih
    · exact (effect_cases hon he).keeps_inv ih

/-- The step of a run that fires at `m`, as what it does to a transfer. -/
theorem IsRun.transferStep (hr : IsRun c acts r) {m : Nat} (hon : enabled (r m) (acts m) = true) :
    TransferStep (r m) (r (m + 1)) (acts m) :=
  (effect_cases hon ((fire_enabled hon c).symm.trans (hr m))).transferStep

/-- A transfer that comes no nearer to its end stays as it is. -/
theorem IsRun.sameTransfer (hr : IsRun c acts r) (hi : ∀ m, Inv c (r m)) (hk : (r k).dmaState ≠ .idle)
    (hno : ∀ m, k ≤ m → (r k).engineStepsLeft ≤ (r m).engineStepsLeft) {m : Nat} (hm : k ≤ m) : SameTransfer (r k) (r m) := by
  induction m, hm using Nat.le_induction with
  | base => exact .refl _
  | succ m hm ih =>
    obtain ⟨-, e⟩ | ⟨hon, -⟩ := fire_cases (hr m)
    · exact e ▸ ih
    · obtain hlt | ⟨-, h⟩ := (hr.transferStep hon).descends (hi m) (ih.state ▸ hk)
      · exact absurd (hlt.trans_eq ih.engineStepsLeft_eq) (hno _ (Nat.le_succ_of_le hm)).not_gt
      · exact ih.trans h

/-- In a weakly fair run every transfer comes nearer to its end. -/
theorem WeaklyFair.descends (hf : WeaklyFair acts r) (hr : IsRun c acts r) (hi : ∀ m, Inv c (r m))
    (hk : (r k).dmaState ≠ .idle) : ∃ m, k ≤ m ∧ (r m).engineStepsLeft < (r k).engineStepsLeft := by
  by_contra! hno
  have hsame : ∀ m, k ≤ m → SameTransfer (r k) (r m) := fun m => hr.sameTransfer hi hk hno
  obtain ⟨a, hblock, hmoves, hready⟩ := (hi k).engine_ready hk
  obtain ⟨m, hm, hkind, hon⟩ := hf a hblock k fun m hm => hready _ (hsame m hm)
  have hacts : (acts m).movesTransfer = true := by rw [← movesTransfer_kind, hkind, hmoves]
  obtain hlt | ⟨hkeeps, -⟩ := (hr.transferStep hon).descends (hi m) ((hsame m hm).state ▸ hk)
  · exact absurd (hlt.trans_eq (hsame m hm).engineStepsLeft_eq) (hno _ (Nat.le_succ_of_le hm)).not_gt
  · simp [hkeeps] at hacts

end

/-- Settles O59: by induction on the engine's steps left, which come down as long as it is not idle. -/
theorem fairRunsEndTransfers : Obligations.FairRunsEndTransfers := by
  intro acts r hr hi0 hf k
  have hi := hr.keeps_inv hi0
  induction hn : (r k).engineStepsLeft using Nat.strongRecOn generalizing k with
  | ind n ih =>
    subst hn
    intro hk
    obtain ⟨m, hm, hlt⟩ := hf.descends hr hi hk
    by_cases hidle : (r m).dmaState = .idle
    · exact ⟨m, hm, hidle⟩
    · obtain ⟨j, hj, hend⟩ := ih _ hlt m rfl hidle
      exact ⟨j, hm.trans hj, hend⟩

end Sys2Proof.Machine
end

section
/-! PROOFS, family 70_reset_and_hazards: what a SETLEN that races a transfer can do to its frame (R142). TXBUF can only gain zeros, and the
frame only the byte of TXBUF that the engine reads next. -/

namespace Sys2Proof.Machine

section
variable {c : Config} {s t : State} {a : Action} {sent : List Byte}

/-- SL_WRITE (R98) writes one 0x00. -/
theorem StepEffect.slWrite_txbuf {p : PortId} (h : StepEffect c s (.slWrite p) t) :
    t.txbuf = s.txbuf.set (s.port p).j.toNat 0#8 := by
  cases h with
  | slWriteDone _ _ _ _ _ hb | slWriteGo _ _ _ _ _ hb => exact hb

/-- While a transfer runs, a step other than reset leaves each byte of TXBUF or turns it to 0x00 (R122, R142). -/
theorem StepEffect.txbuf_byte_of_run (h : StepEffect c s a t) (hi : Inv c s) (hrun : s.dmaState = .run) (hreset : a ≠ .reset) (k : Nat) :
    t.txbuf[k]? = s.txbuf[k]? ∨ t.txbuf[k]? = some 0#8 := by
  by_cases hslw : ∃ p, a = .slWrite p
  · obtain ⟨p, rfl⟩ := hslw
    by_cases hk : k = (s.port p).j.toNat
    · exact .inr (hk ▸ h.slWrite_byte)
    · exact .inl (by rw [h.slWrite_txbuf, List.getElem?_set_ne (Ne.symm hk)])
  · exact .inl (by rw [h.txbuf_of_run hi hrun hreset (not_exists.mp hslw)])

/-- While a transfer runs, a step other than reset leaves the frames, or emits the byte of TXBUF at DMA_POS (R112, R118). -/
theorem StepEffect.frames_of_run (h : StepEffect c s a t) (hi : Inv c s) (hrun : s.dmaState = .run) (hreset : a ≠ .reset) :
    t.wire.frames = s.wire.frames ∨ ∃ b, s.txbuf[s.dmaPos.toNat]? = some b ∧ t.wire = s.wire.emit b := by
  cases h with
  | dmaEmit b _ _ hb => exact .inr ⟨b, hb, rfl⟩
  | kick p _ hph => simp [hi.engine_idle (.inr (.inr hph))] at hrun
  | reset => exact absurd rfl hreset
  | memStore _ x v =>
    obtain ⟨ports, mem, -, e⟩ := memStore_eq s x v
    exact .inl (by rw [e])
  | _ => exact .inl rfl

/-- While a transfer runs, its frame has DMA_POS bytes (R112). -/
theorem Inv.frame_length (hi : Inv c s) (hrun : s.dmaState = .run) {f : Frame} (hf : s.wire.frames.getLast? = some f) :
    f.bytes.length = s.dmaPos.toNat := by
  have h := hi.block.wire.2 hrun
  rw [hf] at h
  exact congrArg Prod.fst (Option.some.inj h)

/-- Byte `k` of `bytes` is the SEND's byte or 0x00. -/
def SentOrZero (sent bytes : List Byte) (k : Nat) : Prop := bytes[k]? = sent[k]? ∨ bytes[k]? = some 0#8

/-- Every byte of TXBUF is the SEND's byte or 0x00. -/
def BufferSentOrZero (sent : List Byte) (s : State) : Prop := ∀ k, SentOrZero sent s.txbuf k

/-- Every byte of the last frame is the SEND's byte or 0x00. -/
def FrameSentOrZero (sent : List Byte) (s : State) : Prop :=
  ∀ (f : Frame) (k : Nat), s.wire.frames.getLast? = some f → k < f.bytes.length → SentOrZero sent f.bytes k

theorem StepEffect.bufferSentOrZero (h : StepEffect c s a t) (hi : Inv c s) (hrun : s.dmaState = .run) (hreset : a ≠ .reset)
    (hbuf : BufferSentOrZero sent s) : BufferSentOrZero sent t := by
  intro k
  obtain e | e := h.txbuf_byte_of_run hi hrun hreset k
  · simpa only [SentOrZero, e] using hbuf k
  · exact .inr e

/-- A byte added to `bytes` that is the SEND's byte at that place, or 0x00. -/
theorem sentOrZero_concat {bytes : List Byte} {b : Byte} {k : Nat} (hk : k < (bytes ++ [b]).length)
    (hold : k < bytes.length → SentOrZero sent bytes k) (hb : some b = sent[bytes.length]? ∨ b = 0#8) :
    SentOrZero sent (bytes ++ [b]) k := by
  obtain hlt | rfl : k < bytes.length ∨ k = bytes.length := by
    rw [List.length_append, List.length_singleton] at hk
    omega
  · simpa only [SentOrZero, List.getElem?_append_left hlt] using hold hlt
  · simpa [SentOrZero] using hb

theorem StepEffect.frameSentOrZero (h : StepEffect c s a t) (hi : Inv c s) (hrun : s.dmaState = .run) (hreset : a ≠ .reset)
    (hbuf : BufferSentOrZero sent s) (hframe : FrameSentOrZero sent s) : FrameSentOrZero sent t := by
  intro g k hg hk
  obtain e | ⟨b, hb, e⟩ := h.frames_of_run hi hrun hreset
  · exact hframe g k (e ▸ hg) hk
  · rw [e, emit_getLast?] at hg
    obtain ⟨f, hf, rfl⟩ := Option.map_eq_some_iff.mp hg
    have hread : some b = sent[f.bytes.length]? ∨ b = 0#8 := by
      simpa [SentOrZero, hb, hi.frame_length hrun hf] using hbuf s.dmaPos.toNat
    exact sentOrZero_concat hk (hframe f k hf) hread

end

/-- Settles O58: a step that holds changes neither TXBUF nor the frame, and one that fires zeroes at most a byte of TXBUF or emits the
byte of TXBUF at DMA_POS, which is the SEND's or 0x00. -/
theorem racingSetlenWritesOnlyZeros : Obligations.RacingSetlenWritesOnlyZeros := by
  intro s t sent hi hrun hbuf hframe h hreset
  obtain ⟨l, k, rfl | ⟨-, he⟩⟩ := step_cases h
  · exact ⟨hbuf, hframe⟩
  · exact ⟨he.bufferSentOrZero hi hrun hreset hbuf, he.frameSentOrZero hi hrun hreset hbuf hframe⟩

end Sys2Proof.Machine
end
